-- ==== Sys2Proof/Word.lean ====
section
/-! DEFINITION. The HBPU's words: the widths of 00_scope.md R7. -/

namespace Sys2Proof

/-- A command word or a register value, `WORDW` = 32 bits (R7, R80). -/
abbrev Word := BitVec 32

/-- A symbol, an input byte or an output byte, `SYMW` = 8 bits (R7). -/
abbrev Byte := BitVec 8

/-- An arena index, `IDXW` = 9 bits (R7). -/
abbrev NodeIdx := BitVec 9

/-- The 16-bit immediate of format G (R81). -/
abbrev Half := BitVec 16

/-- A bit-string: element 0 is its leftmost bit, the bit nearest the root of the code tree (R10). -/
abbrev Bits := List Bool

end Sys2Proof
end

