-- ==== Sys2Proof/Config.lean ====
section
/-! DEFINITION. The implementation parameters of the HBPU (00_scope.md R7, R8). -/

namespace Sys2Proof

/-- `NSYM`, the number of symbols (R7). -/
def nsym : Nat := 256

/-- `MAX_LEN`, the longest code a code-table entry holds (R7). -/
def maxLen : Nat := 255

/-- `NNODE`, the number of arena entries (R7). -/
def nnode : Nat := 511

/-- `NIL`, the index value that names no node (R7, R28). -/
def nilIdx : NodeIdx := 0x1FF#9

/-- The largest value of a `CNTW` = 32-bit counter (R7, R12). -/
def cntMax : Nat := 4294967295

/-- What one implementation fixes: `OUT_DEPTH`, the bytes the output queue holds, with the bounds that
R8 and R38 require; a depth outside them is no HBPU (93_implementation_defined.md U6). -/
structure Config where
  outDepth : Nat
  atLeast  : 32 ≤ outDepth
  atMost   : outDepth ≤ 65535
deriving DecidableEq, Repr

/-- The reference value `OUT_DEPTH` = 64 (R8), the one 95_test_vectors.md uses. -/
def Config.reference : Config := ⟨64, by decide, by decide⟩

end Sys2Proof
end

