-- ==== Sys2Proof/Syntax.lean ====
section
/-! DEFINITION. The 17 commands of spec/opcode_table.json, one constructor a row (30_encoding.md R85). -/

namespace Sys2Proof

/-- A command with its operands (R84). The bits of `ctAppend` are in the order they are appended. -/
inductive Instr where
  | nop
  | abort
  | clearTables
  | ctClr (s : Byte)
  | ctAppend (s : Byte) (bits : Bits)
  | trBuild
  | trLeaf (idx : NodeIdx) (s : Byte)
  | trInner (idx left right : NodeIdx)
  | trRoot (idx : NodeIdx)
  | pkStart
  | pkSym (s : Byte)
  | pkFlush
  | upLenLo (h : Half)
  | upLenHi (h : Half)
  | upStart
  | upByte (b : Byte)
  | upEnd
deriving DecidableEq, Repr

end Sys2Proof
end

