-- ==== Sys2Proof/WellFormed.lean ====
section
/-! DEFINITION. Which instruction terms a command word can stand for: the constraints of 30_encoding.md R85 and R92. -/

namespace Sys2Proof

/-- `CT_APPEND` carries 1 to 16 bits (R83 B); `TR_LEAF`, `TR_INNER` and `TR_ROOT` never name `NIL` (R82, R83 R). -/
def Instr.wf : Instr → Bool
  | .nop => true
  | .abort => true
  | .clearTables => true
  | .ctClr _ => true
  | .ctAppend _ bits => decide (1 ≤ bits.length) && decide (bits.length ≤ 16)
  | .trBuild => true
  | .trLeaf idx _ => idx != nilIdx
  | .trInner idx _ _ => idx != nilIdx
  | .trRoot idx => idx != nilIdx
  | .pkStart => true
  | .pkSym _ => true
  | .pkFlush => true
  | .upLenLo _ => true
  | .upLenHi _ => true
  | .upStart => true
  | .upByte _ => true
  | .upEnd => true

end Sys2Proof
end

