-- ==== Sys2Proof/Decode.lean ====
section
/-! DEFINITION. The command encoding (30_encoding.md R80 to R90): the fields of a word, the decoder, total on
every word and rejecting by name, and the encoder, written from the same tables. -/

namespace Sys2Proof

/-! ### Fields (R81, R82, R84) -/

/-- `OP`, bits [31:28]. -/
def opField (w : Word) : BitVec 4 := w.extractLsb' 28 4

/-- `A`, bits [27:24] of format G. -/
def aField (w : Word) : BitVec 4 := w.extractLsb' 24 4

/-- `S`, bits [23:16] of format G: a symbol or a data byte. -/
def sField (w : Word) : Byte := w.extractLsb' 16 8

/-- `IMM`, bits [15:0] of format G. -/
def immField (w : Word) : Half := w.extractLsb' 0 16

/-- `K`, bit [27] of format T. -/
def kField (w : Word) : Bool := w.getLsbD 27

/-- `IDX`, bits [26:18] of format T. -/
def idxField (w : Word) : NodeIdx := w.extractLsb' 18 9

/-- `LEFT`, bits [17:9] of format T. -/
def leftField (w : Word) : NodeIdx := w.extractLsb' 9 9

/-- `RIGHT`, bits [8:0] of format T; the index of `TR_ROOT`. -/
def rightField (w : Word) : NodeIdx := w.extractLsb' 0 9

/-- The bits `CT_APPEND` appends: `IMM[15], IMM[14], ..., IMM[16-n]`, in that order (R84). -/
def appendedBits (n : Nat) (imm : Half) : Bits :=
  (List.range n).map fun j => imm.getLsbD (15 - j)

/-! ### Decoder -/

/-- Why a word is illegal (R89). -/
inductive Reject where
  /-- `OP` = 0xF. -/
  | reservedOpcode
  /-- A field the form does not use is not zero (R83). -/
  | unusedFieldNotZero
  /-- A `CT_APPEND` word with a bit set below its `n` bits. -/
  | appendTailNotZero
  /-- `NIL` where an arena index is named. -/
  | nilIndex
  /-- `OP` = 0xB with `A` neither 0 nor 1. -/
  | badHalfSelect
deriving DecidableEq, Repr

/-- Form N: `w[27:0]` = 0 (R83). -/
def decodeN (w : Word) (i : Instr) : Except Reject Instr :=
  if w.extractLsb' 0 28 = 0#28 then .ok i else .error .unusedFieldNotZero

/-- Form S: `A` = 0 and `IMM` = 0 (R83). -/
def decodeS (w : Word) (mk : Byte → Instr) : Except Reject Instr :=
  if aField w = 0#4 ∧ immField w = 0#16 then .ok (mk (sField w)) else .error .unusedFieldNotZero

/-- Form B: n = `A` + 1 bits at the top of `IMM`, zeros below them (R83). -/
def decodeB (w : Word) : Except Reject Instr :=
  let n := (aField w).toNat + 1
  if (immField w).toNat % 2 ^ (16 - n) = 0 then .ok (.ctAppend (sField w) (appendedBits n (immField w)))
  else .error .appendTailNotZero

/-- Format T (R82). -/
def decodeT (w : Word) : Except Reject Instr :=
  if idxField w = nilIdx then .error .nilIndex
  else if kField w then .ok (.trInner (idxField w) (leftField w) (rightField w))
  else if w.extractLsb' 8 10 = 0#10 then .ok (.trLeaf (idxField w) (w.extractLsb' 0 8))
  else .error .unusedFieldNotZero

/-- Form R: `w[27:9]` = 0 and an index that is not `NIL` (R83). -/
def decodeR (w : Word) : Except Reject Instr :=
  if w.extractLsb' 9 19 = 0#19 then
    if rightField w = nilIdx then .error .nilIndex else .ok (.trRoot (rightField w))
  else .error .unusedFieldNotZero

/-- Form H: `S` = 0, `A` selects the half (R83). -/
def decodeH (w : Word) : Except Reject Instr :=
  if sField w = 0#8 then
    if aField w = 0#4 then .ok (.upLenLo (immField w))
    else if aField w = 1#4 then .ok (.upLenHi (immField w))
    else .error .badHalfSelect
  else .error .unusedFieldNotZero

/-- The verdict on a word: one legal command, or illegal with its reason (R85, R89, R90). -/
def decode (w : Word) : Except Reject Instr :=
  match (opField w).toNat with
  | 0x0 => decodeN w .nop
  | 0x1 => decodeN w .abort
  | 0x2 => decodeN w .clearTables
  | 0x3 => decodeS w .ctClr
  | 0x4 => decodeB w
  | 0x5 => decodeN w .trBuild
  | 0x6 => decodeT w
  | 0x7 => decodeR w
  | 0x8 => decodeN w .pkStart
  | 0x9 => decodeS w .pkSym
  | 0xA => decodeN w .pkFlush
  | 0xB => decodeH w
  | 0xC => decodeN w .upStart
  | 0xD => decodeS w .upByte
  | 0xE => decodeN w .upEnd
  | _ => .error .reservedOpcode

/-- The command a row's word stands for, its bits numbered as spec/opcode_table.json numbers them. A command is
one 32-bit word moved whole (20_memory.md R68), so no byte order enters. -/
def decodeTableWord (nbits w : Nat) : Option Instr :=
  match decode (BitVec.ofNat 32 (w % 2 ^ nbits)) with
  | .ok i => some i
  | .error _ => none

/-! ### Encoder (R81, R82, R92) -/

/-- A value placed in a word with its bit 0 at bit `lo`. -/
def place {n : Nat} (v : BitVec n) (lo : Nat) : Word := v.setWidth 32 <<< lo

/-- A word of format G. -/
def wordG (op a : BitVec 4) (s : Byte) (imm : Half) : Word :=
  place op 28 ||| place a 24 ||| place s 16 ||| place imm 0

/-- A word of format T. -/
def wordT (k : Bool) (idx left right : NodeIdx) : Word :=
  place 0x6#4 28 ||| place (BitVec.ofBool k) 27 ||| place idx 18 ||| place left 9 ||| place right 0

/-- A bit-string read as a binary number, its leftmost bit most significant (R92). -/
def bitsToNat (bits : Bits) : Nat := bits.foldl (fun n b => 2 * n + b.toNat) 0

/-- `bits << (16 - n)`: the bits of a `CT_APPEND` in its immediate (R92). -/
def appendImm (bits : Bits) : Half := BitVec.ofNat 16 (bitsToNat bits * 2 ^ (16 - bits.length))

/-- The command word of an instruction (R92). -/
def encode : Instr → Word
  | .nop => wordG 0x0 0 0 0
  | .abort => wordG 0x1 0 0 0
  | .clearTables => wordG 0x2 0 0 0
  | .ctClr s => wordG 0x3 0 s 0
  | .ctAppend s bits => wordG 0x4 (BitVec.ofNat 4 (bits.length - 1)) s (appendImm bits)
  | .trBuild => wordG 0x5 0 0 0
  | .trLeaf idx s => wordT false idx 0 (s.setWidth 9)
  | .trInner idx left right => wordT true idx left right
  | .trRoot idx => wordG 0x7 0 0 (idx.setWidth 16)
  | .pkStart => wordG 0x8 0 0 0
  | .pkSym s => wordG 0x9 0 s 0
  | .pkFlush => wordG 0xA 0 0 0
  | .upLenLo h => wordG 0xB 0 0 h
  | .upLenHi h => wordG 0xB 1 0 h
  | .upStart => wordG 0xC 0 0 0
  | .upByte b => wordG 0xD 0 b 0
  | .upEnd => wordG 0xE 0 0 0

/-! ### The opcode map as data (R85) -/

/-- One row of the opcode map: a word belongs to it when `w & mask == value`. -/
structure Row where
  mnemonic : String
  value    : Word
  mask     : Word
deriving DecidableEq, Repr

/-- Whether a word belongs to a row (R85). -/
def Row.fits (r : Row) (w : Word) : Bool := w &&& r.mask == r.value

/-- The row of the opcode map a command has (R85). -/
def Instr.row : Instr → Row
  | .nop => ⟨"NOP", 0x00000000, 0xFFFFFFFF⟩
  | .abort => ⟨"ABORT", 0x10000000, 0xFFFFFFFF⟩
  | .clearTables => ⟨"CLEAR_TABLES", 0x20000000, 0xFFFFFFFF⟩
  | .ctClr _ => ⟨"CT_CLR", 0x30000000, 0xFF00FFFF⟩
  | .ctAppend _ _ => ⟨"CT_APPEND", 0x40000000, 0xF0000000⟩
  | .trBuild => ⟨"TR_BUILD", 0x50000000, 0xFFFFFFFF⟩
  | .trLeaf _ _ => ⟨"TR_LEAF", 0x60000000, 0xF803FF00⟩
  | .trInner _ _ _ => ⟨"TR_INNER", 0x68000000, 0xF8000000⟩
  | .trRoot _ => ⟨"TR_ROOT", 0x70000000, 0xFFFFFE00⟩
  | .pkStart => ⟨"PK_START", 0x80000000, 0xFFFFFFFF⟩
  | .pkSym _ => ⟨"PK_SYM", 0x90000000, 0xFF00FFFF⟩
  | .pkFlush => ⟨"PK_FLUSH", 0xA0000000, 0xFFFFFFFF⟩
  | .upLenLo _ => ⟨"UP_LENLO", 0xB0000000, 0xFFFF0000⟩
  | .upLenHi _ => ⟨"UP_LENHI", 0xB1000000, 0xFFFF0000⟩
  | .upStart => ⟨"UP_START", 0xC0000000, 0xFFFFFFFF⟩
  | .upByte _ => ⟨"UP_BYTE", 0xD0000000, 0xFF00FFFF⟩
  | .upEnd => ⟨"UP_END", 0xE0000000, 0xFFFFFFFF⟩

/-- The 17 rows of the opcode map. -/
def opcodeMap : List Row :=
  [Instr.nop.row, Instr.abort.row, Instr.clearTables.row, (Instr.ctClr 0).row, (Instr.ctAppend 0 []).row,
   Instr.trBuild.row, (Instr.trLeaf 0 0).row, (Instr.trInner 0 0 0).row, (Instr.trRoot 0).row] ++
  [Instr.pkStart.row, (Instr.pkSym 0).row, Instr.pkFlush.row, (Instr.upLenLo 0).row, (Instr.upLenHi 0).row,
   Instr.upStart.row, (Instr.upByte 0).row, Instr.upEnd.row]

end Sys2Proof
end

