-- ==== Sys2Proof/Machine/State.lean ====
section
/-! DEFINITION. The state of the HBPU (10_state.md R20) with the model's own fields for the parameter and the host
(log 1, 2, 12), and the reasons a step can stop. Plain data. -/

namespace Sys2Proof.Machine

/-- `MODE` (R23). -/
inductive Mode where
  | idle
  | pack
  | unpack
  | error
deriving DecidableEq, Repr

/-- The error codes of 60_exceptions.md R190; 9 to 15 are never written. -/
inductive ErrCode where
  | none
  | emptyInput
  | unknownSymbol
  | truncated
  | malformedTable
  | invalidCode
  | illegalCmd
  | sequence
  | overflow
deriving DecidableEq, Repr

/-- The reasons of `MALFORMED_TABLE` (60_exceptions.md R192). -/
inductive Malformed where
  | empty
  | singleNotZero
  | notPrefixFree
  | incomplete
  | noTree
  | badRoot
  | dangling
deriving DecidableEq, Repr

/-- An arena entry that names a node (R29). An INVALID entry is one the arena does not list; the fields R29 marks
as not read hold no value (R41; log 5). -/
inductive Node where
  | leaf (sym : Byte)
  | inner (left right : NodeIdx)
deriving DecidableEq, Repr

/-- One scheduled turn of the host (00_scope.md R15); `offer` lets the block see the presented word (log 2). -/
inductive HostStep where
  | offer
  | pop
  | read (idx : BitVec 4)
  | reset
deriving DecidableEq, Repr

/-- The host side of the ports (20_memory.md R60): what the host will do and what it has received. The model's own
(log 2, 12): the spec counts none of it as HBPU state (00_scope.md R16). -/
structure Env where
  /-- The words the host has still to get accepted; the head is on `cmd_data`. -/
  cmds   : List Word
  /-- The host's scheduled turns; when there is none, the presented word is offered. -/
  turns  : List HostStep
  /-- The bytes popped so far, oldest first. -/
  popped : List Byte
  /-- The values read on `rd_data` so far, oldest first. -/
  reads  : List Word
deriving DecidableEq, Repr

/-- The state. -/
structure State where
  /-- `MODE` (R23). -/
  mode      : Mode
  /-- `ERR` (60_exceptions.md R190). -/
  err       : ErrCode
  /-- `ERRMODE`, the mode in which `ERR` was raised. -/
  errMode   : Mode
  /-- `ERRINFO` (60_exceptions.md R191). -/
  errInfo   : Word
  /-- `CPL` (R39). -/
  cpl       : Bool
  /-- `TREE_VALID` (R31). -/
  treeValid : Bool
  /-- `CT_LEN` and `CT_CODE` (R24 to R26): symbol and code, symbols rising, no empty code. `CT_LEN` is the code's
  length; a symbol not listed has no entry. -/
  ct        : List (Nat × Bits)
  /-- `NODE` (R28, R29): index and node, indices rising; an index not listed is INVALID. -/
  arena     : List (Nat × Node)
  /-- `ROOT` (R31). -/
  root      : NodeIdx
  /-- `ACC` (R32). -/
  acc       : Byte
  /-- `ACC_N` (R32). -/
  accN      : BitVec 3
  /-- `PK_BITCNT` (R32). -/
  pkBitCnt  : Word
  /-- `SYMCNT` (R33). -/
  symCnt    : Word
  /-- `UP_BITLEN` (R33). -/
  upBitLen  : Word
  /-- `UP_REMAIN` (R33). -/
  upRemain  : Word
  /-- `CUR` (R33). -/
  cur       : NodeIdx
  /-- `MIDCODE` (R33). -/
  midcode   : Bool
  /-- `OUTQ` (20_memory.md R63), head first. -/
  outq      : List Byte
  /-- The parameter `OUT_DEPTH` (00_scope.md R8); no step changes it (log 1). -/
  cfg       : Config
  /-- The host side of the ports (log 2, 12). -/
  env       : Env
deriving DecidableEq, Repr

/-- Why a step can stop. -/
inductive Fault where
  /-- Raised by `UP_BYTE` alone, when `CUR` names no node. Safe: 44_unpack.md R167 derives that this never is, the spec
  gives the walk no effect there, and no step from a state that meets the model's invariant raises it (log 6). -/
  | walkAtInvalidNode
deriving DecidableEq, Repr

/-- Why an instruction can have no meaning. -/
inductive Refusal where
  /-- Raised by `exec` for an instruction that is not modelled yet; no arm does. Safe. -/
  | notModelled (mnemonic : String)
deriving DecidableEq, Repr

/-- The state after reset of an HBPU with the given parameter (70_reset_and_hazards.md R221), no word presented. -/
def State.resetWith (cfg : Config) : State where
  mode := .idle
  err := .none
  errMode := .idle
  errInfo := 0
  cpl := false
  treeValid := false
  ct := []
  arena := []
  root := 0
  acc := 0
  accN := 0
  pkBitCnt := 0
  symCnt := 0
  upBitLen := 0
  upRemain := 0
  cur := 0
  midcode := false
  outq := []
  cfg := cfg
  env := ⟨[], [], [], []⟩

/-- The machine right after reset, with the reference `OUT_DEPTH` (DESIGN CHOICE, log 1). -/
def State.reset : State := State.resetWith Config.reference

end Sys2Proof.Machine
end

