-- ==== Sys2Proof/Machine/Ops.lean ====
section
/-! DEFINITION. The operations the commands share: the two internal memories (10_state.md R24 to R31), the output
queue (20_memory.md R63), the legality check (30_encoding.md R86, R87), error entry and the return from it
(60_exceptions.md R195, R198; 40_control.md R101), and completion (44_unpack.md R166). -/

namespace Sys2Proof.Machine

/-- The outcome of a command. -/
abbrev Result := Host.Outcome State Fault Refusal

/-! ### Sparse memories in canonical form -/

/-- The entry a memory holds at a key, if any. -/
def Memory.read {α : Type} (m : List (Nat × α)) (k : Nat) : Option α :=
  match m with
  | [] => none
  | (a, v) :: t => if a = k then some v else Memory.read t k

/-- The memory with an entry written, its keys kept rising. -/
def Memory.write {α : Type} (m : List (Nat × α)) (k : Nat) (v : α) : List (Nat × α) :=
  match m with
  | [] => [(k, v)]
  | (a, x) :: t =>
    if k < a then (k, v) :: (a, x) :: t
    else if k = a then (k, v) :: t
    else (a, x) :: Memory.write t k v

/-- The memory with the entry at a key removed. -/
def Memory.erase {α : Type} (m : List (Nat × α)) (k : Nat) : List (Nat × α) :=
  match m with
  | [] => []
  | (a, x) :: t => if a = k then Memory.erase t k else (a, x) :: Memory.erase t k

/-- The canonical form: keys strictly rising and below the memory's size. -/
abbrev Memory.wf {α : Type} (size : Nat) (m : List (Nat × α)) : Prop :=
  m.Pairwise (fun x y => x.1 < y.1) ∧ ∀ e ∈ m, e.1 < size

/-! ### The code table (R24 to R27) -/

/-- `code(s)`; empty when the symbol has no entry. -/
def codeOf (s : State) (sym : Byte) : Bits := (Memory.read s.ct sym.toNat).getD []

/-- `CT_LEN[s]`. -/
def ctLen (s : State) (sym : Byte) : Nat := (codeOf s sym).length

/-- The code table with a symbol's code written; the empty code removes the entry (R25). -/
def setCode (sym : Byte) (code : Bits) (s : State) : State :=
  { s with ct := if code = [] then Memory.erase s.ct sym.toNat else Memory.write s.ct sym.toNat code }

/-! ### The arena (R28 to R31) -/

/-- The node an index names in an arena: none for `NIL` and for an INVALID entry (R28, R30). -/
def nodeIn (arena : List (Nat × Node)) (i : NodeIdx) : Option Node :=
  if i = nilIdx then none else Memory.read arena i.toNat

/-- The arena with a node written; `NIL` names no entry (log 14). -/
def writeNode (arena : List (Nat × Node)) (i : NodeIdx) (n : Node) : List (Nat × Node) :=
  if i = nilIdx then arena else Memory.write arena i.toNat n

/-- `NODE[i]`. -/
def nodeAt (s : State) (i : NodeIdx) : Option Node := nodeIn s.arena i

/-- `NODE[i] <- n`. -/
def setNode (i : NodeIdx) (n : Node) (s : State) : State := { s with arena := writeNode s.arena i n }

/-- Every node INVALID, no tree installed (R102, R122). -/
def clearArena (s : State) : State := { s with arena := [], root := 0, treeValid := false }

/-! ### The output queue -/

/-- `Emit(b)`: the byte goes to the tail. The hold keeps room for it (R63, R88; log 7). -/
def emit (b : Byte) (s : State) : State := { s with outq := s.outq ++ [b] }

/-! ### Errors -/

/-- The number of an error code (60_exceptions.md R190). -/
def ErrCode.code : ErrCode → BitVec 4
  | .none => 0
  | .emptyInput => 1
  | .unknownSymbol => 2
  | .truncated => 3
  | .malformedTable => 4
  | .invalidCode => 5
  | .illegalCmd => 6
  | .sequence => 7
  | .overflow => 8

/-- The number of a `MALFORMED_TABLE` reason (60_exceptions.md R192). -/
def Malformed.reason : Malformed → Word
  | .empty => 1
  | .singleNotZero => 2
  | .notPrefixFree => 3
  | .incomplete => 4
  | .noTree => 5
  | .badRoot => 6
  | .dangling => 7

/-- `raise E(info)`: the error entry (60_exceptions.md R195). -/
def raise (e : ErrCode) (info : Word) (s : State) : State :=
  { s with errMode := s.mode, err := e, errInfo := info, cpl := false, mode := .error }

/-- `raise MALFORMED_TABLE(reason)`. -/
def raiseMalformed (r : Malformed) (s : State) : State := raise .malformedTable r.reason s

/-- The return from an error, and the end of any session (40_control.md R101; 60_exceptions.md R198). -/
def abort (s : State) : State :=
  { s with
    mode := .idle, err := .none, errMode := .idle, errInfo := 0, cpl := false,
    acc := 0, accN := 0, upRemain := 0, cur := s.root, midcode := false }

/-- `Complete()` (44_unpack.md R166), also the end of a successful `PK_FLUSH` (43_pack.md R145). -/
def complete (s : State) : State := { s with mode := .idle, cpl := true }

/-! ### Legality -/

/-- The modes in which a command executes (30_encoding.md R86, and R87 for `NOP` and `ABORT` in ERROR mode). -/
def legalModes : Instr → List Mode
  | .nop => [.idle, .pack, .unpack, .error]
  | .abort => [.idle, .pack, .unpack, .error]
  | .clearTables => [.idle]
  | .ctClr _ => [.idle]
  | .ctAppend _ _ => [.idle]
  | .trBuild => [.idle]
  | .trLeaf _ _ => [.idle]
  | .trInner _ _ _ => [.idle]
  | .trRoot _ => [.idle]
  | .pkStart => [.idle]
  | .pkSym _ => [.pack]
  | .pkFlush => [.pack]
  | .upLenLo _ => [.idle]
  | .upLenHi _ => [.idle]
  | .upStart => [.idle]
  | .upByte _ => [.unpack]
  | .upEnd => [.idle, .unpack]

/-- What happens to a legal word before its command's own rule runs (30_encoding.md R87): in a legal mode the command
executes; in ERROR mode the word is dropped (60_exceptions.md R197); otherwise it raises `SEQUENCE`. -/
def gated (i : Instr) (s : State) (body : Result) : Result :=
  if s.mode ∈ legalModes i then body
  else if s.mode = .error then .next s
  else .next (raise .sequence (encode i) s)

end Sys2Proof.Machine
end

