-- ==== Sys2Proof/Machine/Operands.lean ====
section
/-! DEFINITION. Operand forms: how a command's operand is taken apart or placed (30_encoding.md R84; 20_memory.md R65,
R66; 44_unpack.md R160, R161, R167). -/

namespace Sys2Proof.Machine

/-- The bits of a byte, most significant first (20_memory.md R65, R66). -/
def byteBits (b : Byte) : Bits := (List.range 8).map fun i => b.getLsbD (7 - i)

/-- `v[15:0] <- h`, the upper half kept (44_unpack.md R160). -/
def withLow (v : Word) (h : Half) : Word := place (v.extractLsb' 16 16) 16 ||| place h 0

/-- `v[31:16] <- h`, the lower half kept (44_unpack.md R161). -/
def withHigh (v : Word) (h : Half) : Word := place h 16 ||| place (v.extractLsb' 0 16) 0

/-- `v[i] <- b` in a byte. -/
def setBit (v : Byte) (i : Nat) (b : Bool) : Byte :=
  if b then v ||| (1#8 <<< i) else v &&& ~~~(1#8 <<< i)

/-- The child an edge leads to: bit 0 selects `LEFT`, bit 1 `RIGHT` (10_state.md R29). -/
def childIdx (b : Bool) (left right : NodeIdx) : NodeIdx := if b then right else left

end Sys2Proof.Machine
end

