-- ==== Sys2Proof/Machine/Flags.lean ====
section
/-! DEFINITION. The flags and the registers the host reads (10_state.md R34 to R40). Their changes are in the commands'
rules; here is how they are seen. -/

namespace Sys2Proof.Machine

/-- The number of a mode (10_state.md R20). -/
def Mode.code : Mode → BitVec 2
  | .idle => 0
  | .pack => 1
  | .unpack => 2
  | .error => 3

/-- `STATUS`, index 0 (R35). -/
def status (s : State) : Word :=
  place s.mode.code 0 ||| place (BitVec.ofBool s.treeValid) 2 ||| place (BitVec.ofBool s.cpl) 3 |||
    place (BitVec.ofBool s.midcode) 4 ||| place s.err.code 8 ||| place s.errMode.code 12 ||| place s.accN 16

/-- `WALK`, index 6 (R36). -/
def walk (s : State) : Word := place s.cur 0 ||| place s.root 16

/-- `ACCREG`, index 7 (R37). -/
def accReg (s : State) : Word := place s.acc 0

/-- `OUTLVL`, index 8 (R34). -/
def outLvl (s : State) : Word := BitVec.ofNat 32 s.outq.length

/-- `ID`, index 9 (R38). -/
def idReg (s : State) : Word := 
  place 0x01#8 0 ||| place (BitVec.ofNat 8 maxLen) 8 ||| place (BitVec.ofNat 16 s.cfg.outDepth) 16

/-- The register read port: the value of the register an index names, a pure function of the state
(R34; 20_memory.md R62). -/
def readReg (s : State) (idx : BitVec 4) : Word :=
  match idx.toNat with
  | 0 => status s
  | 1 => s.errInfo
  | 2 => s.pkBitCnt
  | 3 => s.symCnt
  | 4 => s.upBitLen
  | 5 => s.upRemain
  | 6 => walk s
  | 7 => accReg s
  | 8 => outLvl s
  | 9 => idReg s
  | _ => 0

end Sys2Proof.Machine
end

