-- ==== Sys2Proof/Machine/CodeTable.lean ====
section
/-! DEFINITION. The code-table commands (spec/41_codetable.md). -/

namespace Sys2Proof.Machine

/-- `CT_CLR s` (R110). -/
def execCtClr (sym : Byte) (s : State) : Result :=
  gated (.ctClr sym) s (.next (setCode sym [] s))

/-- `CT_APPEND s, bits` (R111). -/
def execCtAppend (sym : Byte) (bits : Bits) (s : State) : Result :=
  gated (.ctAppend sym bits) s <|
    if ctLen s sym + bits.length > maxLen then .next (raise .overflow (encode (.ctAppend sym bits)) s)
    else .next (setCode sym (codeOf s sym ++ bits) s)

end Sys2Proof.Machine
end

