-- ==== Sys2Proof/Machine/Control.lean ====
section
/-! DEFINITION. The control commands (spec/40_control.md). -/

namespace Sys2Proof.Machine

/-- `NOP` (R100). -/
def execNop (s : State) : Result := gated .nop s (.next s)

/-- `ABORT` (R101). -/
def execAbort (s : State) : Result := gated .abort s (.next (abort s))

/-- `CLEAR_TABLES` (R102). -/
def execClearTables (s : State) : Result :=
  gated .clearTables s (.next (clearArena { s with ct := [] }))

end Sys2Proof.Machine
end

