-- ==== Sys2Proof/Machine/Pack.lean ====
section
/-! DEFINITION. The pack commands (spec/43_pack.md). -/

namespace Sys2Proof.Machine

/-- `AppendBit(b)` (R142): the bit goes to the next place of the partial byte, most significant first; the eighth bit
completes the byte, which is emitted. -/
def appendBit (b : Bool) (s : State) : State :=
  if s.accN = 7#3 then
    { emit (setBit s.acc 0 b) s with acc := 0, accN := 0 }
  else
    { s with acc := setBit s.acc (7 - s.accN.toNat) b, accN := s.accN + 1 }

/-- The bits of a code appended in order, element 0 first (R143). -/
def appendBits (bits : Bits) (s : State) : State :=
  match bits with
  | [] => s
  | b :: rest => appendBits rest (appendBit b s)

/-- `PK_START` (R141). -/
def execPkStart (s : State) : Result :=
  gated .pkStart s
    (.next { s with acc := 0, accN := 0, pkBitCnt := 0, symCnt := 0, cpl := false, mode := .pack })

/-- The two counters after a symbol of `n` bits is packed (R143). -/
def countSymbol (n : Nat) (s : State) : State :=
  { s with pkBitCnt := s.pkBitCnt + BitVec.ofNat 32 n, symCnt := s.symCnt + 1 }

/-- `PK_SYM s` (R143, R144). -/
def execPkSym (sym : Byte) (s : State) : Result :=
  gated (.pkSym sym) s <|
    if ctLen s sym = 0 then .next (raise .unknownSymbol (sym.setWidth 32) s)
    else if s.pkBitCnt.toNat + ctLen s sym > cntMax then .next (raise .overflow (encode (.pkSym sym)) s)
    else .next (countSymbol (ctLen s sym) (appendBits (codeOf s sym) s))

/-- `PK_FLUSH` (R145, R147). -/
def execPkFlush (s : State) : Result :=
  gated .pkFlush s <|
    if s.pkBitCnt = 0 then .next (raise .emptyInput 0 s)
    else .next (complete { (if s.accN = 0 then s else emit s.acc s) with acc := 0, accN := 0 })

end Sys2Proof.Machine
end

