-- ==== Sys2Proof/Machine/Tree.lean ====
section
/-! DEFINITION. The code-tree commands (spec/42_tree.md). -/

namespace Sys2Proof.Machine

/-! ### Table validity (R121) -/

/-- Whether a code of the table is a prefix of the code of another symbol. -/
def ambiguous (ct : List (Nat × Bits)) : Bool :=
  ct.any fun x => ct.any fun y => x.1 != y.1 && x.2.isPrefixOf y.2

/-- The Kraft sum scaled by 2^255, exact in natural numbers. -/
def kraftSum (ct : List (Nat × Bits)) : Nat := (ct.map fun e => 2 ^ (maxLen - e.2.length)).sum

/-- `ValidTable()`: the first reason that applies, or none. -/
def validTable (ct : List (Nat × Bits)) : Option Malformed :=
  match ct with
  | [] => some .empty
  | [e] => if e.2 = [false] then none else some .singleNotZero
  | _ =>
    if ambiguous ct then some .notPrefixFree
    else if kraftSum ct ≠ 2 ^ maxLen then some .incomplete
    else none

/-! ### Construction (R123) -/

/-- The arena while it is built: its nodes and the next free index. -/
structure Building where
  arena : List (Nat × Node)
  next  : NodeIdx
deriving DecidableEq, Repr

/-- The child of a node on an edge; `NIL` where the node is no INNER node, which R124 says a valid table never meets
(log 9). -/
def childOf (arena : List (Nat × Node)) (p : NodeIdx) (b : Bool) : NodeIdx :=
  match nodeIn arena p with
  | some (.inner l r) => childIdx b l r
  | _ => nilIdx

/-- The arena with the child of an INNER node set on an edge; unchanged where the node is no INNER node (log 9). -/
def setChild (arena : List (Nat × Node)) (p : NodeIdx) (b : Bool) (c : NodeIdx) : List (Nat × Node) :=
  match nodeIn arena p with
  | some (.inner l r) => writeNode arena p (if b then .inner l c else .inner c r)
  | _ => arena

/-- A node at the next free index, hung on an edge of `p`. -/
def Building.attach (t : Building) (p : NodeIdx) (b : Bool) (n : Node) : Building :=
  ⟨setChild (writeNode t.arena t.next n) p b t.next, t.next + 1⟩

/-- The inner loop of `Build`: the rest of a code, from the node `p` its earlier bits lead to. -/
def insertCode (sym : Byte) (code : Bits) (p : NodeIdx) (t : Building) : Building :=
  match code with
  | [] => t
  | [b] => t.attach p b (.leaf sym)
  | b :: rest =>
    if childOf t.arena p b = nilIdx then insertCode sym rest t.next (t.attach p b (.inner nilIdx nilIdx))
    else insertCode sym rest (childOf t.arena p b) t

/-- The outer loop of `Build`: the entries in ascending symbol order, the order the table lists them in. -/
def insertAll (ct : List (Nat × Bits)) (t : Building) : Building :=
  match ct with
  | [] => t
  | e :: rest => insertAll rest (insertCode (BitVec.ofNat 8 e.1) e.2 0 t)

/-- `Build()`: the arena of a valid table. -/
def buildArena (ct : List (Nat × Bits)) : List (Nat × Node) :=
  match ct with
  | [e] => [(0, .leaf (BitVec.ofNat 8 e.1))]
  | _ => (insertAll ct ⟨[(0, .inner nilIdx nilIdx)], 1⟩).arena

/-! ### The commands -/

/-- `TR_BUILD` (R122): the arena is cleared before the check. -/
def execTrBuild (s : State) : Result :=
  gated .trBuild s <|
    match validTable s.ct with
    | some r => .next (raiseMalformed r (clearArena s))
    | none => .next { clearArena s with arena := buildArena s.ct, treeValid := true }

/-- `TR_LEAF idx, s` (R131). -/
def execTrLeaf (idx : NodeIdx) (sym : Byte) (s : State) : Result :=
  gated (.trLeaf idx sym) s (.next (setNode idx (.leaf sym) s))

/-- `TR_INNER idx, left, right` (R132). -/
def execTrInner (idx left right : NodeIdx) (s : State) : Result :=
  gated (.trInner idx left right) s (.next (setNode idx (.inner left right) s))

/-- `TR_ROOT idx` (R133). -/
def execTrRoot (idx : NodeIdx) (s : State) : Result :=
  gated (.trRoot idx) s (.next { s with root := idx, treeValid := true })

end Sys2Proof.Machine
end

