-- ==== Sys2Proof/Machine/Unpack.lean ====
section
/-! DEFINITION. The unpack commands and the tree walk (spec/44_unpack.md). -/

namespace Sys2Proof.Machine

/-- `UP_LENLO h` (R160). -/
def execUpLenLo (h : Half) (s : State) : Result :=
  gated (.upLenLo h) s (.next { s with upBitLen := withLow s.upBitLen h })

/-- `UP_LENHI h` (R161). -/
def execUpLenHi (h : Half) (s : State) : Result :=
  gated (.upLenHi h) s (.next { s with upBitLen := withHigh s.upBitLen h })

/-- The state an unpack session opens in (R164). -/
def openUnpack (s : State) : State :=
  { s with
    cpl := false, upRemain := s.upBitLen, cur := s.root, midcode := false, symCnt := 0, mode := .unpack }

/-- `UP_START` (R164): reason 5 before reason 6; a zero length completes at once. -/
def execUpStart (s : State) : Result :=
  gated .upStart s <|
    if s.treeValid = false then .next (raiseMalformed .noTree s)
    else if nodeAt s s.root = none then .next (raiseMalformed .badRoot s)
    else if s.upBitLen = 0 then .next (complete (openUnpack s))
    else .next (openUnpack s)

/-- The bits consumed in the session, `UP_BITLEN - UP_REMAIN` (10_state.md R33). -/
def consumed (s : State) : Word := s.upBitLen - s.upRemain

/-- A decoded symbol goes to the queue and is counted (R167). -/
def emitSymbol (sym : Byte) (s : State) : State := { emit sym s with symCnt := s.symCnt + 1 }

/-- The end-of-stream check after each walked bit (R166). -/
def endCheck (s : State) : State :=
  if s.upRemain = 0 then
    if s.midcode then raise .truncated s.upBitLen s else complete s
  else s

/-- The bit is consumed (R167). -/
def consumeBit (s : State) : State := { s with upRemain := s.upRemain - 1 }

/-- `WalkBit(b)` with the check after it (R165 to R167). A walk that stands at no node stops by name (log 6). -/
def walkBit (b : Bool) (s : State) : Result :=
  match nodeAt s s.cur with
  | none => .fault .walkAtInvalidNode
  | some (.leaf sym) =>
    if b then .next (raise .invalidCode (consumed (consumeBit s)) (consumeBit s))
    else .next (endCheck (emitSymbol sym (consumeBit s)))
  | some (.inner l r) =>
    match nodeAt s (childIdx b l r) with
    | none => .next (raiseMalformed .dangling (consumeBit s))
    | some (.leaf sym) =>
      .next (endCheck { emitSymbol sym (consumeBit s) with cur := s.root, midcode := false })
    | some (.inner _ _) =>
      .next (endCheck { consumeBit s with cur := childIdx b l r, midcode := true })

/-- The bits of a byte walked in order until the session completes or an error is raised (R168). -/
def walkBits (bits : Bits) (s : State) : Result :=
  match bits with
  | [] => .next s
  | b :: rest =>
    match walkBit b s with
    | .next t => if t.mode = .unpack then walkBits rest t else .next t
    | .fault f => .fault f
    | .refused r => .refused r

/-- `UP_BYTE b` (R168): bit 7 first. -/
def execUpByte (b : Byte) (s : State) : Result := gated (.upByte b) s (walkBits (byteBits b) s)

/-- `UP_END` (R170). -/
def execUpEnd (s : State) : Result :=
  gated .upEnd s <|
    if s.mode = .idle then .next s
    else .next (raise .truncated (consumed s) s)

end Sys2Proof.Machine
end

