-- ==== Sys2Proof/Machine/Dispatch.lean ====
section
/-! DEFINITION. One arm per command (30_encoding.md R85). -/

namespace Sys2Proof.Machine

def exec (i : Instr) (s : State) : Host.Outcome State Fault Refusal :=
  match i with
  | .nop => Sys2Proof.Machine.execNop s
  | .abort => Sys2Proof.Machine.execAbort s
  | .clearTables => Sys2Proof.Machine.execClearTables s
  | .ctClr sym => Sys2Proof.Machine.execCtClr sym s
  | .ctAppend sym bits => Sys2Proof.Machine.execCtAppend sym bits s
  | .trBuild => Sys2Proof.Machine.execTrBuild s
  | .trLeaf idx sym => Sys2Proof.Machine.execTrLeaf idx sym s
  | .trInner idx left right => Sys2Proof.Machine.execTrInner idx left right s
  | .trRoot idx => Sys2Proof.Machine.execTrRoot idx s
  | .pkStart => Sys2Proof.Machine.execPkStart s
  | .pkSym sym => Sys2Proof.Machine.execPkSym sym s
  | .pkFlush => Sys2Proof.Machine.execPkFlush s
  | .upLenLo h => Sys2Proof.Machine.execUpLenLo h s
  | .upLenHi h => Sys2Proof.Machine.execUpLenHi h s
  | .upStart => Sys2Proof.Machine.execUpStart s
  | .upByte b => Sys2Proof.Machine.execUpByte b s
  | .upEnd => Sys2Proof.Machine.execUpEnd s

end Sys2Proof.Machine
end

