-- ==== Sys2Proof/Machine/Port.lean ====
section
/-! DEFINITION. The ports (20_memory.md R60 to R63): the hold (30_encoding.md R88) and the host's steps
(00_scope.md R15; 70_reset_and_hazards.md R220, R231). -/

namespace Sys2Proof.Machine

/-- `Held(w)` (30_encoding.md R88): it reads the `OP` field and the queue's length, nothing else. -/
def held (w : Word) (s : State) : Bool :=
  (opField w == 0x9#4 && decide (s.outq.length > s.cfg.outDepth - 32)) ||
  (opField w == 0xD#4 && decide (s.outq.length > s.cfg.outDepth - 8)) ||
  (opField w == 0xA#4 && decide (s.outq.length > s.cfg.outDepth - 1))

/-! ### What the ports show (R60) -/

/-- `cmd_data` while `cmd_valid` is 1. -/
def cmdData (s : State) : Option Word := s.env.cmds.head?

/-- `rst`. -/
def rst (s : State) : Bool := s.env.turns.head? == some .reset

/-- `cmd_ready`: 0 exactly while the presented word is held or reset is asserted (R61). -/
def cmdReady (s : State) : Bool :=
  !rst s && match cmdData s with
    | some w => !held w s
    | none => true

/-- `out_valid`: the queue is not empty (R63), and 0 while reset is asserted (70_reset_and_hazards.md R220). -/
def outValid (s : State) : Bool := !rst s && s.outq != []

/-- `out_data`: the head of the queue; no value while `out_valid` is 0 (log 13). -/
def outData (s : State) : Option Byte := if outValid s then s.outq.head? else none

/-- `rd_data` for a value of `rd_idx` (R62). -/
def rdData (s : State) (idx : BitVec 4) : Word := readReg s idx

/-! ### The host's steps -/

/-- Pop: the head leaves the queue (R63). On an empty queue `out_valid` is 0 and nothing is transferred (log 13). -/
def hostPop (s : State) : State :=
  match s.outq with
  | [] => s
  | b :: q => { s with outq := q, env := { s.env with popped := s.env.popped ++ [b] } }

/-- Register read: the host receives the value; nothing else changes (R62). -/
def hostRead (idx : BitVec 4) (s : State) : State :=
  { s with env := { s.env with reads := s.env.reads ++ [rdData s idx] } }

/-- Reset: the state of 70_reset_and_hazards.md R221; a presented word is not accepted (R220; log 11). -/
def hostReset (s : State) : State := { State.resetWith s.cfg with env := s.env }

/-- The schedule with its first turn taken. -/
def takeTurn (s : State) : State := { s with env := { s.env with turns := s.env.turns.tail } }

/-- The command stream advanced by one accepted word (10_state.md R22). -/
def takeWord (s : State) : State := { s with env := { s.env with cmds := s.env.cmds.tail } }

/-- A word presented next, in a turn of its own. -/
def present (w : Word) (s : State) : State :=
  { s with env := { s.env with cmds := w :: s.env.cmds, turns := .offer :: s.env.turns } }

end Sys2Proof.Machine
end

