-- ==== Sys2Proof/Machine/Accept.lean ====
section
/-! DEFINITION. The block's step for a presented word (30_encoding.md R87, R88; priority 60_exceptions.md R200). -/

namespace Sys2Proof.Machine

/-- `Step(w)` for an accepted word (R87): a legal word's command runs; an illegal word raises `ILLEGAL_CMD`, or is
dropped in ERROR mode. -/
def accept (w : Word) (s : State) : Result :=
  match decode w with
  | .ok i => exec i s
  | .error _ => .next (if s.mode = .error then s else raise .illegalCmd w s)

/-- The presented word is offered to the block: held, it changes nothing (R88; log 4); accepted, it leaves the stream
whatever its outcome (R87). With no word presented the block waits (70_reset_and_hazards.md R222; log 3). -/
def offer (s : State) : Result :=
  match cmdData s with
  | none => .next s
  | some w => if held w s then .next s else accept w (takeWord s)

/-- One turn of the host. -/
def hostTurn (t : HostStep) (s : State) : Result :=
  match t with
  | .offer => offer s
  | .pop => .next (hostPop s)
  | .read idx => .next (hostRead idx s)
  | .reset => .next (hostReset s)

end Sys2Proof.Machine
end

