-- ==== Sys2Proof/Machine/Pseudo.lean ====
section
/-! DEFINITION. The pseudo-commands and their expansions (30_encoding.md R93). -/

namespace Sys2Proof.Machine

/-- A bit-string cut into runs of 16 bits, the last one the rest. The first argument bounds the number of runs. -/
def chunks (fuel : Nat) (c : Bits) : List Bits :=
  match fuel, c with
  | 0, _ => []
  | _, [] => []
  | n + 1, c => c.take 16 :: chunks n (c.drop 16)

/-- `CT_SET s, "c"`. -/
def ctSet (sym : Byte) (c : Bits) : List Instr :=
  .ctClr sym :: (chunks c.length c).map (.ctAppend sym)

/-- `LOAD_TABLE`, its entries in ascending symbol order. -/
def loadTable (table : List (Byte × Bits)) : List Instr :=
  .clearTables :: table.flatMap fun e => ctSet e.1 e.2

/-- `UP_LEN n`. -/
def upLen (n : Word) : List Instr := [.upLenLo (n.extractLsb' 0 16), .upLenHi (n.extractLsb' 16 16)]

/-- `PACK s1, ..., sk`. -/
def packProgram (syms : List Byte) : List Instr := .pkStart :: syms.map .pkSym ++ [.pkFlush]

/-- `UNPACK n, b0, ..., b(m-1)`. -/
def unpackProgram (n : Word) (bytes : List Byte) : List Instr :=
  upLen n ++ .upStart :: bytes.map .upByte ++ [.upEnd]

end Sys2Proof.Machine
end

