-- ==== Sys2Proof/Machine/Assembler.lean ====
section
/-! DEFINITION. The assembler syntax (30_encoding.md R92) and its pseudo-commands (R93). A tool of the host, not of the
block (92_eei_decisions.md D34): it refuses an operand that does not fit its field. What R92 leaves open of the text
(spaces, case, an empty line) is in log 16. -/

namespace Sys2Proof.Machine

/-! ### From characters to tokens -/

/-- A token of a line. -/
inductive Token where
  | name (cs : List Char)
  | num (n : Nat)
  | bits (b : Bits)
  | comma
  | colon
  | openBrace
  | closeBrace
deriving DecidableEq, Repr

/-- The double quote that encloses a bit-string. -/
def quoteChar : Char := Char.ofNat 34

/-- The value of a digit in base 10 or 16. -/
def digitVal (base : Nat) (c : Char) : Option Nat :=
  let n := c.toNat
  let v := if 48 ≤ n ∧ n ≤ 57 then some (n - 48)
    else if 65 ≤ n ∧ n ≤ 70 then some (n - 55)
    else if 97 ≤ n ∧ n ≤ 102 then some (n - 87)
    else none
  v.filter fun d => d < base

/-- The value of a run of digits; none of the empty run. -/
def digitsVal (base : Nat) (cs : List Char) : Option Nat :=
  if cs = [] then none
  else cs.foldl (fun acc c => acc.bind fun n => (digitVal base c).map fun d => base * n + d) (some 0)

/-- A number: `0x` hexadecimal, else decimal. -/
def numberVal (cs : List Char) : Option Nat :=
  match cs with
  | '0' :: 'x' :: rest => digitsVal 16 rest
  | _ => digitsVal 10 cs

/-- The bits of a quoted bit-string, leftmost first. -/
def bitsVal (cs : List Char) : Option Bits :=
  cs.mapM fun c => if c = '0' then some false else if c = '1' then some true else none

/-- A character of a name or a number. -/
def wordChar (c : Char) : Bool := c.isAlphanum || c == '_'

/-- The tokens of a line; none if it has a character no token begins with. `;` starts a comment. The first argument
bounds the number of tokens and spaces. -/
def tokens (fuel : Nat) (cs : List Char) : Option (List Token) :=
  match fuel, cs with
  | _, [] => some []
  | 0, _ => none
  | n + 1, c :: rest =>
    if c = ' ' ∨ c = '\t' then tokens n rest
    else if c = ';' then some []
    else if c = ',' then (tokens n rest).map (.comma :: ·)
    else if c = ':' then (tokens n rest).map (.colon :: ·)
    else if c = Char.ofNat 123 then (tokens n rest).map (.openBrace :: ·)
    else if c = Char.ofNat 125 then (tokens n rest).map (.closeBrace :: ·)
    else if c = quoteChar then
      match rest.dropWhile (· != quoteChar) with
      | [] => none
      | _ :: after =>
        (bitsVal (rest.takeWhile (· != quoteChar))).bind fun b => (tokens n after).map (.bits b :: ·)
    else if c.isDigit then
      (numberVal (cs.takeWhile wordChar)).bind fun v => (tokens n (cs.dropWhile wordChar)).map (.num v :: ·)
    else if wordChar c then (tokens n (cs.dropWhile wordChar)).map (.name (cs.takeWhile wordChar) :: ·)
    else none

/-! ### From tokens to commands -/

/-- An operand. -/
inductive Operand where
  | num (n : Nat)
  | bits (b : Bits)
  /-- `s: "c"`, an entry of `LOAD_TABLE`. -/
  | entry (s : Nat) (c : Bits)
deriving DecidableEq, Repr

/-- One operand and the tokens after it. `NIL` is 0x1FF; that it stands wherever a number may stand, and not in the row of
`TR_INNER` alone, is the model's choice (DESIGN CHOICE, log 22). -/
def operand (ts : List Token) : Option (Operand × List Token) :=
  match ts with
  | .num s :: .colon :: .bits c :: rest => some (.entry s c, rest)
  | .num n :: rest => some (.num n, rest)
  | .bits b :: rest => some (.bits b, rest)
  | .name cs :: rest => if cs = ['N', 'I', 'L'] then some (.num 0x1FF, rest) else none
  | _ => none

/-- Operands separated by commas. The first argument bounds their number. -/
def operands (fuel : Nat) (ts : List Token) : Option (List Operand) :=
  match fuel with
  | 0 => none
  | n + 1 =>
    match operand ts with
    | some (o, []) => some [o]
    | some (o, .comma :: rest) => (operands n rest).map (o :: ·)
    | _ => none

/-- The operands of a line, none or a list of them, an outer pair of braces left out. -/
def lineOperands (ts : List Token) : Option (List Operand) :=
  match ts with
  | [] => some []
  | .openBrace :: rest =>
    if rest = [.closeBrace] then some []
    else if rest.getLast? = some .closeBrace then operands rest.length rest.dropLast
    else none
  | _ => operands ts.length ts

/-- A number as a field of `width` bits; refused when it does not fit. -/
def fitField (width : Nat) (n : Nat) : Option (BitVec width) :=
  if n < 2 ^ width then some (BitVec.ofNat width n) else none

/-- Numbers as bytes. -/
def fitBytes (ops : List Operand) : Option (List Byte) :=
  ops.mapM fun o => match o with
    | .num n => fitField 8 n
    | _ => none

/-- The code of `CT_SET`: 1 to 255 bits (R93). -/
def fitCode (c : Bits) : Option Bits := if 1 ≤ c.length ∧ c.length ≤ maxLen then some c else none

/-- The entries of `LOAD_TABLE` in ascending symbol order; a symbol listed twice is refused (log 16). -/
def fitTable (ops : List Operand) : Option (List (Nat × Bits)) :=
  ops.foldl (fun acc o => acc.bind fun t => match o with
    | .entry s c => if s < nsym ∧ Memory.read t s = none then (fitCode c).map (Memory.write t s ·) else none
    | _ => none) (some [])

/-- An instruction kept only if a word stands for it (R92: `NIL` and a bit-string of 0 or more than 16 bits refused). -/
def ifWf (i : Instr) : Option (List Instr) := if i.wf then some [i] else none

/-- The instructions of a mnemonic and its operands. That `PACK` with no symbol, `UNPACK` with no byte and `LOAD_TABLE` with no
entry are taken, as the expansions of an empty list, is the model's choice (DESIGN CHOICE, log 16). -/
def assembleOps (m : List Char) (ops : List Operand) : Option (List Instr) :=
  match String.ofList m, ops with
  | "NOP", [] => some [.nop]
  | "ABORT", [] => some [.abort]
  | "CLEAR_TABLES", [] => some [.clearTables]
  | "CT_CLR", [.num s] => (fitField 8 s).map fun s => [.ctClr s]
  | "CT_APPEND", [.num s, .bits b] => (fitField 8 s).bind fun s => ifWf (.ctAppend s b)
  | "TR_BUILD", [] => some [.trBuild]
  | "TR_LEAF", [.num i, .num s] => (fitField 9 i).bind fun i => (fitField 8 s).bind fun s => ifWf (.trLeaf i s)
  | "TR_INNER", [.num i, .num l, .num r] =>
    (fitField 9 i).bind fun i => (fitField 9 l).bind fun l => (fitField 9 r).bind fun r => ifWf (.trInner i l r)
  | "TR_ROOT", [.num i] => (fitField 9 i).bind fun i => ifWf (.trRoot i)
  | "PK_START", [] => some [.pkStart]
  | "PK_SYM", [.num s] => (fitField 8 s).map fun s => [.pkSym s]
  | "PK_FLUSH", [] => some [.pkFlush]
  | "UP_LENLO", [.num h] => (fitField 16 h).map fun h => [.upLenLo h]
  | "UP_LENHI", [.num h] => (fitField 16 h).map fun h => [.upLenHi h]
  | "UP_START", [] => some [.upStart]
  | "UP_BYTE", [.num b] => (fitField 8 b).map fun b => [.upByte b]
  | "UP_END", [] => some [.upEnd]
  | "CT_SET", [.num s, .bits c] => (fitField 8 s).bind fun s => (fitCode c).map (ctSet s)
  | "LOAD_TABLE", ops => (fitTable ops).map fun t => loadTable (t.map fun e => (BitVec.ofNat 8 e.1, e.2))
  | "UP_LEN", [.num n] => (fitField 32 n).map upLen
  | "PACK", ops => (fitBytes ops).map packProgram
  | "UNPACK", .num n :: ops => (fitField 32 n).bind fun n => (fitBytes ops).map (unpackProgram n)
  | _, _ => none

/-- The instructions of a line; a line of nothing but a comment has none. -/
def assembleLine (line : String) : Option (List Instr) :=
  match tokens line.toList.length line.toList with
  | some [] => some []
  | some (.name m :: ts) => (lineOperands ts).bind (assembleOps m)
  | _ => none

/-- The command words of a program, one command a line; none if a line is refused. -/
def assemble (lines : List String) : Option (List Word) :=
  (lines.mapM assembleLine).map fun p => p.flatten.map encode

end Sys2Proof.Machine
end

