-- ==== Sys2Proof/Safety.lean ====
section
/-! DEFINITION. The terms claims use: what a command leaves unchanged, what an error entry is, the invariant every step
keeps, command sequences and their sessions, the walk of a code through a tree, and the verdict on a code table. -/

namespace Sys2Proof.Machine

/-! ### Frames -/

/-- The parts of the state: the tuple of 10_state.md R20, and the model's own `cfg` and `env`. -/
inductive Field where
  | mode | err | errMode | errInfo | cpl | treeValid | codeTable | arena | root | acc | accN
  | pkBitCnt | symCnt | upBitLen | upRemain | cur | midcode | outq | cfg | env
deriving DecidableEq, Repr

/-- Two states hold the same in a part. -/
def Field.same : Field → State → State → Prop
  | .mode, s, t => t.mode = s.mode
  | .err, s, t => t.err = s.err
  | .errMode, s, t => t.errMode = s.errMode
  | .errInfo, s, t => t.errInfo = s.errInfo
  | .cpl, s, t => t.cpl = s.cpl
  | .treeValid, s, t => t.treeValid = s.treeValid
  | .codeTable, s, t => t.ct = s.ct
  | .arena, s, t => t.arena = s.arena
  | .root, s, t => t.root = s.root
  | .acc, s, t => t.acc = s.acc
  | .accN, s, t => t.accN = s.accN
  | .pkBitCnt, s, t => t.pkBitCnt = s.pkBitCnt
  | .symCnt, s, t => t.symCnt = s.symCnt
  | .upBitLen, s, t => t.upBitLen = s.upBitLen
  | .upRemain, s, t => t.upRemain = s.upRemain
  | .cur, s, t => t.cur = s.cur
  | .midcode, s, t => t.midcode = s.midcode
  | .outq, s, t => t.outq = s.outq
  | .cfg, s, t => t.cfg = s.cfg
  | .env, s, t => t.env = s.env

/-- Every part of the state but the named ones is unchanged. -/
def frame (changed : List Field) (s t : State) : Prop := ∀ f, f ∉ changed → f.same s t

/-- The parts an error entry writes (60_exceptions.md R195). -/
def errorFields : List Field := [.mode, .err, .errMode, .errInfo, .cpl]

/-- `t` is in ERROR mode with the record that `raise e(info)` in the mode of `s` leaves (R195). -/
def errorEntered (e : ErrCode) (info : Word) (s t : State) : Prop :=
  t.mode = .error ∧ t.err = e ∧ t.errMode = s.mode ∧ t.errInfo = info ∧ t.cpl = false

/-- A command raises an error and does nothing else. -/
def raisesOnly (i : Instr) (s : State) (e : ErrCode) (info : Word) : Prop :=
  ∃ t, exec i s = .next t ∧ errorEntered e info s t ∧ frame errorFields s t

/-- A command presented outside its legal modes, and not in ERROR mode, raises `SEQUENCE` with its word and does nothing
else (30_encoding.md R86). -/
def sequenceOutside (i : Instr) (legal : List Mode) : Prop :=
  ∀ s, s.mode ∉ legal → s.mode ≠ .error → raisesOnly i s .sequence (encode i)

/-- A command in one of the given modes never raises `SEQUENCE` (30_encoding.md R86). -/
def runsIn (i : Instr) (legal : List Mode) : Prop :=
  ∀ s t, s.mode ∈ legal → exec i s = .next t → t.mode = .error → t.err ≠ .sequence

/-- A row of the table of 30_encoding.md R86: outside ERROR mode a command runs in the given modes and raises `SEQUENCE`
in the others. -/
def legalExactlyIn (i : Instr) (legal : List Mode) : Prop := runsIn i legal ∧ sequenceOutside i legal

/-- A word that, accepted outside ERROR mode, raises `ILLEGAL_CMD` with itself and does nothing else (30_encoding.md
R89). -/
def raisesIllegal (w : Word) : Prop :=
  ∀ s, s.mode ≠ .error → ∃ t, accept w s = .next t ∧ errorEntered .illegalCmd w s t ∧ frame errorFields s t

/-- The parts of the state a command may write, error entry included: the column "written by" of 10_state.md R20. -/
def mayWrite : Instr → List Field
  | .nop => []
  | .abort => errorFields ++ [.acc, .accN, .upRemain, .cur, .midcode]
  | .clearTables => errorFields ++ [.treeValid, .codeTable, .arena, .root]
  | .ctClr _ => errorFields ++ [.codeTable]
  | .ctAppend _ _ => errorFields ++ [.codeTable]
  | .trBuild => errorFields ++ [.treeValid, .arena, .root]
  | .trLeaf _ _ => errorFields ++ [.arena]
  | .trInner _ _ _ => errorFields ++ [.arena]
  | .trRoot _ => errorFields ++ [.treeValid, .root]
  | .pkStart => errorFields ++ [.acc, .accN, .pkBitCnt, .symCnt]
  | .pkSym _ => errorFields ++ [.acc, .accN, .pkBitCnt, .symCnt, .outq]
  | .pkFlush => errorFields ++ [.acc, .accN, .outq]
  | .upLenLo _ => errorFields ++ [.upBitLen]
  | .upLenHi _ => errorFields ++ [.upBitLen]
  | .upStart => errorFields ++ [.symCnt, .upRemain, .cur, .midcode]
  | .upByte _ => errorFields ++ [.symCnt, .upRemain, .cur, .midcode, .outq]
  | .upEnd => errorFields

/-- The most bytes one command emits (30_encoding.md R88). -/
def mayEmit : Instr → Nat
  | .pkSym _ => 32
  | .upByte _ => 8
  | .pkFlush => 1
  | _ => 0

/-! ### The invariant -/

/-- The code table in canonical form, every code of 1 to 255 bits (10_state.md R24, R25). -/
def codeTableWf (s : State) : Prop :=
  Memory.wf nsym s.ct ∧ ∀ e ∈ s.ct, 1 ≤ e.2.length ∧ e.2.length ≤ maxLen

/-- Where an unpack session can stand (44_unpack.md R167; 10_state.md R33): the root and `CUR` name nodes, `CUR` is a
LEAF only at the root and is the root at a code boundary, bits remain, and no more symbols than bits are counted. -/
structure WalkInv (s : State) : Prop where
  tree     : s.treeValid = true
  rootNode : nodeAt s s.root ≠ none
  curNode  : nodeAt s s.cur ≠ none
  curLeaf  : ∀ a, nodeAt s s.cur = some (.leaf a) → s.cur = s.root
  boundary : s.midcode = false → s.cur = s.root
  bitsLeft : 0 < s.upRemain.toNat
  inLength : s.upRemain.toNat ≤ s.upBitLen.toNat
  counted  : s.symCnt.toNat ≤ s.upBitLen.toNat - s.upRemain.toNat

/-- Where a pack session can stand (10_state.md R32; 43_pack.md R144): `ACC_N` = `PK_BITCNT` mod 8, no more symbols than
bits, and no bits only with no symbol. -/
structure PackInv (s : State) : Prop where
  partialBits : s.accN.toNat = s.pkBitCnt.toNat % 8
  counted     : s.symCnt.toNat ≤ s.pkBitCnt.toNat
  empty       : s.symCnt = 0 → s.pkBitCnt = 0

/-- What every step keeps. -/
structure Inv (s : State) : Prop where
  codeTable : codeTableWf s
  arena     : Memory.wf nnode s.arena
  rootIdx   : s.root ≠ nilIdx
  curIdx    : s.cur ≠ nilIdx
  /-- 20_memory.md R63: the queue never holds more than `OUT_DEPTH` bytes. -/
  queue     : s.outq.length ≤ s.cfg.outDepth
  /-- 60_exceptions.md R195, R198: an error is recorded exactly in ERROR mode. -/
  errorMode : s.mode = .error ↔ s.err ≠ .none
  /-- R195: the recorded mode is never ERROR. -/
  recorded  : s.errMode ≠ .error
  noRecord  : s.err = .none → s.errMode = .idle ∧ s.errInfo = 0
  /-- 10_state.md R39: `CPL` is 1 only between sessions. -/
  completed : s.cpl = true → s.mode = .idle
  /-- 10_state.md R32: the places of `ACC` not yet filled are zero. -/
  accZeros  : s.acc.toNat % 2 ^ (8 - s.accN.toNat) = 0
  /-- No partial byte outside a pack session or its error. -/
  accIdle   : s.mode = .idle ∨ s.mode = .unpack → s.accN = 0
  /-- No walk in progress outside an unpack session or its error. -/
  walkIdle  : s.mode = .idle ∨ s.mode = .pack → s.upRemain = 0 ∧ s.midcode = false
  packing   : s.mode = .pack → PackInv s
  walking   : s.mode = .unpack → WalkInv s

/-! ### Command sequences and sessions -/

/-- The commands executed one after another; the hold and the host's other steps are left to `step`. -/
def execAll (is : List Instr) (s : State) : Result :=
  match is with
  | [] => .next s
  | i :: rest =>
    match exec i s with
    | .next t => execAll rest t
    | .fault f => .fault f
    | .refused r => .refused r

/-- Words accepted one after another. -/
def acceptAll (ws : List Word) (s : State) : Result :=
  match ws with
  | [] => .next s
  | w :: rest =>
    match accept w s with
    | .next t => acceptAll rest t
    | .fault f => .fault f
    | .refused r => .refused r

/-- The word of `PK_START` or of `UP_START`, accepted in IDLE and executed with no error: the start of a session (00_scope.md
R14). -/
def startsSession (w : Word) (s t : State) : Prop :=
  (w = 0x80000000#32 ∨ w = 0xC0000000#32) ∧ s.mode = .idle ∧ t.mode ≠ .error

/-- Whether an accepted word opened a session: a `PK_START` or `UP_START` that executed (00_scope.md R14). -/
def opensSession (w : Word) (s t : State) : Bool :=
  s.mode == .idle && t.mode != .error && match decode w with
    | .ok .pkStart => true
    | .ok .upStart => true
    | _ => false

/-- The bytes a run of accepted words emits, split by session (70_reset_and_hazards.md R229): first those of the session
open at the start, then one list for each session opened. -/
def sessions (ws : List Word) (s : State) : List (List Byte) :=
  match ws with
  | [] => [[]]
  | w :: rest =>
    match accept w s with
    | .next t =>
      match sessions rest t with
      | [] => []
      | now :: later =>
        if opensSession w s t then [] :: (t.outq.drop s.outq.length ++ now) :: later
        else (t.outq.drop s.outq.length ++ now) :: later
    | _ => [[]]

/-- The bits of bytes, most significant first (20_memory.md R65). -/
def bytesBits (bytes : List Byte) : Bits := bytes.flatMap byteBits

/-- The bits packed and not yet emitted (10_state.md R32). -/
def heldBits (s : State) : Bits := (byteBits s.acc).take s.accN.toNat

/-- The message of a sequence of symbols: their codes joined (43_pack.md R146). -/
def message (s : State) (syms : List Byte) : Bits := syms.flatMap (codeOf s)

/-! ### Code tables and trees -/

/-- `E`, the symbols with an entry, in ascending order (10_state.md R25). -/
def entries (s : State) : List Byte :=
  ((List.range nsym).map (BitVec.ofNat 8)).filter fun a => ctLen s a != 0

/-- `ValidTable()` as 42_tree.md R121 writes it, over the symbols with an entry. -/
def tableVerdict (s : State) : Option Malformed :=
  if (entries s).length = 0 then some .empty
  else if (entries s).length = 1 then
    if ∀ a ∈ entries s, codeOf s a = [false] then none else some .singleNotZero
  else if ∃ a ∈ entries s, ∃ b ∈ entries s, a ≠ b ∧ codeOf s a <+: codeOf s b then some .notPrefixFree
  else if ((entries s).map fun a => 2 ^ (255 - ctLen s a)).sum ≠ 2 ^ 255 then some .incomplete
  else none

/-- The index a walk from `i` along bits stands at, through INNER nodes only (42_tree.md R124). -/
def walkTo (arena : List (Nat × Node)) (i : NodeIdx) (bits : Bits) : Option NodeIdx :=
  match bits with
  | [] => some i
  | b :: rest =>
    match nodeIn arena i with
    | some (.inner l r) => walkTo arena (childIdx b l r) rest
    | _ => none

/-- The node such a walk reaches. -/
def reached (arena : List (Nat × Node)) (i : NodeIdx) (bits : Bits) : Option Node :=
  (walkTo arena i bits).bind (nodeIn arena)

/-- The symbols of a walk along bits that meets no error, the index it ends at and whether that is inside a code, from
`cur` and a like flag (44_unpack.md R165, R167). -/
def decodeRun (arena : List (Nat × Node)) (root cur : NodeIdx) (mid : Bool) (bits : Bits) :
    Option (List Byte × NodeIdx × Bool) :=
  match bits with
  | [] => some ([], cur, mid)
  | b :: rest =>
    match nodeIn arena cur with
    | none => none
    | some (.leaf a) =>
      if b then none else (decodeRun arena root cur mid rest).map fun p => (a :: p.1, p.2)
    | some (.inner l r) =>
      match nodeIn arena (if b then r else l) with
      | none => none
      | some (.leaf a) => (decodeRun arena root root false rest).map fun p => (a :: p.1, p.2)
      | some (.inner _ _) => decodeRun arena root (if b then r else l) true rest

/-- The tree decodes a code to a symbol: the walk of the code reaches the symbol's LEAF, or the root is that LEAF and the
code is the 1-bit code `0` (42_tree.md R124; 44_unpack.md R165). -/
def decodesTo (arena : List (Nat × Node)) (root : NodeIdx) (code : Bits) (a : Byte) : Prop :=
  (code = [false] ∧ nodeIn arena root = some (.leaf a)) ∨
  (code ≠ [] ∧ reached arena root code = some (.leaf a))

end Sys2Proof.Machine
end

