-- ==== Sys2Proof/Certificates/Slice0/Obligations.lean ====
section
/-! DEFINITION. What is to be proved of the model, from the numbered rules of spec/. -/

open Sys2Proof Sys2Proof.Machine

/-! ## Encoding -/

/-- Every well-formed command's word decodes to it (30_encoding.md R84, R85, R92). -/
def Obligations.DecodeOfEncodeIsInstruction : Prop :=
  ∀ i : Instr, i.wf = true → decode (encode i) = .ok i

/-- A legal word is the word of the one command it decodes to, so no bit of it is dropped (R85, R90). -/
def Obligations.EncodeOfDecodeIsWord : Prop :=
  ∀ (w : Word) (i : Instr), decode w = .ok i → i.wf = true ∧ encode i = w

/-- R89: exactly the listed words are illegal, and one accepted outside ERROR mode raises `ILLEGAL_CMD` with the word and
does nothing else. -/
def Obligations.IllegalWordsAreExactlyThose : Prop :=
  ∀ w : Word,
    ((∃ r, decode w = .error r) ↔
      (w.extractLsb' 28 4 = 0xF#4 ∨
       ((w.extractLsb' 28 4).toNat ∈ [0x0, 0x1, 0x2, 0x5, 0x8, 0xA, 0xC, 0xE] ∧ w.extractLsb' 0 28 ≠ 0#28) ∨
       ((w.extractLsb' 28 4).toNat ∈ [0x3, 0x9, 0xD] ∧ (w.extractLsb' 24 4 ≠ 0#4 ∨ w.extractLsb' 0 16 ≠ 0#16)) ∨
       (w.extractLsb' 28 4 = 0x4#4 ∧ ∃ k, k + (w.extractLsb' 24 4).toNat + 1 ≤ 15 ∧ w.getLsbD k = true) ∨
       (w.extractLsb' 28 4 = 0x6#4 ∧
         (w.extractLsb' 18 9 = 0x1FF#9 ∨ (w.getLsbD 27 = false ∧ w.extractLsb' 8 10 ≠ 0#10))) ∨
       (w.extractLsb' 28 4 = 0x7#4 ∧ (w.extractLsb' 9 19 ≠ 0#19 ∨ w.extractLsb' 0 9 = 0x1FF#9)) ∨
       (w.extractLsb' 28 4 = 0xB#4 ∧ (1 < (w.extractLsb' 24 4).toNat ∨ w.extractLsb' 16 8 ≠ 0#8)))) ∧
    ((∃ r, decode w = .error r) → raisesIllegal w)

/-- R85: no two rows of the opcode map match one word, and a legal word matches the row of its command. -/
def Obligations.EveryLegalWordHasOneRow : Prop :=
  ∀ w : Word,
    (∀ r ∈ opcodeMap, ∀ q ∈ opcodeMap, r.fits w = true → q.fits w = true → r = q) ∧
    ∀ i, decode w = .ok i → i.row ∈ opcodeMap ∧ i.row.fits w = true

/-- Words written out in 95_test_vectors.md L2.1 decode to the commands they stand for, one of each family. -/
def Obligations.SpecWordsDecode : Prop :=
  decode 0x10000000#32 = .ok .abort ∧
  decode 0x4202C000#32 = .ok (.ctAppend 2 [true, true, false]) ∧
  decode 0x68000401#32 = .ok (.trInner 0 2 1) ∧
  decode 0x60040041#32 = .ok (.trLeaf 1 0x41) ∧
  decode 0x90410000#32 = .ok (.pkSym 0x41) ∧
  decode 0xB1001234#32 = .ok (.upLenHi 0x1234) ∧
  decode 0xD0FF0000#32 = .ok (.upByte 0xFF)

/-! ## Dispatch, hold, errors -/

/-- A step that offers the presented word, when it is not held and decodes to a command, is that command's execution, the
word gone from the stream and the turn taken (30_encoding.md R87; the stream and the turns are the model's own, log 2). -/
def Obligations.StepRunsDecodedCommand : Prop :=
  ∀ (s : State) (w : Word) (ws : List Word) (i : Instr),
    s.env.turns = [] ∨ s.env.turns.head? = some .offer →
    s.env.cmds = w :: ws → held w s = false → decode w = .ok i →
    step s = exec i { s with env := { s.env with cmds := ws, turns := s.env.turns.tail } }

/-- R88, R61: a presented word is held exactly when its `OP` field and the queue's length say so, with `cmd_ready` = 0; a
held word changes nothing of the block and stays presented; any other word is accepted, with `cmd_ready` = 1, and leaves the
stream; an empty queue holds no word. That the step of a held word answers a next state in which only the turn is taken,
where R227 says that the block has no step, is the model's (log 4, DEDUCED, on the turns of log 2). -/
def Obligations.HoldReadsOpcodeAndQueueOnly : Prop :=
  ∀ (s : State) (w : Word) (ws : List Word),
    s.env.turns = [] ∨ s.env.turns.head? = some .offer →
    s.env.cmds = w :: ws →
    ((w.extractLsb' 28 4 = 0x9#4 ∧ s.outq.length > s.cfg.outDepth - 32 ∨
      w.extractLsb' 28 4 = 0xD#4 ∧ s.outq.length > s.cfg.outDepth - 8 ∨
      w.extractLsb' 28 4 = 0xA#4 ∧ s.outq.length > s.cfg.outDepth - 1) →
      cmdReady s = false ∧ s.outq ≠ [] ∧ step s = .next { s with env := { s.env with turns := s.env.turns.tail } }) ∧
    (¬ (w.extractLsb' 28 4 = 0x9#4 ∧ s.outq.length > s.cfg.outDepth - 32 ∨
        w.extractLsb' 28 4 = 0xD#4 ∧ s.outq.length > s.cfg.outDepth - 8 ∨
        w.extractLsb' 28 4 = 0xA#4 ∧ s.outq.length > s.cfg.outDepth - 1) →
      cmdReady s = true ∧
      step s = accept w { s with env := { s.env with cmds := ws, turns := s.env.turns.tail } })

/-- R87: what the block does with an accepted word, in the order of the checks. -/
def Obligations.AcceptedWordIsCheckedInOrder : Prop :=
  ∀ (w : Word) (s : State),
    (s.mode = .error → w = 0x00000000#32 → accept w s = .next s) ∧
    (s.mode = .error → w = 0x10000000#32 → accept w s = exec .abort s) ∧
    (s.mode = .error → w ≠ 0x00000000#32 → w ≠ 0x10000000#32 → accept w s = .next s) ∧
    (s.mode ≠ .error → ∀ r, decode w = .error r →
      ∃ t, accept w s = .next t ∧ errorEntered .illegalCmd w s t ∧ frame errorFields s t) ∧
    (s.mode ≠ .error → ∀ i, decode w = .ok i → s.mode ∉ legalModes i →
      ∃ t, accept w s = .next t ∧ errorEntered .sequence w s t ∧ frame errorFields s t) ∧
    (s.mode ≠ .error → ∀ i, decode w = .ok i → s.mode ∈ legalModes i → accept w s = exec i s)

/-- R86: the modes each command is legal in; elsewhere, outside ERROR mode, it raises `SEQUENCE` with its word and does
nothing else, in a legal mode it never does, and in ERROR mode every word but those of `NOP` and `ABORT` is dropped. -/
def Obligations.WrongModeRaisesSequence : Prop :=
  (∀ i ∈ [Instr.nop, .abort], runsIn i [.idle, .pack, .unpack]) ∧
  (∀ i ∈ [Instr.clearTables, .trBuild, .pkStart, .upStart], legalExactlyIn i [.idle]) ∧
  (∀ a, legalExactlyIn (.ctClr a) [.idle]) ∧ (∀ a bits, legalExactlyIn (.ctAppend a bits) [.idle]) ∧
  (∀ x a, legalExactlyIn (.trLeaf x a) [.idle]) ∧ (∀ x l r, legalExactlyIn (.trInner x l r) [.idle]) ∧
  (∀ x, legalExactlyIn (.trRoot x) [.idle]) ∧
  (∀ h, legalExactlyIn (.upLenLo h) [.idle]) ∧ (∀ h, legalExactlyIn (.upLenHi h) [.idle]) ∧
  (∀ a, legalExactlyIn (.pkSym a) [.pack]) ∧ legalExactlyIn .pkFlush [.pack] ∧
  (∀ b, legalExactlyIn (.upByte b) [.unpack]) ∧ legalExactlyIn .upEnd [.idle, .unpack] ∧
  ∀ (w : Word) (s : State), s.mode = .error → w ≠ 0x00000000#32 → w ≠ 0x10000000#32 → accept w s = .next s

/-- R197: in ERROR mode a presented word that is not held is accepted and leaves the stream; `NOP` has no effect, `ABORT`
executes, and every other word, legal or not, is dropped with no effect. -/
def Obligations.ErrorModeDropsEveryOtherWord : Prop :=
  ∀ (s : State) (w : Word) (ws : List Word), s.mode = .error →
    s.env.turns = [] ∨ s.env.turns.head? = some .offer → s.env.cmds = w :: ws → held w s = false →
    let taken := { s with env := { s.env with cmds := ws, turns := s.env.turns.tail } }
    (w = 0x10000000#32 → step s = exec .abort taken) ∧ (w ≠ 0x10000000#32 → step s = .next taken)

/-- R198: from ERROR mode `ABORT` returns to IDLE with no error recorded and no session, the tables and the installed tree
as they were; no other word leaves ERROR mode or raises a second error. -/
def Obligations.OnlyAbortLeavesErrorMode : Prop :=
  ∀ s : State, s.mode = .error →
    (∃ t, accept 0x10000000#32 s = .next t ∧ t.mode = .idle ∧ t.err = .none ∧ t.errMode = .idle ∧ t.errInfo = 0 ∧
      t.acc = 0 ∧ t.accN = 0 ∧ t.upRemain = 0 ∧ t.cur = s.root ∧ t.midcode = false ∧
      t.ct = s.ct ∧ t.arena = s.arena ∧ t.root = s.root ∧ t.treeValid = s.treeValid) ∧
    ∀ (w : Word) (t : State), w ≠ 0x10000000#32 → accept w s = .next t →
      t.mode = .error ∧ t.err = s.err ∧ t.errMode = s.errMode ∧ t.errInfo = s.errInfo

/-- R191, with the codes of R190 and the mode of R195: a word that enters ERROR mode records the mode it was accepted in,
clears `CPL`, and records a code that its command can raise with the info of that code. -/
def Obligations.ErrorEntryRecordsCodeAndInfo : Prop :=
  ∀ (w : Word) (s t : State), s.mode ≠ .error → accept w s = .next t → t.mode = .error →
    t.errMode = s.mode ∧ t.cpl = false ∧
    ((∃ r, decode w = .error r) ∧ t.err = .illegalCmd ∧ t.errInfo = w ∨
     ∃ i, decode w = .ok i ∧
      (t.err = .emptyInput ∧ i = .pkFlush ∧ t.errInfo = 0 ∨
       t.err = .unknownSymbol ∧ (∃ a : Byte, i = .pkSym a ∧ t.errInfo = a.setWidth 32) ∨
       t.err = .truncated ∧ ((∃ b, i = .upByte b) ∧ t.errInfo = t.upBitLen ∧ t.upRemain = 0 ∨
         i = .upEnd ∧ t.errInfo = t.upBitLen - t.upRemain) ∨
       t.err = .malformedTable ∧
         (i = .trBuild ∧ t.errInfo ∈ [1#32, 2#32, 3#32, 4#32] ∨ i = .upStart ∧ t.errInfo ∈ [5#32, 6#32] ∨
          (∃ b, i = .upByte b) ∧ t.errInfo = 7#32) ∨
       t.err = .invalidCode ∧ (∃ b, i = .upByte b) ∧ t.errInfo = t.upBitLen - t.upRemain ∨
       t.err = .sequence ∧ s.mode ∉ legalModes i ∧ t.errInfo = w ∨
       t.err = .overflow ∧ ((∃ a bits, i = .ctAppend a bits) ∨ ∃ a, i = .pkSym a) ∧ t.errInfo = w))

/-! ## Control commands -/

/-- R100: `NOP` changes nothing, in every mode; another word with `OP` = 0 raises `ILLEGAL_CMD`, or is dropped in ERROR
mode. -/
def Obligations.NopHasNoEffect : Prop :=
  encode .nop = 0x00000000#32 ∧ (∀ s, exec .nop s = .next s) ∧
  ∀ (w : Word) (s : State), w.extractLsb' 28 4 = 0x0#4 → w ≠ 0 →
    (s.mode = .error → accept w s = .next s) ∧
    raisesIllegal w

/-- R101: `ABORT` ends any session and clears any error, in every mode; the tables, the tree, the counters of the last
session and the queue stay. -/
def Obligations.AbortEndsSessionAndClearsError : Prop :=
  encode .abort = 0x10000000#32 ∧
  ∀ s : State, ∃ t, exec .abort s = .next t ∧
    t.mode = .idle ∧ t.err = .none ∧ t.errMode = .idle ∧ t.errInfo = 0 ∧ t.cpl = false ∧
    t.acc = 0 ∧ t.accN = 0 ∧ t.upRemain = 0 ∧ t.cur = s.root ∧ t.midcode = false ∧
    frame [.mode, .err, .errMode, .errInfo, .cpl, .acc, .accN, .upRemain, .cur, .midcode] s t

/-- R102: in IDLE `CLEAR_TABLES` leaves no code, no node, `ROOT` = 0 and no tree installed, as reset does, and changes
nothing else; in PACK and UNPACK it raises `SEQUENCE`. -/
def Obligations.ClearTablesEmptiesBothTables : Prop :=
  encode .clearTables = 0x20000000#32 ∧ sequenceOutside .clearTables [.idle] ∧
  ∀ s : State, s.mode = .idle → ∃ t, exec .clearTables s = .next t ∧
    (∀ a, ctLen t a = 0) ∧ (∀ i, nodeAt t i = none) ∧ t.root = 0 ∧ t.treeValid = false ∧
    t.ct = State.reset.ct ∧ t.arena = State.reset.arena ∧
    frame [.codeTable, .arena, .root, .treeValid] s t

/-! ## Code-table commands -/

/-- R110: in IDLE `CT_CLR s` removes the entry of `s` and changes nothing else, no other symbol's code included; in PACK
and UNPACK it raises `SEQUENCE`. -/
def Obligations.CtClrRemovesOneEntry : Prop :=
  (∀ a : Byte, encode (.ctClr a) = 0x30000000#32 ||| (a.setWidth 32 <<< 16)) ∧
  (∀ a : Byte, sequenceOutside (.ctClr a) [.idle]) ∧
  ∀ (a : Byte) (s : State), s.mode = .idle → ∃ t, exec (.ctClr a) s = .next t ∧
    ctLen t a = 0 ∧ (∀ b, b ≠ a → codeOf t b = codeOf s b) ∧ frame [.codeTable] s t

/-- R111: in IDLE `CT_APPEND s` appends its bits to the code of `s`, an absent entry starting a new code, and changes
nothing else; past 255 bits it raises `OVERFLOW` with its word and writes nothing; in PACK and UNPACK it raises
`SEQUENCE`; its word is illegal when a bit below its bits is set. -/
def Obligations.CtAppendExtendsOneCode : Prop :=
  (∀ (a : Byte) (bits : Bits), 1 ≤ bits.length → bits.length ≤ 16 →
    encode (.ctAppend a bits) = 0x40000000#32 ||| (BitVec.ofNat 32 (bits.length - 1) <<< 24) |||
      (a.setWidth 32 <<< 16) ||| (BitVec.ofNat 32 (bitsToNat bits) <<< (16 - bits.length)) ∧
    ∀ j, j < bits.length → (encode (.ctAppend a bits)).getLsbD (15 - j) = bits.getD j false) ∧
  (∀ w : Word, w.extractLsb' 28 4 = 0x4#4 →
    (∃ k, k + (w.extractLsb' 24 4).toNat + 1 ≤ 15 ∧ w.getLsbD k = true) → raisesIllegal w) ∧
  (∀ (a : Byte) (bits : Bits), sequenceOutside (.ctAppend a bits) [.idle]) ∧
  ∀ (a : Byte) (bits : Bits) (s : State), s.mode = .idle →
    (ctLen s a + bits.length ≤ 255 → ∃ t, exec (.ctAppend a bits) s = .next t ∧
      codeOf t a = codeOf s a ++ bits ∧ ctLen t a = ctLen s a + bits.length ∧
      (∀ b, b ≠ a → codeOf t b = codeOf s b) ∧ frame [.codeTable] s t) ∧
    (255 < ctLen s a + bits.length → raisesOnly (.ctAppend a bits) s .overflow (encode (.ctAppend a bits)))

/-! ## Code-tree commands -/

/-- R121, R122: in IDLE, over a code table in canonical form, `TR_BUILD` clears the arena, then either raises
`MALFORMED_TABLE` with the first reason of `ValidTable` that applies, or installs a tree at `ROOT` = 0; it changes nothing
else. In PACK and UNPACK it raises `SEQUENCE`. -/
def Obligations.TrBuildFollowsTableVerdict : Prop :=
  encode .trBuild = 0x50000000#32 ∧ sequenceOutside .trBuild [.idle] ∧
  ∀ s : State, s.mode = .idle → codeTableWf s →
    match tableVerdict s with
    | some r => ∃ t, exec .trBuild s = .next t ∧ errorEntered .malformedTable r.reason s t ∧
        (∀ i, nodeAt t i = none) ∧ t.root = 0 ∧ t.treeValid = false ∧
        frame (errorFields ++ [.arena, .root, .treeValid]) s t
    | none => ∃ t, exec .trBuild s = .next t ∧ t.root = 0 ∧ t.treeValid = true ∧ nodeAt t 0 ≠ none ∧
        frame [.arena, .root, .treeValid] s t

/-- R124: the tree built from a valid table decodes every code of the table to its own symbol, and no proper prefix of a
code reaches a LEAF when the table has two entries or more. -/
def Obligations.BuiltTreeDecodesEveryCode : Prop :=
  ∀ s : State, s.mode = .idle → codeTableWf s → tableVerdict s = none →
    ∃ t, exec .trBuild s = .next t ∧
      (∀ a ∈ entries s, decodesTo t.arena t.root (codeOf s a) a) ∧
      (2 ≤ (entries s).length → ∀ a ∈ entries s,
        reached t.arena t.root (codeOf s a) = some (.leaf a) ∧
        ∀ p, p <+: codeOf s a → p ≠ codeOf s a → ∀ b, reached t.arena t.root p ≠ some (.leaf b))

/-- R124: the tree built from a valid table of `m` entries has exactly `2m - 1` nodes, at the indices below `2m - 1`:
`m` LEAF nodes holding exactly the symbols of the table and `m - 1` INNER nodes, each with two non-dangling children. The
indices are those of R123's numbering, which 93_implementation_defined.md U3 leaves open (log 10). -/
def Obligations.BuiltTreeIsFull : Prop :=
  ∀ s : State, s.mode = .idle → codeTableWf s → tableVerdict s = none →
    ∃ t, exec .trBuild s = .next t ∧
      (∀ i : NodeIdx, nodeAt t i ≠ none ↔ i.toNat < 2 * (entries s).length - 1) ∧
      (∀ a, a ∈ entries s ↔ ∃ i, nodeAt t i = some (.leaf a)) ∧
      (t.arena.filter fun e => match e.2 with | .leaf _ => true | .inner _ _ => false).length = (entries s).length ∧
      ∀ i l r, nodeAt t i = some (.inner l r) → nodeAt t l ≠ none ∧ nodeAt t r ≠ none

/-- R131: in IDLE `TR_LEAF` writes one LEAF node and changes nothing else; in PACK and UNPACK it raises `SEQUENCE`; its
word is illegal with the index `NIL` or a bit of [17:8] set. -/
def Obligations.TrLeafWritesOneNode : Prop :=
  (∀ (x : NodeIdx) (a : Byte),
    encode (.trLeaf x a) = 0x60000000#32 ||| (x.setWidth 32 <<< 18) ||| a.setWidth 32) ∧
  (∀ w : Word, w.extractLsb' 27 5 = 0xC#5 → w.extractLsb' 18 9 = 0x1FF#9 ∨ w.extractLsb' 8 10 ≠ 0#10 →
    raisesIllegal w) ∧
  (∀ (x : NodeIdx) (a : Byte), sequenceOutside (.trLeaf x a) [.idle]) ∧
  ∀ (x : NodeIdx) (a : Byte) (s : State), x ≠ 0x1FF#9 → s.mode = .idle →
    ∃ t, exec (.trLeaf x a) s = .next t ∧
      nodeAt t x = some (.leaf a) ∧ (∀ j, j ≠ x → nodeAt t j = nodeAt s j) ∧ frame [.arena] s t

/-- R132: in IDLE `TR_INNER` writes one INNER node, whatever its children name, and changes nothing else; in PACK and
UNPACK it raises `SEQUENCE`; its word is illegal with the index `NIL`. -/
def Obligations.TrInnerWritesOneNode : Prop :=
  (∀ x l r : NodeIdx,
    encode (.trInner x l r) =
      0x68000000#32 ||| (x.setWidth 32 <<< 18) ||| (l.setWidth 32 <<< 9) ||| r.setWidth 32) ∧
  (∀ w : Word, w.extractLsb' 27 5 = 0xD#5 → w.extractLsb' 18 9 = 0x1FF#9 → raisesIllegal w) ∧
  (∀ x l r : NodeIdx, sequenceOutside (.trInner x l r) [.idle]) ∧
  ∀ (x l r : NodeIdx) (s : State), x ≠ 0x1FF#9 → s.mode = .idle →
    ∃ t, exec (.trInner x l r) s = .next t ∧
      nodeAt t x = some (.inner l r) ∧ (∀ j, j ≠ x → nodeAt t j = nodeAt s j) ∧ frame [.arena] s t

/-- R133: in IDLE `TR_ROOT` names the root and marks a tree installed, with no check of the tree, and changes nothing
else; in PACK and UNPACK it raises `SEQUENCE`; its word is illegal with the index `NIL` or a bit of [27:9] set. -/
def Obligations.TrRootInstallsTree : Prop :=
  (∀ x : NodeIdx, encode (.trRoot x) = 0x70000000#32 ||| x.setWidth 32) ∧
  (∀ w : Word, w.extractLsb' 28 4 = 0x7#4 → w.extractLsb' 9 19 ≠ 0#19 ∨ w.extractLsb' 0 9 = 0x1FF#9 →
    raisesIllegal w) ∧
  (∀ x : NodeIdx, sequenceOutside (.trRoot x) [.idle]) ∧
  ∀ (x : NodeIdx) (s : State), s.mode = .idle → ∃ t, exec (.trRoot x) s = .next t ∧
    t.root = x ∧ t.treeValid = true ∧ frame [.root, .treeValid] s t

/-! ## Pack commands -/

/-- R141: in IDLE `PK_START` opens a pack session with an empty bit buffer and zero counters; elsewhere it raises
`SEQUENCE`. -/
def Obligations.PkStartOpensPackSession : Prop :=
  encode .pkStart = 0x80000000#32 ∧ sequenceOutside .pkStart [.idle] ∧
  ∀ s : State, s.mode = .idle → ∃ t, exec .pkStart s = .next t ∧
    t.mode = .pack ∧ t.acc = 0 ∧ t.accN = 0 ∧ t.pkBitCnt = 0 ∧ t.symCnt = 0 ∧ t.cpl = false ∧
    frame [.mode, .acc, .accN, .pkBitCnt, .symCnt, .cpl] s t

/-- R142: `AppendBit(b)` places the bit at the next position of the partial byte, most significant first, and emits the
byte when it is full. -/
def Obligations.AppendBitFillsByteFromTop : Prop :=
  ∀ (b : Bool) (s : State),
    (s.accN = 7 → ∃ e : Byte, (appendBit b s).outq = s.outq ++ [e] ∧ e.getLsbD 0 = b ∧
      (∀ k, 1 ≤ k → k < 8 → e.getLsbD k = s.acc.getLsbD k) ∧
      (appendBit b s).acc = 0 ∧ (appendBit b s).accN = 0 ∧ frame [.outq, .acc, .accN] s (appendBit b s)) ∧
    (s.accN ≠ 7 → (appendBit b s).accN.toNat = s.accN.toNat + 1 ∧
      (∀ k, k < 8 → (appendBit b s).acc.getLsbD k = if k = 7 - s.accN.toNat then b else s.acc.getLsbD k) ∧
      frame [.acc, .accN] s (appendBit b s))

/-- R143: in PACK, `PK_SYM s` with a code raises nothing and appends the code to the packed bits (emitted and held),
element 0 first, emitting the full bytes; with no code it raises `UNKNOWN_SYMBOL`, and past 2^32 - 1 bits `OVERFLOW`,
before any bit is appended; in IDLE and UNPACK it raises `SEQUENCE`. -/
def Obligations.PkSymAppendsCode : Prop :=
  (∀ a : Byte, encode (.pkSym a) = 0x90000000#32 ||| (a.setWidth 32 <<< 16)) ∧
  (∀ a : Byte, sequenceOutside (.pkSym a) [.pack]) ∧
  ∀ (a : Byte) (s : State), s.mode = .pack →
    (ctLen s a = 0 → raisesOnly (.pkSym a) s .unknownSymbol (a.setWidth 32)) ∧
    (ctLen s a ≠ 0 → s.pkBitCnt.toNat + ctLen s a > 2 ^ 32 - 1 →
      raisesOnly (.pkSym a) s .overflow (encode (.pkSym a))) ∧
    (ctLen s a ≠ 0 → s.pkBitCnt.toNat + ctLen s a ≤ 2 ^ 32 - 1 → ∃ t bytes, exec (.pkSym a) s = .next t ∧
      t.outq = s.outq ++ bytes ∧ bytes.length = (s.accN.toNat + ctLen s a) / 8 ∧
      t.accN.toNat = (s.accN.toNat + ctLen s a) % 8 ∧
      bytesBits bytes ++ heldBits t = heldBits s ++ codeOf s a ∧
      t.pkBitCnt.toNat = s.pkBitCnt.toNat + ctLen s a ∧ t.symCnt = s.symCnt + 1 ∧
      frame [.outq, .acc, .accN, .pkBitCnt, .symCnt] s t)

/-- R145, R147: in PACK, `PK_FLUSH` of a session that packed bits emits the partial byte, if any, and closes the session
with `CPL` = 1, the counters kept; of a session that packed none it raises `EMPTY_INPUT` with info 0; elsewhere it raises
`SEQUENCE`. -/
def Obligations.PkFlushPadsAndCloses : Prop :=
  encode .pkFlush = 0xA0000000#32 ∧ sequenceOutside .pkFlush [.pack] ∧
  ∀ s : State, s.mode = .pack →
    (s.pkBitCnt = 0 → raisesOnly .pkFlush s .emptyInput 0) ∧
    (s.pkBitCnt ≠ 0 → ∃ t, exec .pkFlush s = .next t ∧
      t.outq = s.outq ++ (if s.accN = 0 then [] else [s.acc]) ∧
      t.acc = 0 ∧ t.accN = 0 ∧ t.mode = .idle ∧ t.cpl = true ∧
      frame [.outq, .acc, .accN, .mode, .cpl] s t)

/-- R146: a pack session ends with `CPL` = 1 exactly when it has a symbol, every symbol has a code and the codes come to
at most 2^32 - 1 bits; it then has emitted exactly `ceil(N / 8)` bytes, the bits of the joined codes most significant first
and zeros after them, and leaves `PK_BITCNT` = N and `SYMCNT` = the number of symbols. R146 gives what such a session has
emitted; when a session ends so is read from R140, R141, R143, R145 and R147. The commands run one after another past the
hold (log 7, log 15). -/
def Obligations.PackSessionEmitsMessage : Prop :=
  ∀ (s : State) (syms : List Byte), s.mode = .idle →
    ∃ t, execAll (packProgram syms) s = .next t ∧
      (t.cpl = true ↔
        syms ≠ [] ∧ (∀ a ∈ syms, ctLen s a ≠ 0) ∧ (message s syms).length ≤ 2 ^ 32 - 1) ∧
      (t.cpl = true → t.mode = .idle ∧ ∃ bytes,
        t.outq = s.outq ++ bytes ∧ bytes.length = ((message s syms).length + 7) / 8 ∧
        (∀ j i, j < bytes.length → i < 8 →
          (bytes.getD j 0).getLsbD (7 - i) = (message s syms).getD (8 * j + i) false) ∧
        t.pkBitCnt.toNat = (message s syms).length ∧ t.symCnt.toNat = syms.length ∧
        frame [.mode, .cpl, .outq, .acc, .accN, .pkBitCnt, .symCnt] s t)

/-! ## Unpack commands -/

/-- R160, R161: in IDLE `UP_LENLO` and `UP_LENHI` write one half of `UP_BITLEN`, keep the other and change nothing else;
in PACK and UNPACK they raise `SEQUENCE`; their words are illegal with a bit of [23:16] set. -/
def Obligations.UpLenWritesOneHalf : Prop :=
  (∀ h : Half, encode (.upLenLo h) = 0xB0000000#32 ||| h.setWidth 32 ∧
    encode (.upLenHi h) = 0xB1000000#32 ||| h.setWidth 32 ∧
    sequenceOutside (.upLenLo h) [.idle] ∧ sequenceOutside (.upLenHi h) [.idle]) ∧
  (∀ w : Word, w.extractLsb' 25 7 = 0x58#7 → w.extractLsb' 16 8 ≠ 0#8 → raisesIllegal w) ∧
  ∀ (h : Half) (s : State), s.mode = .idle →
    (∃ t, exec (.upLenLo h) s = .next t ∧ t.upBitLen.extractLsb' 0 16 = h ∧
      t.upBitLen.extractLsb' 16 16 = s.upBitLen.extractLsb' 16 16 ∧ frame [.upBitLen] s t) ∧
    (∃ t, exec (.upLenHi h) s = .next t ∧ t.upBitLen.extractLsb' 16 16 = h ∧
      t.upBitLen.extractLsb' 0 16 = s.upBitLen.extractLsb' 0 16 ∧ frame [.upBitLen] s t)

/-- R164: in IDLE `UP_START` raises `MALFORMED_TABLE` with reason 5 when no tree is installed, else with reason 6 when the
root names no node; else it opens a session at the root with `UP_BITLEN` bits to consume, which completes at once when
that is 0. Elsewhere it raises `SEQUENCE`. -/
def Obligations.UpStartOpensUnpackSession : Prop :=
  encode .upStart = 0xC0000000#32 ∧ sequenceOutside .upStart [.idle] ∧
  ∀ s : State, s.mode = .idle →
    (s.treeValid = false → raisesOnly .upStart s .malformedTable 5) ∧
    (s.treeValid = true → nodeAt s s.root = none → raisesOnly .upStart s .malformedTable 6) ∧
    (s.treeValid = true → nodeAt s s.root ≠ none → ∃ t, exec .upStart s = .next t ∧
      t.upRemain = s.upBitLen ∧ t.cur = s.root ∧ t.midcode = false ∧ t.symCnt = 0 ∧
      (if s.upBitLen = 0 then t.mode = .idle ∧ t.cpl = true else t.mode = .unpack ∧ t.cpl = false) ∧
      frame [.mode, .cpl, .upRemain, .cur, .midcode, .symCnt] s t)

/-- R165, R166, R167: one walked bit consumes one bit; at a root LEAF it emits the symbol or raises `INVALID_CODE`; at an
INNER node it follows `LEFT` for 0 and `RIGHT` for 1, raises `MALFORMED_TABLE` reason 7 on a dangling child, emits a LEAF's
symbol and restarts at the root, or goes on mid-code; after an emission or a move, the last bit completes the session at a
code boundary and raises `TRUNCATED` inside a code. -/
def Obligations.WalkBitFollowsTree : Prop :=
  ∀ (b : Bool) (s : State) (n : Node), nodeAt s s.cur = some n →
    ∃ t, walkBit b s = .next t ∧ t.upRemain = s.upRemain - 1 ∧
      frame (errorFields ++ [.upRemain, .outq, .symCnt, .cur, .midcode]) s t ∧
      let stays := t.outq = s.outq ∧ t.symCnt = s.symCnt ∧ t.cur = s.cur ∧ t.midcode = s.midcode
      let ends := if t.upRemain ≠ 0 then frame [.upRemain, .outq, .symCnt, .cur, .midcode] s t
        else if t.midcode then errorEntered .truncated s.upBitLen s t
        else t.mode = .idle ∧ t.cpl = true ∧ frame [.mode, .cpl, .upRemain, .outq, .symCnt, .cur, .midcode] s t
      match n with
      | .leaf a =>
        if b then errorEntered .invalidCode (s.upBitLen - t.upRemain) s t ∧ stays
        else t.outq = s.outq ++ [a] ∧ t.symCnt = s.symCnt + 1 ∧ t.cur = s.cur ∧ t.midcode = s.midcode ∧ ends
      | .inner l r =>
        match nodeAt s (if b then r else l) with
        | none => errorEntered .malformedTable 7 s t ∧ stays
        | some (.leaf a) =>
          t.outq = s.outq ++ [a] ∧ t.symCnt = s.symCnt + 1 ∧ t.cur = s.root ∧ t.midcode = false ∧ ends
        | some (.inner _ _) =>
          t.outq = s.outq ∧ t.symCnt = s.symCnt ∧ t.cur = (if b then r else l) ∧ t.midcode = true ∧ ends

/-- R168: in UNPACK, where the root and `CUR` name nodes, `UP_BYTE` walks the byte's bits from bit 7 down until the session
completes or an error is raised, emitting at most 8 symbols; a session still open afterwards has consumed 8 bits. In IDLE
and PACK it raises `SEQUENCE`. -/
def Obligations.UpByteWalksFromBitSeven : Prop :=
  (∀ b : Byte, encode (.upByte b) = 0xD0000000#32 ||| (b.setWidth 32 <<< 16)) ∧
  (∀ b : Byte, sequenceOutside (.upByte b) [.unpack]) ∧
  ∀ (b : Byte) (s : State), s.mode = .unpack → nodeAt s s.root ≠ none → nodeAt s s.cur ≠ none →
    exec (.upByte b) s = walkBits [b.getLsbD 7, b.getLsbD 6, b.getLsbD 5, b.getLsbD 4,
      b.getLsbD 3, b.getLsbD 2, b.getLsbD 1, b.getLsbD 0] s ∧
    ∃ t syms, exec (.upByte b) s = .next t ∧ t.outq = s.outq ++ syms ∧ syms.length ≤ 8 ∧
      t.symCnt = s.symCnt + BitVec.ofNat 32 syms.length ∧
      (t.mode = .unpack ∧ t.upRemain = s.upRemain - 8 ∨
       t.mode = .idle ∧ t.cpl = true ∧ t.upRemain = 0 ∧ t.midcode = false ∨
       t.mode = .error ∧ t.errMode = .unpack ∧ t.err ∈ [.invalidCode, .malformedTable, .truncated]) ∧
      (t.mode ≠ .error → frame [.mode, .cpl, .upRemain, .cur, .midcode, .symCnt, .outq] s t) ∧
      frame (errorFields ++ [.upRemain, .cur, .midcode, .symCnt, .outq]) s t

/-- R167, R168, R166: in UNPACK, where the tree gives the bits of the byte still to consume a walk with no error, `UP_BYTE`
emits the symbols of that walk in order and stands where it ends; with more than 8 bits to consume the session stays open,
else it completes, or raises `TRUNCATED` if the walk ends inside a code. -/
def Obligations.UpByteEmitsDecodedSymbols : Prop :=
  ∀ (b : Byte) (s : State) (syms : List Byte) (c : NodeIdx) (mid : Bool),
    s.mode = .unpack → 0 < s.upRemain.toNat →
    decodeRun s.arena s.root s.cur s.midcode ((byteBits b).take s.upRemain.toNat) = some (syms, c, mid) →
    ∃ t, exec (.upByte b) s = .next t ∧ t.outq = s.outq ++ syms ∧
      t.symCnt = s.symCnt + BitVec.ofNat 32 syms.length ∧ t.cur = c ∧ t.midcode = mid ∧
      (8 < s.upRemain.toNat → t.upRemain = s.upRemain - 8 ∧
        frame [.outq, .symCnt, .cur, .midcode, .upRemain] s t) ∧
      (s.upRemain.toNat ≤ 8 → mid = false → t.upRemain = 0 ∧ t.mode = .idle ∧ t.cpl = true ∧
        frame [.outq, .symCnt, .cur, .midcode, .upRemain, .mode, .cpl] s t) ∧
      (s.upRemain.toNat ≤ 8 → mid = true → t.upRemain = 0 ∧ errorEntered .truncated s.upBitLen s t ∧
        frame ([.outq, .symCnt, .cur, .midcode, .upRemain] ++ errorFields) s t)

/-- R163: the bits of the last byte past `UP_BITLEN` are not walked: two bytes that agree on the bits still to consume
give the same outcome. -/
def Obligations.PadBitsAreIgnored : Prop :=
  ∀ (b c : Byte) (s : State), s.mode = .unpack → 0 < s.upRemain.toNat → s.upRemain.toNat ≤ 8 →
    (∀ k, k < s.upRemain.toNat → b.getLsbD (7 - k) = c.getLsbD (7 - k)) →
    exec (.upByte b) s = exec (.upByte c) s

/-- R170: `UP_END` does nothing in IDLE, raises `TRUNCATED` with the bits consumed in UNPACK, and `SEQUENCE` in PACK. -/
def Obligations.UpEndEndsStream : Prop :=
  encode .upEnd = 0xE0000000#32 ∧ sequenceOutside .upEnd [.idle, .unpack] ∧
  (∀ s : State, s.mode = .idle → exec .upEnd s = .next s) ∧
  ∀ s : State, s.mode = .unpack → raisesOnly .upEnd s .truncated (s.upBitLen - s.upRemain)

/-- A message packed with codes that the installed tree decodes, a host-written tree included, unpacks to the symbols
packed (44_unpack.md R171 with the tree as a premise, R134). The commands run one after another past the hold (log 7,
log 15). -/
def Obligations.UnpackOfPackWithAgreeingTree : Prop :=
  ∀ (s : State) (syms : List Byte), s.mode = .idle → s.treeValid = true → syms ≠ [] →
    (∀ a ∈ syms, decodesTo s.arena s.root (codeOf s a) a) → (message s syms).length ≤ 2 ^ 32 - 1 →
    ∃ t bytes, execAll (packProgram syms) s = .next t ∧ t.cpl = true ∧ t.outq = s.outq ++ bytes ∧
      ∃ u, execAll (upLen t.pkBitCnt ++ .upStart :: bytes.map .upByte) t = .next u ∧ exec .upEnd u = .next u ∧
        u.outq = t.outq ++ syms ∧ u.mode = .idle ∧ u.cpl = true ∧ u.symCnt.toNat = syms.length ∧ u.upRemain = 0 ∧ u.err = s.err

/-- R171: over a valid code table, where a pack session of symbols that all have codes ends with `CPL` = 1, building the
tree from the same table and unpacking the emitted bytes with `UP_BITLEN` = `PK_BITCNT` emits exactly those symbols,
completes in the last `UP_BYTE` with `CPL` = 1 and `SYMCNT` = their number, and raises no error. The commands run one after
another past the hold (log 7, log 15). -/
def Obligations.UnpackOfPackIsIdentity : Prop :=
  ∀ (s t : State) (syms bytes : List Byte), s.mode = .idle → codeTableWf s → tableVerdict s = none → syms ≠ [] →
    (∀ a ∈ syms, ctLen s a ≠ 0) → execAll (packProgram syms) s = .next t → t.cpl = true → t.outq = s.outq ++ bytes →
    bytes ≠ [] ∧
    (∃ v, execAll (.trBuild :: upLen t.pkBitCnt ++ .upStart :: bytes.dropLast.map .upByte) t = .next v ∧
      v.mode = .unpack) ∧
    ∃ u, execAll (.trBuild :: upLen t.pkBitCnt ++ .upStart :: bytes.map .upByte) t = .next u ∧
      exec .upEnd u = .next u ∧ u.outq = t.outq ++ syms ∧ u.mode = .idle ∧ u.cpl = true ∧
      u.symCnt.toNat = syms.length ∧ u.upRemain = 0 ∧ u.err = s.err

/-! ## Registers and the host's steps -/

/-- R35 to R38, and the map of R34: what each register index reads, and 0 after reset but for `ID`. -/
def Obligations.RegisterMapReadsState : Prop :=
  ∀ s : State,
    ((readReg s 0).extractLsb' 0 2 = s.mode.code ∧ (readReg s 0).getLsbD 2 = s.treeValid ∧
     (readReg s 0).getLsbD 3 = s.cpl ∧ (readReg s 0).getLsbD 4 = s.midcode ∧
     (readReg s 0).extractLsb' 5 3 = 0#3 ∧ (readReg s 0).extractLsb' 8 4 = s.err.code ∧
     (readReg s 0).extractLsb' 12 2 = s.errMode.code ∧ (readReg s 0).extractLsb' 14 2 = 0#2 ∧
     (readReg s 0).extractLsb' 16 3 = s.accN ∧ (readReg s 0).extractLsb' 19 13 = 0#13) ∧
    readReg s 1 = s.errInfo ∧ readReg s 2 = s.pkBitCnt ∧ readReg s 3 = s.symCnt ∧
    readReg s 4 = s.upBitLen ∧ readReg s 5 = s.upRemain ∧
    ((readReg s 6).extractLsb' 0 9 = s.cur ∧ (readReg s 6).extractLsb' 9 7 = 0#7 ∧
     (readReg s 6).extractLsb' 16 9 = s.root ∧ (readReg s 6).extractLsb' 25 7 = 0#7) ∧
    ((readReg s 7).extractLsb' 0 8 = s.acc ∧ (readReg s 7).extractLsb' 8 24 = 0#24) ∧
    readReg s 8 = BitVec.ofNat 32 s.outq.length ∧
    ((readReg s 9).extractLsb' 0 8 = 0x01#8 ∧ (readReg s 9).extractLsb' 8 8 = 0xFF#8 ∧
     ((readReg s 9).extractLsb' 16 16).toNat = s.cfg.outDepth) ∧
    (∀ k : BitVec 4, 10 ≤ k.toNat → readReg s k = 0) ∧
    ∀ (cfg : Config) (k : BitVec 4), k ≠ 9 → readReg (State.resetWith cfg) k = 0

/-- 20_memory.md R61, R63; 70_reset_and_hazards.md R220: `cmd_ready` is 0 exactly while reset is asserted or the presented
word is held; `out_valid` is 1 exactly while reset is not asserted and the queue is not empty, and `out_data` is then the
head. Reset is asserted in a reset turn (log 2, log 11), and `out_data` has no value while `out_valid` is 0 (log 13). -/
def Obligations.PortsShowHoldResetAndQueue : Prop :=
  ∀ s : State,
    (cmdReady s = false ↔ s.env.turns.head? = some .reset ∨ ∃ w, s.env.cmds.head? = some w ∧
      (w.extractLsb' 28 4 = 0x9#4 ∧ s.outq.length > s.cfg.outDepth - 32 ∨
       w.extractLsb' 28 4 = 0xD#4 ∧ s.outq.length > s.cfg.outDepth - 8 ∨
       w.extractLsb' 28 4 = 0xA#4 ∧ s.outq.length > s.cfg.outDepth - 1)) ∧
    (outValid s = true ↔ s.env.turns.head? ≠ some .reset ∧ s.outq ≠ []) ∧
    ∀ b, outData s = some b ↔ outValid s = true ∧ s.outq.head? = some b

/-- 20_memory.md R62: a register read gives the host the register's value (kept in the model's own `env.reads`, log 12)
and changes nothing of the block. -/
def Obligations.RegisterReadHasNoSideEffect : Prop :=
  ∀ (s : State) (k : BitVec 4) (ts : List HostStep), s.env.turns = .read k :: ts →
    ∃ t, step s = .next t ∧ t.env.reads = s.env.reads ++ [readReg s k] ∧ t.env.turns = ts ∧
      t.env.cmds = s.env.cmds ∧ t.env.popped = s.env.popped ∧ frame [.env] s t

/-- 20_memory.md R63: a pop removes the head of a queue that is not empty and gives it to the host, and changes nothing
else of the block; on an empty queue a pop turn transfers nothing, which is the model's choice (log 13). -/
def Obligations.PopRemovesHeadOfQueue : Prop :=
  ∀ (s : State) (ts : List HostStep), s.env.turns = .pop :: ts →
    ∃ t, step s = .next t ∧ t.env.turns = ts ∧ t.env.cmds = s.env.cmds ∧ t.env.reads = s.env.reads ∧
      (∀ b q, s.outq = b :: q → t.outq = q ∧ t.env.popped = s.env.popped ++ [b]) ∧
      (s.outq = [] → t.outq = [] ∧ t.env.popped = s.env.popped) ∧ frame [.outq, .env] s t

/-- 70_reset_and_hazards.md R220, R221: a reset turn, whatever word is presented, gives the state after reset: every
readable register 0 but `ID`, no entry, no node; that the presented word stays on the port is the model's reading (log 11). -/
def Obligations.ResetGivesResetState : Prop :=
  ∀ (s : State) (ts : List HostStep), s.env.turns = .reset :: ts →
    ∃ t, step s = .next t ∧ t.mode = .idle ∧ t.err = .none ∧ t.errMode = .idle ∧ t.errInfo = 0 ∧ t.cpl = false ∧
      t.treeValid = false ∧ t.root = 0 ∧ (∀ a, ctLen t a = 0) ∧ (∀ i, nodeAt t i = none) ∧
      t.acc = 0 ∧ t.accN = 0 ∧ t.pkBitCnt = 0 ∧ t.symCnt = 0 ∧ t.upBitLen = 0 ∧ t.upRemain = 0 ∧
      t.cur = 0 ∧ t.midcode = false ∧ t.outq = [] ∧
      (∀ k : BitVec 4, k ≠ 9 → readReg t k = 0) ∧ readReg t 9 = readReg s 9 ∧
      t.cfg = s.cfg ∧ t.env.cmds = s.env.cmds ∧ t.env.turns = ts

/-! ## Rules about the whole machine -/

/-- 10_state.md R20: each command writes only the parts of the state that name it as a writer, error entry included. -/
def Obligations.CommandsWriteOnlyNamedState : Prop :=
  ∀ (i : Instr) (s t : State), exec i s = .next t → frame (mayWrite i) s t

/-- R226, R27, R86: outside IDLE no command changes the code table, the arena, the root, the tree's validity or
`UP_BITLEN`. -/
def Obligations.ConfigurationChangesOnlyInIdle : Prop :=
  ∀ (i : Instr) (s t : State), exec i s = .next t → s.mode ≠ .idle →
    t.ct = s.ct ∧ t.arena = s.arena ∧ t.root = s.root ∧ t.treeValid = s.treeValid ∧ t.upBitLen = s.upBitLen

/-- R39: a command sets `CPL` only as a `PK_FLUSH`, an `UP_START` or an `UP_BYTE` that ends in IDLE, and clears it only as
a `PK_START`, an `UP_START`, an `ABORT` or by entering ERROR mode. -/
def Obligations.CompletionFlagChanges : Prop :=
  ∀ (i : Instr) (s t : State), exec i s = .next t →
    (s.cpl = false → t.cpl = true →
      t.mode = .idle ∧ (i = .pkFlush ∧ s.mode = .pack ∨ i = .upStart ∧ s.mode = .idle ∨
        ∃ b, i = .upByte b ∧ s.mode = .unpack)) ∧
    (s.cpl = true → t.cpl = false →
      i = .pkStart ∨ i = .upStart ∨ i = .abort ∨ s.mode ≠ .error ∧ t.mode = .error)

/-- R63, R88: a command only appends to the queue, at most 32 bytes (`PK_SYM`), 8 (`UP_BYTE`), 1 (`PK_FLUSH`) or none. -/
def Obligations.EmissionIsBounded : Prop :=
  ∀ (i : Instr) (s t : State), codeTableWf s → exec i s = .next t →
    ∃ bytes, t.outq = s.outq ++ bytes ∧ bytes.length ≤ mayEmit i

/-- Every step keeps the invariant (10_state.md R24, R25, R32, R33, R39; 20_memory.md R63; 43_pack.md R144; 44_unpack.md
R167; 60_exceptions.md R195). -/
def Obligations.StepKeepsStateConsistent : Prop :=
  ∀ s t : State, Inv s → step s = .next t → Inv t

/-- The state after reset meets the invariant, for every `OUT_DEPTH`. -/
def Obligations.ResetStateIsConsistent : Prop :=
  ∀ cfg : Config, Inv (State.resetWith cfg)

/-- R90, R231: every word, and every liberty of the host, has a defined effect: from a consistent state every step of the
model answers a next state. Under a hold, where R227 says that the block has no step, that next state only takes the turn
(log 4, DEDUCED); with no word presented it changes nothing (log 3, DESIGN CHOICE); in a pop turn on an empty queue, where
R63 and R231 give the host no step, it only takes the turn (log 13, DESIGN CHOICE). -/
def Obligations.EveryStepAnswersNext : Prop :=
  ∀ s : State, Inv s → ∃ t, step s = .next t

/-- R88, R227, R228: a held word is accepted after the host has popped the whole queue, within as many pops as it has
bytes. -/
def Obligations.PoppingLiftsEveryHold : Prop :=
  ∀ (s : State) (w : Word) (ws : List Word),
    s.env.cmds = w :: ws → s.env.turns = List.replicate s.outq.length .pop ++ [.offer] →
    ∃ t, core.run s.outq.length s = .next t ∧ t.outq = [] ∧ t.env.cmds = w :: ws ∧ t.env.turns = [.offer] ∧
      t.env.popped = s.env.popped ++ s.outq ∧ held w t = false ∧
      step t = accept w { t with env := { t.env with cmds := ws, turns := [] } } ∧ frame [.outq, .env] s t

/-- 70_reset_and_hazards.md R229, 00_scope.md R14: how the bytes of a run of accepted words are split by session. Joined,
the lists are exactly the bytes the run appended to the queue; a run in which no session starts has one list, all its bytes;
and where the word of `PK_START` or `UP_START`, accepted in IDLE, executes, a new list begins with the words after it, which
are split from the state it left. The words are accepted one after another past the hold and without the pops that R229
interleaves (log 7, log 15). -/
def Obligations.SessionsAccountForEveryByte : Prop :=
  (∀ (ws : List Word) (s t : State), acceptAll ws s = .next t → t.outq = s.outq ++ (sessions ws s).flatten) ∧
  (∀ (ws : List Word) (s t : State), acceptAll ws s = .next t →
    (∀ pre w post u v, ws = pre ++ w :: post → acceptAll pre s = .next u → accept w u = .next v → ¬ startsSession w u v) →
    ∃ bytes, t.outq = s.outq ++ bytes ∧ sessions ws s = [bytes]) ∧
  ∀ (pre post : List Word) (w : Word) (s u v t : State), acceptAll pre s = .next u → accept w u = .next v →
    acceptAll post v = .next t → startsSession w u v →
    v.outq = u.outq ∧ sessions (pre ++ w :: post) s = sessions pre s ++ sessions post v

/-- 70_reset_and_hazards.md R229, 43_pack.md R140, R146: the words of a pack session accepted from IDLE are one session
after the empty one before it; its list is the bytes they appended, and when it ends with `CPL` = 1 these are the bits of
the joined codes, most significant first, and zeros after them. The words are accepted one after another past the hold
(log 7, log 15). -/
def Obligations.PackSessionIsOneSession : Prop :=
  ∀ (s : State) (syms : List Byte), s.mode = .idle →
    ∃ t bytes, acceptAll ((packProgram syms).map encode) s = .next t ∧ t.outq = s.outq ++ bytes ∧
      sessions ((packProgram syms).map encode) s = [[], bytes] ∧
      (t.cpl = true → bytes.length = ((message s syms).length + 7) / 8 ∧
        ∀ j i, j < bytes.length → i < 8 →
          (bytes.getD j 0).getLsbD (7 - i) = (message s syms).getD (8 * j + i) false)

/-! ## Pseudo-commands and the assembler -/

/-- R93, R112: `CT_SET s, "c"` gives `s` the code `c`, bit for bit, and changes no other entry. -/
def Obligations.CtSetLoadsCode : Prop :=
  ∀ (a : Byte) (c : Bits) (s : State), s.mode = .idle → 1 ≤ c.length → c.length ≤ 255 →
    ∃ t, execAll (ctSet a c) s = .next t ∧ codeOf t a = c ∧ (∀ b, b ≠ a → codeOf t b = codeOf s b) ∧
      frame [.codeTable] s t

/-- R112: `LOAD_TABLE` leaves exactly the table's codes, whatever was loaded before. -/
def Obligations.LoadTableLoadsExactly : Prop :=
  ∀ (table : List (Byte × Bits)) (s : State), s.mode = .idle →
    table.Pairwise (fun x y => x.1.toNat < y.1.toNat) → (∀ e ∈ table, 1 ≤ e.2.length ∧ e.2.length ≤ 255) →
    ∃ t, execAll (loadTable table) s = .next t ∧ (∀ e ∈ table, codeOf t e.1 = e.2) ∧
      (∀ a, (∀ e ∈ table, e.1 ≠ a) → codeOf t a = []) ∧ frame [.codeTable, .arena, .root, .treeValid] s t

/-- R93: `UP_LEN n` sets `UP_BITLEN` to `n`. -/
def Obligations.UpLenSetsBitLength : Prop :=
  ∀ (n : Word) (s : State), s.mode = .idle →
    ∃ t, execAll (upLen n) s = .next t ∧ t.upBitLen = n ∧ frame [.upBitLen] s t

/-- R92: the assembler gives well-formed commands only: it refuses `NIL` as an index written or as the root, and a
bit-string of 0 or more than 16 bits, so every line it takes is words that decode to its commands. -/
def Obligations.AssembledCommandsAreWellFormed : Prop :=
  ∀ (line : String) (is : List Instr), assembleLine line = some is → ∀ i ∈ is, i.wf = true
end

