-- ==== Sys2Proof/Laws/Encoding.lean ====
section
/-! SUPPORT. The fields of a word the encoder makes are the fields it was made of. -/

namespace Sys2Proof

@[simp] theorem opField_wordG (op a : BitVec 4) (s : Byte) (imm : Half) : opField (wordG op a s imm) = op := by
  unfold opField wordG place
  ext k hk
  simp
  grind

@[simp] theorem aField_wordG (op a : BitVec 4) (s : Byte) (imm : Half) : aField (wordG op a s imm) = a := by
  unfold aField wordG place
  ext k hk
  simp
  grind

@[simp] theorem sField_wordG (op a : BitVec 4) (s : Byte) (imm : Half) : sField (wordG op a s imm) = s := by
  unfold sField wordG place
  ext k hk
  simp
  grind

@[simp] theorem immField_wordG (op a : BitVec 4) (s : Byte) (imm : Half) : immField (wordG op a s imm) = imm := by
  unfold immField wordG place
  ext k hk
  simp
  grind

@[simp] theorem opField_wordT (k : Bool) (idx l r : NodeIdx) : opField (wordT k idx l r) = 0x6#4 := by
  unfold opField wordT place
  ext j hj
  interval_cases j <;> simp

@[simp] theorem kField_wordT (k : Bool) (idx l r : NodeIdx) : kField (wordT k idx l r) = k := by
  unfold kField wordT place
  simp

@[simp] theorem idxField_wordT (k : Bool) (idx l r : NodeIdx) : idxField (wordT k idx l r) = idx := by
  unfold idxField wordT place
  ext j hj
  interval_cases j <;> simp

@[simp] theorem leftField_wordT (k : Bool) (idx l r : NodeIdx) : leftField (wordT k idx l r) = l := by
  unfold leftField wordT place
  ext j hj
  interval_cases j <;> simp

@[simp] theorem rightField_wordT (k : Bool) (idx l r : NodeIdx) : rightField (wordT k idx l r) = r := by
  unfold rightField wordT place
  ext j hj
  interval_cases j <;> simp

/-- A word is made of its format G fields. -/
theorem wordG_fields (w : Word) : wordG (opField w) (aField w) (sField w) (immField w) = w := by
  unfold opField aField sField immField wordG place
  ext k hk
  simp
  grind

/-- A word with `OP` = 0x6 is made of its format T fields. -/
theorem wordT_fields {w : Word} (h : opField w = 0x6#4) :
    wordT (kField w) (idxField w) (leftField w) (rightField w) = w := by
  have hop : ∀ j, j < 4 → w.getLsbD (28 + j) = (0x6#4).getLsbD j := fun j hj => by
    rw [← h, opField, BitVec.getLsbD_extractLsb', decide_eq_true hj, Bool.true_and]
  have h0 := hop 0 (by decide)
  have h1 := hop 1 (by decide)
  have h2 := hop 2 (by decide)
  have h3 := hop 3 (by decide)
  unfold kField idxField leftField rightField wordT place
  ext k hk
  interval_cases k <;> simp_all

end Sys2Proof
end

