-- ==== Sys2Proof/Laws/State.lean ====
section
/-! SUPPORT. What each named update of the state leaves in each field, one lemma a field, so that no proof unfolds a
record update. -/

namespace Sys2Proof.Machine

/-! ### `setCode` -/

@[simp] theorem setCode_mode (a : Byte) (c : Bits) (s : State) : (setCode a c s).mode = s.mode := rfl
@[simp] theorem setCode_err (a : Byte) (c : Bits) (s : State) : (setCode a c s).err = s.err := rfl
@[simp] theorem setCode_errMode (a : Byte) (c : Bits) (s : State) : (setCode a c s).errMode = s.errMode := rfl
@[simp] theorem setCode_errInfo (a : Byte) (c : Bits) (s : State) : (setCode a c s).errInfo = s.errInfo := rfl
@[simp] theorem setCode_cpl (a : Byte) (c : Bits) (s : State) : (setCode a c s).cpl = s.cpl := rfl
@[simp] theorem setCode_treeValid (a : Byte) (c : Bits) (s : State) : (setCode a c s).treeValid = s.treeValid := rfl
@[simp] theorem setCode_ct (a : Byte) (c : Bits) (s : State) : (setCode a c s).ct = if c = [] then Memory.erase s.ct a.toNat else Memory.write s.ct a.toNat c := rfl
@[simp] theorem setCode_arena (a : Byte) (c : Bits) (s : State) : (setCode a c s).arena = s.arena := rfl
@[simp] theorem setCode_root (a : Byte) (c : Bits) (s : State) : (setCode a c s).root = s.root := rfl
@[simp] theorem setCode_acc (a : Byte) (c : Bits) (s : State) : (setCode a c s).acc = s.acc := rfl
@[simp] theorem setCode_accN (a : Byte) (c : Bits) (s : State) : (setCode a c s).accN = s.accN := rfl
@[simp] theorem setCode_pkBitCnt (a : Byte) (c : Bits) (s : State) : (setCode a c s).pkBitCnt = s.pkBitCnt := rfl
@[simp] theorem setCode_symCnt (a : Byte) (c : Bits) (s : State) : (setCode a c s).symCnt = s.symCnt := rfl
@[simp] theorem setCode_upBitLen (a : Byte) (c : Bits) (s : State) : (setCode a c s).upBitLen = s.upBitLen := rfl
@[simp] theorem setCode_upRemain (a : Byte) (c : Bits) (s : State) : (setCode a c s).upRemain = s.upRemain := rfl
@[simp] theorem setCode_cur (a : Byte) (c : Bits) (s : State) : (setCode a c s).cur = s.cur := rfl
@[simp] theorem setCode_midcode (a : Byte) (c : Bits) (s : State) : (setCode a c s).midcode = s.midcode := rfl
@[simp] theorem setCode_outq (a : Byte) (c : Bits) (s : State) : (setCode a c s).outq = s.outq := rfl
@[simp] theorem setCode_cfg (a : Byte) (c : Bits) (s : State) : (setCode a c s).cfg = s.cfg := rfl
@[simp] theorem setCode_env (a : Byte) (c : Bits) (s : State) : (setCode a c s).env = s.env := rfl

/-! ### `setNode` -/

@[simp] theorem setNode_mode (i : NodeIdx) (n : Node) (s : State) : (setNode i n s).mode = s.mode := rfl
@[simp] theorem setNode_err (i : NodeIdx) (n : Node) (s : State) : (setNode i n s).err = s.err := rfl
@[simp] theorem setNode_errMode (i : NodeIdx) (n : Node) (s : State) : (setNode i n s).errMode = s.errMode := rfl
@[simp] theorem setNode_errInfo (i : NodeIdx) (n : Node) (s : State) : (setNode i n s).errInfo = s.errInfo := rfl
@[simp] theorem setNode_cpl (i : NodeIdx) (n : Node) (s : State) : (setNode i n s).cpl = s.cpl := rfl
@[simp] theorem setNode_treeValid (i : NodeIdx) (n : Node) (s : State) : (setNode i n s).treeValid = s.treeValid := rfl
@[simp] theorem setNode_ct (i : NodeIdx) (n : Node) (s : State) : (setNode i n s).ct = s.ct := rfl
@[simp] theorem setNode_arena (i : NodeIdx) (n : Node) (s : State) : (setNode i n s).arena = writeNode s.arena i n := rfl
@[simp] theorem setNode_root (i : NodeIdx) (n : Node) (s : State) : (setNode i n s).root = s.root := rfl
@[simp] theorem setNode_acc (i : NodeIdx) (n : Node) (s : State) : (setNode i n s).acc = s.acc := rfl
@[simp] theorem setNode_accN (i : NodeIdx) (n : Node) (s : State) : (setNode i n s).accN = s.accN := rfl
@[simp] theorem setNode_pkBitCnt (i : NodeIdx) (n : Node) (s : State) : (setNode i n s).pkBitCnt = s.pkBitCnt := rfl
@[simp] theorem setNode_symCnt (i : NodeIdx) (n : Node) (s : State) : (setNode i n s).symCnt = s.symCnt := rfl
@[simp] theorem setNode_upBitLen (i : NodeIdx) (n : Node) (s : State) : (setNode i n s).upBitLen = s.upBitLen := rfl
@[simp] theorem setNode_upRemain (i : NodeIdx) (n : Node) (s : State) : (setNode i n s).upRemain = s.upRemain := rfl
@[simp] theorem setNode_cur (i : NodeIdx) (n : Node) (s : State) : (setNode i n s).cur = s.cur := rfl
@[simp] theorem setNode_midcode (i : NodeIdx) (n : Node) (s : State) : (setNode i n s).midcode = s.midcode := rfl
@[simp] theorem setNode_outq (i : NodeIdx) (n : Node) (s : State) : (setNode i n s).outq = s.outq := rfl
@[simp] theorem setNode_cfg (i : NodeIdx) (n : Node) (s : State) : (setNode i n s).cfg = s.cfg := rfl
@[simp] theorem setNode_env (i : NodeIdx) (n : Node) (s : State) : (setNode i n s).env = s.env := rfl

/-! ### `clearArena` -/

@[simp] theorem clearArena_mode (s : State) : (clearArena s).mode = s.mode := rfl
@[simp] theorem clearArena_err (s : State) : (clearArena s).err = s.err := rfl
@[simp] theorem clearArena_errMode (s : State) : (clearArena s).errMode = s.errMode := rfl
@[simp] theorem clearArena_errInfo (s : State) : (clearArena s).errInfo = s.errInfo := rfl
@[simp] theorem clearArena_cpl (s : State) : (clearArena s).cpl = s.cpl := rfl
@[simp] theorem clearArena_treeValid (s : State) : (clearArena s).treeValid = false := rfl
@[simp] theorem clearArena_ct (s : State) : (clearArena s).ct = s.ct := rfl
@[simp] theorem clearArena_arena (s : State) : (clearArena s).arena = [] := rfl
@[simp] theorem clearArena_root (s : State) : (clearArena s).root = 0 := rfl
@[simp] theorem clearArena_acc (s : State) : (clearArena s).acc = s.acc := rfl
@[simp] theorem clearArena_accN (s : State) : (clearArena s).accN = s.accN := rfl
@[simp] theorem clearArena_pkBitCnt (s : State) : (clearArena s).pkBitCnt = s.pkBitCnt := rfl
@[simp] theorem clearArena_symCnt (s : State) : (clearArena s).symCnt = s.symCnt := rfl
@[simp] theorem clearArena_upBitLen (s : State) : (clearArena s).upBitLen = s.upBitLen := rfl
@[simp] theorem clearArena_upRemain (s : State) : (clearArena s).upRemain = s.upRemain := rfl
@[simp] theorem clearArena_cur (s : State) : (clearArena s).cur = s.cur := rfl
@[simp] theorem clearArena_midcode (s : State) : (clearArena s).midcode = s.midcode := rfl
@[simp] theorem clearArena_outq (s : State) : (clearArena s).outq = s.outq := rfl
@[simp] theorem clearArena_cfg (s : State) : (clearArena s).cfg = s.cfg := rfl
@[simp] theorem clearArena_env (s : State) : (clearArena s).env = s.env := rfl

/-! ### `emit` -/

@[simp] theorem emit_mode (b : Byte) (s : State) : (emit b s).mode = s.mode := rfl
@[simp] theorem emit_err (b : Byte) (s : State) : (emit b s).err = s.err := rfl
@[simp] theorem emit_errMode (b : Byte) (s : State) : (emit b s).errMode = s.errMode := rfl
@[simp] theorem emit_errInfo (b : Byte) (s : State) : (emit b s).errInfo = s.errInfo := rfl
@[simp] theorem emit_cpl (b : Byte) (s : State) : (emit b s).cpl = s.cpl := rfl
@[simp] theorem emit_treeValid (b : Byte) (s : State) : (emit b s).treeValid = s.treeValid := rfl
@[simp] theorem emit_ct (b : Byte) (s : State) : (emit b s).ct = s.ct := rfl
@[simp] theorem emit_arena (b : Byte) (s : State) : (emit b s).arena = s.arena := rfl
@[simp] theorem emit_root (b : Byte) (s : State) : (emit b s).root = s.root := rfl
@[simp] theorem emit_acc (b : Byte) (s : State) : (emit b s).acc = s.acc := rfl
@[simp] theorem emit_accN (b : Byte) (s : State) : (emit b s).accN = s.accN := rfl
@[simp] theorem emit_pkBitCnt (b : Byte) (s : State) : (emit b s).pkBitCnt = s.pkBitCnt := rfl
@[simp] theorem emit_symCnt (b : Byte) (s : State) : (emit b s).symCnt = s.symCnt := rfl
@[simp] theorem emit_upBitLen (b : Byte) (s : State) : (emit b s).upBitLen = s.upBitLen := rfl
@[simp] theorem emit_upRemain (b : Byte) (s : State) : (emit b s).upRemain = s.upRemain := rfl
@[simp] theorem emit_cur (b : Byte) (s : State) : (emit b s).cur = s.cur := rfl
@[simp] theorem emit_midcode (b : Byte) (s : State) : (emit b s).midcode = s.midcode := rfl
@[simp] theorem emit_outq (b : Byte) (s : State) : (emit b s).outq = s.outq ++ [b] := rfl
@[simp] theorem emit_cfg (b : Byte) (s : State) : (emit b s).cfg = s.cfg := rfl
@[simp] theorem emit_env (b : Byte) (s : State) : (emit b s).env = s.env := rfl

/-! ### `raise` -/

@[simp] theorem raise_mode (e : ErrCode) (info : Word) (s : State) : (raise e info s).mode = .error := rfl
@[simp] theorem raise_err (e : ErrCode) (info : Word) (s : State) : (raise e info s).err = e := rfl
@[simp] theorem raise_errMode (e : ErrCode) (info : Word) (s : State) : (raise e info s).errMode = s.mode := rfl
@[simp] theorem raise_errInfo (e : ErrCode) (info : Word) (s : State) : (raise e info s).errInfo = info := rfl
@[simp] theorem raise_cpl (e : ErrCode) (info : Word) (s : State) : (raise e info s).cpl = false := rfl
@[simp] theorem raise_treeValid (e : ErrCode) (info : Word) (s : State) : (raise e info s).treeValid = s.treeValid := rfl
@[simp] theorem raise_ct (e : ErrCode) (info : Word) (s : State) : (raise e info s).ct = s.ct := rfl
@[simp] theorem raise_arena (e : ErrCode) (info : Word) (s : State) : (raise e info s).arena = s.arena := rfl
@[simp] theorem raise_root (e : ErrCode) (info : Word) (s : State) : (raise e info s).root = s.root := rfl
@[simp] theorem raise_acc (e : ErrCode) (info : Word) (s : State) : (raise e info s).acc = s.acc := rfl
@[simp] theorem raise_accN (e : ErrCode) (info : Word) (s : State) : (raise e info s).accN = s.accN := rfl
@[simp] theorem raise_pkBitCnt (e : ErrCode) (info : Word) (s : State) : (raise e info s).pkBitCnt = s.pkBitCnt := rfl
@[simp] theorem raise_symCnt (e : ErrCode) (info : Word) (s : State) : (raise e info s).symCnt = s.symCnt := rfl
@[simp] theorem raise_upBitLen (e : ErrCode) (info : Word) (s : State) : (raise e info s).upBitLen = s.upBitLen := rfl
@[simp] theorem raise_upRemain (e : ErrCode) (info : Word) (s : State) : (raise e info s).upRemain = s.upRemain := rfl
@[simp] theorem raise_cur (e : ErrCode) (info : Word) (s : State) : (raise e info s).cur = s.cur := rfl
@[simp] theorem raise_midcode (e : ErrCode) (info : Word) (s : State) : (raise e info s).midcode = s.midcode := rfl
@[simp] theorem raise_outq (e : ErrCode) (info : Word) (s : State) : (raise e info s).outq = s.outq := rfl
@[simp] theorem raise_cfg (e : ErrCode) (info : Word) (s : State) : (raise e info s).cfg = s.cfg := rfl
@[simp] theorem raise_env (e : ErrCode) (info : Word) (s : State) : (raise e info s).env = s.env := rfl

/-! ### `raiseMalformed` -/

@[simp] theorem raiseMalformed_mode (r : Malformed) (s : State) : (raiseMalformed r s).mode = .error := rfl
@[simp] theorem raiseMalformed_err (r : Malformed) (s : State) : (raiseMalformed r s).err = .malformedTable := rfl
@[simp] theorem raiseMalformed_errMode (r : Malformed) (s : State) : (raiseMalformed r s).errMode = s.mode := rfl
@[simp] theorem raiseMalformed_errInfo (r : Malformed) (s : State) : (raiseMalformed r s).errInfo = r.reason := rfl
@[simp] theorem raiseMalformed_cpl (r : Malformed) (s : State) : (raiseMalformed r s).cpl = false := rfl
@[simp] theorem raiseMalformed_treeValid (r : Malformed) (s : State) : (raiseMalformed r s).treeValid = s.treeValid := rfl
@[simp] theorem raiseMalformed_ct (r : Malformed) (s : State) : (raiseMalformed r s).ct = s.ct := rfl
@[simp] theorem raiseMalformed_arena (r : Malformed) (s : State) : (raiseMalformed r s).arena = s.arena := rfl
@[simp] theorem raiseMalformed_root (r : Malformed) (s : State) : (raiseMalformed r s).root = s.root := rfl
@[simp] theorem raiseMalformed_acc (r : Malformed) (s : State) : (raiseMalformed r s).acc = s.acc := rfl
@[simp] theorem raiseMalformed_accN (r : Malformed) (s : State) : (raiseMalformed r s).accN = s.accN := rfl
@[simp] theorem raiseMalformed_pkBitCnt (r : Malformed) (s : State) : (raiseMalformed r s).pkBitCnt = s.pkBitCnt := rfl
@[simp] theorem raiseMalformed_symCnt (r : Malformed) (s : State) : (raiseMalformed r s).symCnt = s.symCnt := rfl
@[simp] theorem raiseMalformed_upBitLen (r : Malformed) (s : State) : (raiseMalformed r s).upBitLen = s.upBitLen := rfl
@[simp] theorem raiseMalformed_upRemain (r : Malformed) (s : State) : (raiseMalformed r s).upRemain = s.upRemain := rfl
@[simp] theorem raiseMalformed_cur (r : Malformed) (s : State) : (raiseMalformed r s).cur = s.cur := rfl
@[simp] theorem raiseMalformed_midcode (r : Malformed) (s : State) : (raiseMalformed r s).midcode = s.midcode := rfl
@[simp] theorem raiseMalformed_outq (r : Malformed) (s : State) : (raiseMalformed r s).outq = s.outq := rfl
@[simp] theorem raiseMalformed_cfg (r : Malformed) (s : State) : (raiseMalformed r s).cfg = s.cfg := rfl
@[simp] theorem raiseMalformed_env (r : Malformed) (s : State) : (raiseMalformed r s).env = s.env := rfl

/-! ### `abort` -/

@[simp] theorem abort_mode (s : State) : (abort s).mode = .idle := rfl
@[simp] theorem abort_err (s : State) : (abort s).err = .none := rfl
@[simp] theorem abort_errMode (s : State) : (abort s).errMode = .idle := rfl
@[simp] theorem abort_errInfo (s : State) : (abort s).errInfo = 0 := rfl
@[simp] theorem abort_cpl (s : State) : (abort s).cpl = false := rfl
@[simp] theorem abort_treeValid (s : State) : (abort s).treeValid = s.treeValid := rfl
@[simp] theorem abort_ct (s : State) : (abort s).ct = s.ct := rfl
@[simp] theorem abort_arena (s : State) : (abort s).arena = s.arena := rfl
@[simp] theorem abort_root (s : State) : (abort s).root = s.root := rfl
@[simp] theorem abort_acc (s : State) : (abort s).acc = 0 := rfl
@[simp] theorem abort_accN (s : State) : (abort s).accN = 0 := rfl
@[simp] theorem abort_pkBitCnt (s : State) : (abort s).pkBitCnt = s.pkBitCnt := rfl
@[simp] theorem abort_symCnt (s : State) : (abort s).symCnt = s.symCnt := rfl
@[simp] theorem abort_upBitLen (s : State) : (abort s).upBitLen = s.upBitLen := rfl
@[simp] theorem abort_upRemain (s : State) : (abort s).upRemain = 0 := rfl
@[simp] theorem abort_cur (s : State) : (abort s).cur = s.root := rfl
@[simp] theorem abort_midcode (s : State) : (abort s).midcode = false := rfl
@[simp] theorem abort_outq (s : State) : (abort s).outq = s.outq := rfl
@[simp] theorem abort_cfg (s : State) : (abort s).cfg = s.cfg := rfl
@[simp] theorem abort_env (s : State) : (abort s).env = s.env := rfl

/-! ### `complete` -/

@[simp] theorem complete_mode (s : State) : (complete s).mode = .idle := rfl
@[simp] theorem complete_err (s : State) : (complete s).err = s.err := rfl
@[simp] theorem complete_errMode (s : State) : (complete s).errMode = s.errMode := rfl
@[simp] theorem complete_errInfo (s : State) : (complete s).errInfo = s.errInfo := rfl
@[simp] theorem complete_cpl (s : State) : (complete s).cpl = true := rfl
@[simp] theorem complete_treeValid (s : State) : (complete s).treeValid = s.treeValid := rfl
@[simp] theorem complete_ct (s : State) : (complete s).ct = s.ct := rfl
@[simp] theorem complete_arena (s : State) : (complete s).arena = s.arena := rfl
@[simp] theorem complete_root (s : State) : (complete s).root = s.root := rfl
@[simp] theorem complete_acc (s : State) : (complete s).acc = s.acc := rfl
@[simp] theorem complete_accN (s : State) : (complete s).accN = s.accN := rfl
@[simp] theorem complete_pkBitCnt (s : State) : (complete s).pkBitCnt = s.pkBitCnt := rfl
@[simp] theorem complete_symCnt (s : State) : (complete s).symCnt = s.symCnt := rfl
@[simp] theorem complete_upBitLen (s : State) : (complete s).upBitLen = s.upBitLen := rfl
@[simp] theorem complete_upRemain (s : State) : (complete s).upRemain = s.upRemain := rfl
@[simp] theorem complete_cur (s : State) : (complete s).cur = s.cur := rfl
@[simp] theorem complete_midcode (s : State) : (complete s).midcode = s.midcode := rfl
@[simp] theorem complete_outq (s : State) : (complete s).outq = s.outq := rfl
@[simp] theorem complete_cfg (s : State) : (complete s).cfg = s.cfg := rfl
@[simp] theorem complete_env (s : State) : (complete s).env = s.env := rfl

/-! ### `countSymbol` -/

@[simp] theorem countSymbol_mode (n : Nat) (s : State) : (countSymbol n s).mode = s.mode := rfl
@[simp] theorem countSymbol_err (n : Nat) (s : State) : (countSymbol n s).err = s.err := rfl
@[simp] theorem countSymbol_errMode (n : Nat) (s : State) : (countSymbol n s).errMode = s.errMode := rfl
@[simp] theorem countSymbol_errInfo (n : Nat) (s : State) : (countSymbol n s).errInfo = s.errInfo := rfl
@[simp] theorem countSymbol_cpl (n : Nat) (s : State) : (countSymbol n s).cpl = s.cpl := rfl
@[simp] theorem countSymbol_treeValid (n : Nat) (s : State) : (countSymbol n s).treeValid = s.treeValid := rfl
@[simp] theorem countSymbol_ct (n : Nat) (s : State) : (countSymbol n s).ct = s.ct := rfl
@[simp] theorem countSymbol_arena (n : Nat) (s : State) : (countSymbol n s).arena = s.arena := rfl
@[simp] theorem countSymbol_root (n : Nat) (s : State) : (countSymbol n s).root = s.root := rfl
@[simp] theorem countSymbol_acc (n : Nat) (s : State) : (countSymbol n s).acc = s.acc := rfl
@[simp] theorem countSymbol_accN (n : Nat) (s : State) : (countSymbol n s).accN = s.accN := rfl
@[simp] theorem countSymbol_pkBitCnt (n : Nat) (s : State) : (countSymbol n s).pkBitCnt = s.pkBitCnt + BitVec.ofNat 32 n := rfl
@[simp] theorem countSymbol_symCnt (n : Nat) (s : State) : (countSymbol n s).symCnt = s.symCnt + 1 := rfl
@[simp] theorem countSymbol_upBitLen (n : Nat) (s : State) : (countSymbol n s).upBitLen = s.upBitLen := rfl
@[simp] theorem countSymbol_upRemain (n : Nat) (s : State) : (countSymbol n s).upRemain = s.upRemain := rfl
@[simp] theorem countSymbol_cur (n : Nat) (s : State) : (countSymbol n s).cur = s.cur := rfl
@[simp] theorem countSymbol_midcode (n : Nat) (s : State) : (countSymbol n s).midcode = s.midcode := rfl
@[simp] theorem countSymbol_outq (n : Nat) (s : State) : (countSymbol n s).outq = s.outq := rfl
@[simp] theorem countSymbol_cfg (n : Nat) (s : State) : (countSymbol n s).cfg = s.cfg := rfl
@[simp] theorem countSymbol_env (n : Nat) (s : State) : (countSymbol n s).env = s.env := rfl

/-! ### `openUnpack` -/

@[simp] theorem openUnpack_mode (s : State) : (openUnpack s).mode = .unpack := rfl
@[simp] theorem openUnpack_err (s : State) : (openUnpack s).err = s.err := rfl
@[simp] theorem openUnpack_errMode (s : State) : (openUnpack s).errMode = s.errMode := rfl
@[simp] theorem openUnpack_errInfo (s : State) : (openUnpack s).errInfo = s.errInfo := rfl
@[simp] theorem openUnpack_cpl (s : State) : (openUnpack s).cpl = false := rfl
@[simp] theorem openUnpack_treeValid (s : State) : (openUnpack s).treeValid = s.treeValid := rfl
@[simp] theorem openUnpack_ct (s : State) : (openUnpack s).ct = s.ct := rfl
@[simp] theorem openUnpack_arena (s : State) : (openUnpack s).arena = s.arena := rfl
@[simp] theorem openUnpack_root (s : State) : (openUnpack s).root = s.root := rfl
@[simp] theorem openUnpack_acc (s : State) : (openUnpack s).acc = s.acc := rfl
@[simp] theorem openUnpack_accN (s : State) : (openUnpack s).accN = s.accN := rfl
@[simp] theorem openUnpack_pkBitCnt (s : State) : (openUnpack s).pkBitCnt = s.pkBitCnt := rfl
@[simp] theorem openUnpack_symCnt (s : State) : (openUnpack s).symCnt = 0 := rfl
@[simp] theorem openUnpack_upBitLen (s : State) : (openUnpack s).upBitLen = s.upBitLen := rfl
@[simp] theorem openUnpack_upRemain (s : State) : (openUnpack s).upRemain = s.upBitLen := rfl
@[simp] theorem openUnpack_cur (s : State) : (openUnpack s).cur = s.root := rfl
@[simp] theorem openUnpack_midcode (s : State) : (openUnpack s).midcode = false := rfl
@[simp] theorem openUnpack_outq (s : State) : (openUnpack s).outq = s.outq := rfl
@[simp] theorem openUnpack_cfg (s : State) : (openUnpack s).cfg = s.cfg := rfl
@[simp] theorem openUnpack_env (s : State) : (openUnpack s).env = s.env := rfl

/-! ### `emitSymbol` -/

@[simp] theorem emitSymbol_mode (a : Byte) (s : State) : (emitSymbol a s).mode = s.mode := rfl
@[simp] theorem emitSymbol_err (a : Byte) (s : State) : (emitSymbol a s).err = s.err := rfl
@[simp] theorem emitSymbol_errMode (a : Byte) (s : State) : (emitSymbol a s).errMode = s.errMode := rfl
@[simp] theorem emitSymbol_errInfo (a : Byte) (s : State) : (emitSymbol a s).errInfo = s.errInfo := rfl
@[simp] theorem emitSymbol_cpl (a : Byte) (s : State) : (emitSymbol a s).cpl = s.cpl := rfl
@[simp] theorem emitSymbol_treeValid (a : Byte) (s : State) : (emitSymbol a s).treeValid = s.treeValid := rfl
@[simp] theorem emitSymbol_ct (a : Byte) (s : State) : (emitSymbol a s).ct = s.ct := rfl
@[simp] theorem emitSymbol_arena (a : Byte) (s : State) : (emitSymbol a s).arena = s.arena := rfl
@[simp] theorem emitSymbol_root (a : Byte) (s : State) : (emitSymbol a s).root = s.root := rfl
@[simp] theorem emitSymbol_acc (a : Byte) (s : State) : (emitSymbol a s).acc = s.acc := rfl
@[simp] theorem emitSymbol_accN (a : Byte) (s : State) : (emitSymbol a s).accN = s.accN := rfl
@[simp] theorem emitSymbol_pkBitCnt (a : Byte) (s : State) : (emitSymbol a s).pkBitCnt = s.pkBitCnt := rfl
@[simp] theorem emitSymbol_symCnt (a : Byte) (s : State) : (emitSymbol a s).symCnt = s.symCnt + 1 := rfl
@[simp] theorem emitSymbol_upBitLen (a : Byte) (s : State) : (emitSymbol a s).upBitLen = s.upBitLen := rfl
@[simp] theorem emitSymbol_upRemain (a : Byte) (s : State) : (emitSymbol a s).upRemain = s.upRemain := rfl
@[simp] theorem emitSymbol_cur (a : Byte) (s : State) : (emitSymbol a s).cur = s.cur := rfl
@[simp] theorem emitSymbol_midcode (a : Byte) (s : State) : (emitSymbol a s).midcode = s.midcode := rfl
@[simp] theorem emitSymbol_outq (a : Byte) (s : State) : (emitSymbol a s).outq = s.outq ++ [a] := rfl
@[simp] theorem emitSymbol_cfg (a : Byte) (s : State) : (emitSymbol a s).cfg = s.cfg := rfl
@[simp] theorem emitSymbol_env (a : Byte) (s : State) : (emitSymbol a s).env = s.env := rfl

/-! ### `consumeBit` -/

@[simp] theorem consumeBit_mode (s : State) : (consumeBit s).mode = s.mode := rfl
@[simp] theorem consumeBit_err (s : State) : (consumeBit s).err = s.err := rfl
@[simp] theorem consumeBit_errMode (s : State) : (consumeBit s).errMode = s.errMode := rfl
@[simp] theorem consumeBit_errInfo (s : State) : (consumeBit s).errInfo = s.errInfo := rfl
@[simp] theorem consumeBit_cpl (s : State) : (consumeBit s).cpl = s.cpl := rfl
@[simp] theorem consumeBit_treeValid (s : State) : (consumeBit s).treeValid = s.treeValid := rfl
@[simp] theorem consumeBit_ct (s : State) : (consumeBit s).ct = s.ct := rfl
@[simp] theorem consumeBit_arena (s : State) : (consumeBit s).arena = s.arena := rfl
@[simp] theorem consumeBit_root (s : State) : (consumeBit s).root = s.root := rfl
@[simp] theorem consumeBit_acc (s : State) : (consumeBit s).acc = s.acc := rfl
@[simp] theorem consumeBit_accN (s : State) : (consumeBit s).accN = s.accN := rfl
@[simp] theorem consumeBit_pkBitCnt (s : State) : (consumeBit s).pkBitCnt = s.pkBitCnt := rfl
@[simp] theorem consumeBit_symCnt (s : State) : (consumeBit s).symCnt = s.symCnt := rfl
@[simp] theorem consumeBit_upBitLen (s : State) : (consumeBit s).upBitLen = s.upBitLen := rfl
@[simp] theorem consumeBit_upRemain (s : State) : (consumeBit s).upRemain = s.upRemain - 1 := rfl
@[simp] theorem consumeBit_cur (s : State) : (consumeBit s).cur = s.cur := rfl
@[simp] theorem consumeBit_midcode (s : State) : (consumeBit s).midcode = s.midcode := rfl
@[simp] theorem consumeBit_outq (s : State) : (consumeBit s).outq = s.outq := rfl
@[simp] theorem consumeBit_cfg (s : State) : (consumeBit s).cfg = s.cfg := rfl
@[simp] theorem consumeBit_env (s : State) : (consumeBit s).env = s.env := rfl

/-! ### `hostRead` -/

@[simp] theorem hostRead_mode (k : BitVec 4) (s : State) : (hostRead k s).mode = s.mode := rfl
@[simp] theorem hostRead_err (k : BitVec 4) (s : State) : (hostRead k s).err = s.err := rfl
@[simp] theorem hostRead_errMode (k : BitVec 4) (s : State) : (hostRead k s).errMode = s.errMode := rfl
@[simp] theorem hostRead_errInfo (k : BitVec 4) (s : State) : (hostRead k s).errInfo = s.errInfo := rfl
@[simp] theorem hostRead_cpl (k : BitVec 4) (s : State) : (hostRead k s).cpl = s.cpl := rfl
@[simp] theorem hostRead_treeValid (k : BitVec 4) (s : State) : (hostRead k s).treeValid = s.treeValid := rfl
@[simp] theorem hostRead_ct (k : BitVec 4) (s : State) : (hostRead k s).ct = s.ct := rfl
@[simp] theorem hostRead_arena (k : BitVec 4) (s : State) : (hostRead k s).arena = s.arena := rfl
@[simp] theorem hostRead_root (k : BitVec 4) (s : State) : (hostRead k s).root = s.root := rfl
@[simp] theorem hostRead_acc (k : BitVec 4) (s : State) : (hostRead k s).acc = s.acc := rfl
@[simp] theorem hostRead_accN (k : BitVec 4) (s : State) : (hostRead k s).accN = s.accN := rfl
@[simp] theorem hostRead_pkBitCnt (k : BitVec 4) (s : State) : (hostRead k s).pkBitCnt = s.pkBitCnt := rfl
@[simp] theorem hostRead_symCnt (k : BitVec 4) (s : State) : (hostRead k s).symCnt = s.symCnt := rfl
@[simp] theorem hostRead_upBitLen (k : BitVec 4) (s : State) : (hostRead k s).upBitLen = s.upBitLen := rfl
@[simp] theorem hostRead_upRemain (k : BitVec 4) (s : State) : (hostRead k s).upRemain = s.upRemain := rfl
@[simp] theorem hostRead_cur (k : BitVec 4) (s : State) : (hostRead k s).cur = s.cur := rfl
@[simp] theorem hostRead_midcode (k : BitVec 4) (s : State) : (hostRead k s).midcode = s.midcode := rfl
@[simp] theorem hostRead_outq (k : BitVec 4) (s : State) : (hostRead k s).outq = s.outq := rfl
@[simp] theorem hostRead_cfg (k : BitVec 4) (s : State) : (hostRead k s).cfg = s.cfg := rfl
@[simp] theorem hostRead_env (k : BitVec 4) (s : State) : (hostRead k s).env = { s.env with reads := s.env.reads ++ [rdData s k] } := rfl

/-! ### `hostReset` -/

@[simp] theorem hostReset_mode (s : State) : (hostReset s).mode = .idle := rfl
@[simp] theorem hostReset_err (s : State) : (hostReset s).err = .none := rfl
@[simp] theorem hostReset_errMode (s : State) : (hostReset s).errMode = .idle := rfl
@[simp] theorem hostReset_errInfo (s : State) : (hostReset s).errInfo = 0 := rfl
@[simp] theorem hostReset_cpl (s : State) : (hostReset s).cpl = false := rfl
@[simp] theorem hostReset_treeValid (s : State) : (hostReset s).treeValid = false := rfl
@[simp] theorem hostReset_ct (s : State) : (hostReset s).ct = [] := rfl
@[simp] theorem hostReset_arena (s : State) : (hostReset s).arena = [] := rfl
@[simp] theorem hostReset_root (s : State) : (hostReset s).root = 0 := rfl
@[simp] theorem hostReset_acc (s : State) : (hostReset s).acc = 0 := rfl
@[simp] theorem hostReset_accN (s : State) : (hostReset s).accN = 0 := rfl
@[simp] theorem hostReset_pkBitCnt (s : State) : (hostReset s).pkBitCnt = 0 := rfl
@[simp] theorem hostReset_symCnt (s : State) : (hostReset s).symCnt = 0 := rfl
@[simp] theorem hostReset_upBitLen (s : State) : (hostReset s).upBitLen = 0 := rfl
@[simp] theorem hostReset_upRemain (s : State) : (hostReset s).upRemain = 0 := rfl
@[simp] theorem hostReset_cur (s : State) : (hostReset s).cur = 0 := rfl
@[simp] theorem hostReset_midcode (s : State) : (hostReset s).midcode = false := rfl
@[simp] theorem hostReset_outq (s : State) : (hostReset s).outq = [] := rfl
@[simp] theorem hostReset_cfg (s : State) : (hostReset s).cfg = s.cfg := rfl
@[simp] theorem hostReset_env (s : State) : (hostReset s).env = s.env := rfl

/-! ### `takeTurn` -/

@[simp] theorem takeTurn_mode (s : State) : (takeTurn s).mode = s.mode := rfl
@[simp] theorem takeTurn_err (s : State) : (takeTurn s).err = s.err := rfl
@[simp] theorem takeTurn_errMode (s : State) : (takeTurn s).errMode = s.errMode := rfl
@[simp] theorem takeTurn_errInfo (s : State) : (takeTurn s).errInfo = s.errInfo := rfl
@[simp] theorem takeTurn_cpl (s : State) : (takeTurn s).cpl = s.cpl := rfl
@[simp] theorem takeTurn_treeValid (s : State) : (takeTurn s).treeValid = s.treeValid := rfl
@[simp] theorem takeTurn_ct (s : State) : (takeTurn s).ct = s.ct := rfl
@[simp] theorem takeTurn_arena (s : State) : (takeTurn s).arena = s.arena := rfl
@[simp] theorem takeTurn_root (s : State) : (takeTurn s).root = s.root := rfl
@[simp] theorem takeTurn_acc (s : State) : (takeTurn s).acc = s.acc := rfl
@[simp] theorem takeTurn_accN (s : State) : (takeTurn s).accN = s.accN := rfl
@[simp] theorem takeTurn_pkBitCnt (s : State) : (takeTurn s).pkBitCnt = s.pkBitCnt := rfl
@[simp] theorem takeTurn_symCnt (s : State) : (takeTurn s).symCnt = s.symCnt := rfl
@[simp] theorem takeTurn_upBitLen (s : State) : (takeTurn s).upBitLen = s.upBitLen := rfl
@[simp] theorem takeTurn_upRemain (s : State) : (takeTurn s).upRemain = s.upRemain := rfl
@[simp] theorem takeTurn_cur (s : State) : (takeTurn s).cur = s.cur := rfl
@[simp] theorem takeTurn_midcode (s : State) : (takeTurn s).midcode = s.midcode := rfl
@[simp] theorem takeTurn_outq (s : State) : (takeTurn s).outq = s.outq := rfl
@[simp] theorem takeTurn_cfg (s : State) : (takeTurn s).cfg = s.cfg := rfl
@[simp] theorem takeTurn_env (s : State) : (takeTurn s).env = { s.env with turns := s.env.turns.tail } := rfl

/-! ### `takeWord` -/

@[simp] theorem takeWord_mode (s : State) : (takeWord s).mode = s.mode := rfl
@[simp] theorem takeWord_err (s : State) : (takeWord s).err = s.err := rfl
@[simp] theorem takeWord_errMode (s : State) : (takeWord s).errMode = s.errMode := rfl
@[simp] theorem takeWord_errInfo (s : State) : (takeWord s).errInfo = s.errInfo := rfl
@[simp] theorem takeWord_cpl (s : State) : (takeWord s).cpl = s.cpl := rfl
@[simp] theorem takeWord_treeValid (s : State) : (takeWord s).treeValid = s.treeValid := rfl
@[simp] theorem takeWord_ct (s : State) : (takeWord s).ct = s.ct := rfl
@[simp] theorem takeWord_arena (s : State) : (takeWord s).arena = s.arena := rfl
@[simp] theorem takeWord_root (s : State) : (takeWord s).root = s.root := rfl
@[simp] theorem takeWord_acc (s : State) : (takeWord s).acc = s.acc := rfl
@[simp] theorem takeWord_accN (s : State) : (takeWord s).accN = s.accN := rfl
@[simp] theorem takeWord_pkBitCnt (s : State) : (takeWord s).pkBitCnt = s.pkBitCnt := rfl
@[simp] theorem takeWord_symCnt (s : State) : (takeWord s).symCnt = s.symCnt := rfl
@[simp] theorem takeWord_upBitLen (s : State) : (takeWord s).upBitLen = s.upBitLen := rfl
@[simp] theorem takeWord_upRemain (s : State) : (takeWord s).upRemain = s.upRemain := rfl
@[simp] theorem takeWord_cur (s : State) : (takeWord s).cur = s.cur := rfl
@[simp] theorem takeWord_midcode (s : State) : (takeWord s).midcode = s.midcode := rfl
@[simp] theorem takeWord_outq (s : State) : (takeWord s).outq = s.outq := rfl
@[simp] theorem takeWord_cfg (s : State) : (takeWord s).cfg = s.cfg := rfl
@[simp] theorem takeWord_env (s : State) : (takeWord s).env = { s.env with cmds := s.env.cmds.tail } := rfl

/-! ### `present` -/

@[simp] theorem present_mode (w : Word) (s : State) : (present w s).mode = s.mode := rfl
@[simp] theorem present_err (w : Word) (s : State) : (present w s).err = s.err := rfl
@[simp] theorem present_errMode (w : Word) (s : State) : (present w s).errMode = s.errMode := rfl
@[simp] theorem present_errInfo (w : Word) (s : State) : (present w s).errInfo = s.errInfo := rfl
@[simp] theorem present_cpl (w : Word) (s : State) : (present w s).cpl = s.cpl := rfl
@[simp] theorem present_treeValid (w : Word) (s : State) : (present w s).treeValid = s.treeValid := rfl
@[simp] theorem present_ct (w : Word) (s : State) : (present w s).ct = s.ct := rfl
@[simp] theorem present_arena (w : Word) (s : State) : (present w s).arena = s.arena := rfl
@[simp] theorem present_root (w : Word) (s : State) : (present w s).root = s.root := rfl
@[simp] theorem present_acc (w : Word) (s : State) : (present w s).acc = s.acc := rfl
@[simp] theorem present_accN (w : Word) (s : State) : (present w s).accN = s.accN := rfl
@[simp] theorem present_pkBitCnt (w : Word) (s : State) : (present w s).pkBitCnt = s.pkBitCnt := rfl
@[simp] theorem present_symCnt (w : Word) (s : State) : (present w s).symCnt = s.symCnt := rfl
@[simp] theorem present_upBitLen (w : Word) (s : State) : (present w s).upBitLen = s.upBitLen := rfl
@[simp] theorem present_upRemain (w : Word) (s : State) : (present w s).upRemain = s.upRemain := rfl
@[simp] theorem present_cur (w : Word) (s : State) : (present w s).cur = s.cur := rfl
@[simp] theorem present_midcode (w : Word) (s : State) : (present w s).midcode = s.midcode := rfl
@[simp] theorem present_outq (w : Word) (s : State) : (present w s).outq = s.outq := rfl
@[simp] theorem present_cfg (w : Word) (s : State) : (present w s).cfg = s.cfg := rfl
@[simp] theorem present_env (w : Word) (s : State) : (present w s).env = { s.env with cmds := w :: s.env.cmds, turns := .offer :: s.env.turns } := rfl

end Sys2Proof.Machine
end

