-- ==== Sys2Proof/Laws/Ops.lean ====
section
/-! SUPPORT. What the shared operations do, once each: the sparse memories, the legality check, the bit buffer, the
end-of-stream check and one walked bit. -/

namespace Sys2Proof.Machine

/-! ### Sparse memories -/

namespace Memory

variable {α : Type}

@[simp] theorem read_nil (k : Nat) : read ([] : List (Nat × α)) k = none := rfl

theorem read_write_same (m : List (Nat × α)) (k : Nat) (v : α) : read (write m k v) k = some v := by
  induction m with
  | nil => simp [write, read]
  | cons e t ih =>
    obtain ⟨a, x⟩ := e
    by_cases h1 : k < a
    · simp [write, h1, read]
    · by_cases h2 : k = a
      · simp [write, h2, read]
      · simp [write, h1, h2, read, ih, Ne.symm h2]

theorem read_write_other (m : List (Nat × α)) {k j : Nat} (v : α) (h : j ≠ k) :
    read (write m k v) j = read m j := by
  induction m with
  | nil => simp [write, read, h.symm]
  | cons e t ih =>
    obtain ⟨a, x⟩ := e
    by_cases h1 : k < a
    · simp [write, h1, read, h.symm]
    · by_cases h2 : k = a
      · subst h2; simp [write, read, h.symm]
      · simp [write, h1, h2, read, ih]

theorem read_erase_same (m : List (Nat × α)) (k : Nat) : read (erase m k) k = none := by
  induction m with
  | nil => rfl
  | cons e t ih =>
    obtain ⟨a, x⟩ := e
    by_cases h : a = k <;> simp [erase, read, h, ih]

theorem read_erase_other (m : List (Nat × α)) {k j : Nat} (h : j ≠ k) : read (erase m k) j = read m j := by
  induction m with
  | nil => rfl
  | cons e t ih =>
    obtain ⟨a, x⟩ := e
    by_cases h1 : a = k
    · subst h1; simp [erase, read, ih, h.symm]
    · simp [erase, read, h1, ih]

theorem mem_write {m : List (Nat × α)} {k : Nat} {v : α} {e : Nat × α} (h : e ∈ write m k v) :
    e = (k, v) ∨ e ∈ m := by
  induction m with
  | nil => simpa [write] using h
  | cons f t ih =>
    obtain ⟨a, x⟩ := f
    simp only [write] at h
    split at h
    · simpa using h
    · split at h
      · rcases List.mem_cons.mp h with h | h
        · exact .inl h
        · exact .inr (List.mem_cons_of_mem _ h)
      · rcases List.mem_cons.mp h with h | h
        · exact .inr (h ▸ List.mem_cons_self)
        · exact (ih h).imp_right (List.mem_cons_of_mem _)

theorem mem_erase {m : List (Nat × α)} {k : Nat} {e : Nat × α} (h : e ∈ erase m k) : e ∈ m := by
  induction m with
  | nil => exact h
  | cons f t ih =>
    obtain ⟨a, x⟩ := f
    simp only [erase] at h
    split at h
    · exact List.mem_cons_of_mem _ (ih h)
    · rcases List.mem_cons.mp h with h | h
      · exact h ▸ List.mem_cons_self
      · exact List.mem_cons_of_mem _ (ih h)

@[simp] theorem wf_nil (size : Nat) : wf size ([] : List (Nat × α)) :=
  ⟨List.Pairwise.nil, fun _ h => nomatch h⟩

/-- Writing keeps the canonical form. -/
theorem wf_write {size : Nat} {m : List (Nat × α)} (h : wf size m) {k : Nat} (hk : k < size) (v : α) :
    wf size (write m k v) := by
  refine ⟨?_, fun e he => (mem_write he).elim (fun q => q ▸ hk) (h.2 e)⟩
  obtain ⟨hp, -⟩ := h
  induction m with
  | nil => simp [write]
  | cons f t ih =>
    obtain ⟨a, x⟩ := f
    rw [List.pairwise_cons] at hp
    simp only [write]
    split
    · rename_i hlt
      rw [List.pairwise_cons, List.pairwise_cons]
      refine ⟨fun e he => ?_, hp⟩
      rcases List.mem_cons.mp he with rfl | he
      · exact hlt
      · exact Nat.lt_trans hlt (hp.1 e he)
    · split
      · rename_i heq
        subst heq
        exact List.pairwise_cons.mpr hp
      · rename_i h1 h2
        rw [List.pairwise_cons]
        refine ⟨fun e he => ?_, ih hp.2⟩
        rcases mem_write he with rfl | he
        · show a < k
          omega
        · exact hp.1 e he

/-- Erasing keeps the canonical form. -/
theorem wf_erase {size : Nat} {m : List (Nat × α)} (h : wf size m) (k : Nat) : wf size (erase m k) := by
  refine ⟨?_, fun e he => h.2 e (mem_erase he)⟩
  obtain ⟨hp, -⟩ := h
  induction m with
  | nil => simp [erase]
  | cons f t ih =>
    obtain ⟨a, x⟩ := f
    rw [List.pairwise_cons] at hp
    simp only [erase]
    split
    · exact ih hp.2
    · exact List.pairwise_cons.mpr ⟨fun e he => hp.1 e (mem_erase he), ih hp.2⟩

/-- What is read is listed. -/
theorem mem_of_read {m : List (Nat × α)} {k : Nat} {v : α} (h : read m k = some v) : (k, v) ∈ m := by
  induction m with
  | nil => cases h
  | cons f t ih =>
    obtain ⟨a, x⟩ := f
    simp only [read] at h
    split at h
    · rename_i ha
      cases h
      exact ha ▸ List.mem_cons_self
    · exact List.mem_cons_of_mem _ (ih h)

/-- In canonical form what is listed is read. -/
theorem read_of_mem {size : Nat} {m : List (Nat × α)} (h : wf size m) {k : Nat} {v : α} (hm : (k, v) ∈ m) :
    read m k = some v := by
  obtain ⟨hp, -⟩ := h
  induction m with
  | nil => cases hm
  | cons f t ih =>
    obtain ⟨a, x⟩ := f
    rw [List.pairwise_cons] at hp
    rcases List.mem_cons.mp hm with he | ht
    · cases he
      simp [read]
    · have hne : a ≠ k := fun he => absurd (hp.1 _ ht) (by simp [he])
      simp [read, hne, ih ht hp.2]

end Memory

/-! ### Code table and arena -/

theorem codeOf_setCode_same (a : Byte) (c : Bits) (s : State) : codeOf (setCode a c s) a = c := by
  by_cases h : c = []
  · simp [codeOf, h, Memory.read_erase_same]
  · simp [codeOf, h, Memory.read_write_same]

theorem codeOf_setCode_other {a b : Byte} (h : b ≠ a) (c : Bits) (s : State) :
    codeOf (setCode a c s) b = codeOf s b := by
  have hn : b.toNat ≠ a.toNat := fun he => h (BitVec.eq_of_toNat_eq he)
  by_cases hc : c = []
  · simp [codeOf, hc, Memory.read_erase_other _ hn]
  · simp [codeOf, hc, Memory.read_write_other _ _ hn]

theorem nodeIn_writeNode_same (m : List (Nat × Node)) {i : NodeIdx} (h : i ≠ nilIdx) (n : Node) :
    nodeIn (writeNode m i n) i = some n := by
  simp [nodeIn, writeNode, h, Memory.read_write_same]

theorem nodeIn_writeNode_other (m : List (Nat × Node)) {i j : NodeIdx} (h : j ≠ i) (n : Node) :
    nodeIn (writeNode m i n) j = nodeIn m j := by
  have hn : j.toNat ≠ i.toNat := fun he => h (BitVec.eq_of_toNat_eq he)
  by_cases hi : i = nilIdx
  · simp [writeNode, hi]
  · by_cases hj : j = nilIdx
    · simp [nodeIn, hj]
    · simp [nodeIn, writeNode, hi, hj, Memory.read_write_other _ _ hn]

@[simp] theorem nodeIn_nil (i : NodeIdx) : nodeIn [] i = none := by simp [nodeIn]

@[simp] theorem nodeIn_nilIdx (m : List (Nat × Node)) : nodeIn m nilIdx = none := by simp [nodeIn]

/-- An arena entry is written below `NNODE`, so the canonical form is kept. -/
theorem wf_writeNode {m : List (Nat × Node)} (h : Memory.wf nnode m) (i : NodeIdx) (n : Node) :
    Memory.wf nnode (writeNode m i n) := by
  unfold writeNode
  split
  · exact h
  · rename_i hi
    refine Memory.wf_write h ?_ n
    have h1 : i.toNat ≠ 511 := fun he => hi (BitVec.eq_of_toNat_eq (by simp [he, nilIdx]))
    have h2 := i.isLt
    simp only [nnode]
    omega

/-! ### Legality -/

theorem gated_of_legal {i : Instr} {s : State} (h : s.mode ∈ legalModes i) (body : Result) :
    gated i s body = body := if_pos h

theorem gated_of_error {i : Instr} {s : State} (h : s.mode ∉ legalModes i) (he : s.mode = .error) (body : Result) :
    gated i s body = .next s := by rw [gated, if_neg h, if_pos he]

theorem gated_of_sequence {i : Instr} {s : State} (h : s.mode ∉ legalModes i) (he : s.mode ≠ .error) (body : Result) :
    gated i s body = .next (raise .sequence (encode i) s) := by rw [gated, if_neg h, if_neg he]

/-- Everything the legality check can do. -/
theorem gated_cases {i : Instr} {s t : State} {body : Result} (h : gated i s body = .next t) :
    s.mode ∈ legalModes i ∧ body = .next t ∨
    s.mode ∉ legalModes i ∧ s.mode = .error ∧ t = s ∨
    s.mode ∉ legalModes i ∧ s.mode ≠ .error ∧ t = raise .sequence (encode i) s := by
  by_cases hl : s.mode ∈ legalModes i
  · rw [gated_of_legal hl] at h
    exact .inl ⟨hl, h⟩
  · by_cases he : s.mode = .error
    · rw [gated_of_error hl he] at h
      cases h
      exact .inr (.inl ⟨hl, he, rfl⟩)
    · rw [gated_of_sequence hl he] at h
      cases h
      exact .inr (.inr ⟨hl, he, rfl⟩)

/-! ### The bit buffer -/

theorem appendBit_of_full {s : State} (b : Bool) (h : s.accN = 7) :
    appendBit b s =
      { s with outq := s.outq ++ [setBit s.acc 0 b], acc := 0, accN := 0 } := by
  simp [appendBit, h, emit]

theorem appendBit_of_room {s : State} (b : Bool) (h : s.accN ≠ 7) :
    appendBit b s = { s with acc := setBit s.acc (7 - s.accN.toNat) b, accN := s.accN + 1 } :=
  if_neg h

/-! ### The walk -/

/-- Everything the end-of-stream check can do. -/
theorem endCheck_cases (s : State) :
    s.upRemain ≠ 0 ∧ endCheck s = s ∨
    s.upRemain = 0 ∧ s.midcode = true ∧ endCheck s = raise .truncated s.upBitLen s ∨
    s.upRemain = 0 ∧ s.midcode = false ∧ endCheck s = complete s := by
  by_cases h : s.upRemain = 0
  · cases hm : s.midcode
    · exact .inr (.inr ⟨h, rfl, by simp [endCheck, h, hm]⟩)
    · exact .inr (.inl ⟨h, rfl, by simp [endCheck, h, hm]⟩)
  · exact .inl ⟨h, if_neg h⟩

/-- Everything one walked bit can do. -/
theorem walkBit_cases {b : Bool} {s t : State} (h : walkBit b s = .next t) :
    (∃ a, nodeAt s s.cur = some (.leaf a) ∧ b = true ∧
      t = raise .invalidCode (consumed (consumeBit s)) (consumeBit s)) ∨
    (∃ a, nodeAt s s.cur = some (.leaf a) ∧ b = false ∧ t = endCheck (emitSymbol a (consumeBit s))) ∨
    (∃ l r, nodeAt s s.cur = some (.inner l r) ∧ nodeAt s (childIdx b l r) = none ∧
      t = raiseMalformed .dangling (consumeBit s)) ∨
    (∃ l r a, nodeAt s s.cur = some (.inner l r) ∧ nodeAt s (childIdx b l r) = some (.leaf a) ∧
      t = endCheck { emitSymbol a (consumeBit s) with cur := s.root, midcode := false }) ∨
    (∃ l r l' r', nodeAt s s.cur = some (.inner l r) ∧ nodeAt s (childIdx b l r) = some (.inner l' r') ∧
      t = endCheck { consumeBit s with cur := childIdx b l r, midcode := true }) := by
  unfold walkBit at h
  split at h
  · cases h
  · rename_i a ha
    cases b <;> cases h
    · exact .inr (.inl ⟨a, ha, rfl, rfl⟩)
    · exact .inl ⟨a, ha, rfl, rfl⟩
  · rename_i l r hi
    split at h
    · rename_i hc
      cases h
      exact .inr (.inr (.inl ⟨l, r, hi, hc, rfl⟩))
    · rename_i a hc
      cases h
      exact .inr (.inr (.inr (.inl ⟨l, r, a, hi, hc, rfl⟩)))
    · rename_i l' r' hc
      cases h
      exact .inr (.inr (.inr (.inr ⟨l, r, l', r', hi, hc, rfl⟩)))

/-- A walk that stands at a node answers a next state. -/
theorem walkBit_next (b : Bool) {s : State} (h : nodeAt s s.cur ≠ none) : ∃ t, walkBit b s = .next t := by
  unfold walkBit
  split
  · contradiction
  · cases b <;> simp
  · split <;> simp

end Sys2Proof.Machine
end

