-- ==== Sys2Proof/Laws/PerInstr.lean ====
section
/-! SUPPORT. A law of every command, made per constructor: its word carries the `OP` of its row of the opcode map
(30_encoding.md R85), so the hold, which reads `OP` alone (R88), is decided by the command. -/

namespace Sys2Proof.Laws.OpcodeField

/-- The word of a command has the `OP` of its row. -/
def Statement (i : Instr) : Prop := opField (encode i) = opField i.row.value

theorem of_wordG {op a : BitVec 4} {s : Byte} {imm : Half} {v : Word} (h : op = opField v) :
    opField (wordG op a s imm) = opField v := (opField_wordG op a s imm).trans h

theorem of_wordT {k : Bool} {idx l r : NodeIdx} {v : Word} (h : 0x6#4 = opField v) :
    opField (wordT k idx l r) = opField v := (opField_wordT k idx l r).trans h

theorem nop : Statement .nop := of_wordG (by decide)
theorem abort : Statement .abort := of_wordG (by decide)
theorem clearTables : Statement .clearTables := of_wordG (by decide)
theorem ctClr (s : Byte) : Statement (.ctClr s) := of_wordG (by simp only [Instr.row]; decide)
theorem ctAppend (s : Byte) (bits : Bits) : Statement (.ctAppend s bits) := of_wordG (by simp only [Instr.row]; decide)
theorem trBuild : Statement .trBuild := of_wordG (by decide)
theorem trLeaf (idx : NodeIdx) (s : Byte) : Statement (.trLeaf idx s) := of_wordT (by simp only [Instr.row]; decide)
theorem trInner (idx left right : NodeIdx) : Statement (.trInner idx left right) := of_wordT (by simp only [Instr.row]; decide)
theorem trRoot (idx : NodeIdx) : Statement (.trRoot idx) := of_wordG (by simp only [Instr.row]; decide)
theorem pkStart : Statement .pkStart := of_wordG (by decide)
theorem pkSym (s : Byte) : Statement (.pkSym s) := of_wordG (by simp only [Instr.row]; decide)
theorem pkFlush : Statement .pkFlush := of_wordG (by decide)
theorem upLenLo (h : Half) : Statement (.upLenLo h) := of_wordG (by simp only [Instr.row]; decide)
theorem upLenHi (h : Half) : Statement (.upLenHi h) := of_wordG (by simp only [Instr.row]; decide)
theorem upStart : Statement .upStart := of_wordG (by decide)
theorem upByte (b : Byte) : Statement (.upByte b) := of_wordG (by simp only [Instr.row]; decide)
theorem upEnd : Statement .upEnd := of_wordG (by decide)

end Sys2Proof.Laws.OpcodeField
end

