-- ==== Sys2Proof/Laws/Step.lean ====
section
/-! SUPPORT. What an accepted word, an offered word, one step and a walked byte can do, once each; and that the code
table's update keeps the table's form. -/

namespace Sys2Proof.Machine

/-- Every command's meaning is a body behind the legality check. -/
theorem exec_gated (i : Instr) (s : State) : ∃ body, exec i s = gated i s body := by
  cases i <;> exact ⟨_, rfl⟩

/-- A command outside its legal modes, and not in ERROR mode. -/
theorem exec_of_sequence {i : Instr} {s : State} (h : s.mode ∉ legalModes i) (he : s.mode ≠ .error) :
    exec i s = .next (raise .sequence (encode i) s) := by
  obtain ⟨body, hb⟩ := exec_gated i s
  rw [hb, gated_of_sequence h he]

/-- A command in ERROR mode that is neither `NOP` nor `ABORT`. -/
theorem exec_of_error {i : Instr} {s : State} (he : s.mode = .error) (hn : i ≠ .nop) (ha : i ≠ .abort) :
    exec i s = .next s := by
  obtain ⟨body, hb⟩ := exec_gated i s
  refine hb.trans (gated_of_error ?_ he body)
  rw [he]
  cases i <;> first | contradiction | simp [legalModes]

/-- Everything an accepted word can do. -/
theorem accept_cases {w : Word} {s t : State} (h : accept w s = .next t) :
    (∃ i, decode w = .ok i ∧ exec i s = .next t) ∨
    (∃ r, decode w = .error r ∧ s.mode = .error ∧ t = s) ∨
    (∃ r, decode w = .error r ∧ s.mode ≠ .error ∧ t = raise .illegalCmd w s) := by
  unfold accept at h
  split at h
  · rename_i i hd
    exact .inl ⟨i, hd, h⟩
  · rename_i r hd
    by_cases he : s.mode = .error
    · rw [if_pos he] at h
      cases h
      exact .inr (.inl ⟨r, hd, he, rfl⟩)
    · rw [if_neg he] at h
      cases h
      exact .inr (.inr ⟨r, hd, he, rfl⟩)

/-- Everything an offered word can do. -/
theorem offer_cases {s t : State} (h : offer s = .next t) :
    (cmdData s = none ∧ t = s) ∨ (∃ w, cmdData s = some w ∧ held w s = true ∧ t = s) ∨
    (∃ w, cmdData s = some w ∧ held w s = false ∧ accept w (takeWord s) = .next t) := by
  unfold offer at h
  split at h
  · rename_i hc
    cases h
    exact .inl ⟨hc, rfl⟩
  · rename_i w hc
    cases hh : held w s
    · rw [if_neg (by simp [hh])] at h
      exact .inr (.inr ⟨w, hc, hh, h⟩)
    · rw [if_pos hh] at h
      cases h
      exact .inr (.inl ⟨w, hc, hh, rfl⟩)

/-- Everything a pop can do. -/
theorem hostPop_cases (s : State) :
    (s.outq = [] ∧ hostPop s = s) ∨
    ∃ b q, s.outq = b :: q ∧ hostPop s = { s with outq := q, env := { s.env with popped := s.env.popped ++ [b] } } := by
  unfold hostPop
  split
  · rename_i h
    exact .inl ⟨h, rfl⟩
  · rename_i b q h
    exact .inr ⟨b, q, h, rfl⟩

/-- Everything a step can do, by the turn it takes. -/
theorem step_cases {s t : State} (h : step s = .next t) :
    (s.env.turns = [] ∧ offer s = .next t) ∨
    (s.env.turns.head? = some .offer ∧ offer (takeTurn s) = .next t) ∨
    (s.env.turns.head? = some .pop ∧ t = hostPop (takeTurn s)) ∨
    (∃ k, s.env.turns.head? = some (.read k) ∧ t = hostRead k (takeTurn s)) ∨
    (s.env.turns.head? = some .reset ∧ t = hostReset (takeTurn s)) := by
  unfold step at h
  split at h
  · rename_i ht
    exact .inl ⟨ht, h⟩
  · rename_i turn rest ht
    rw [ht]
    cases turn with
    | offer => exact .inr (.inl ⟨rfl, h⟩)
    | pop => cases h; exact .inr (.inr (.inl ⟨rfl, rfl⟩))
    | read k => cases h; exact .inr (.inr (.inr (.inl ⟨k, rfl, rfl⟩)))
    | reset => cases h; exact .inr (.inr (.inr (.inr ⟨rfl, rfl⟩)))

/-- The walk of a bit and the bits after it: the rest is walked while the session is open. -/
theorem walkBits_cons {b : Bool} {rest : Bits} {s t : State} :
    walkBits (b :: rest) s = .next t ↔
      ∃ u, walkBit b s = .next u ∧ (u.mode = .unpack ∧ walkBits rest u = .next t ∨ u.mode ≠ .unpack ∧ t = u) := by
  simp only [walkBits]
  cases walkBit b s with
  | next u =>
    by_cases hm : u.mode = .unpack
    · simp [hm]
    · simp [hm, eq_comm (a := u)]
  | fault f => simp
  | refused r => simp

/-- The commands of two lists joined run one list after the other. -/
theorem execAll_append {is js : List Instr} {s t : State} (h : execAll is s = .next t) :
    execAll (is ++ js) s = execAll js t := by
  induction is generalizing s with
  | nil => cases h; rfl
  | cons i rest ih =>
    simp only [execAll, List.cons_append] at h ⊢
    cases hi : exec i s with
    | next u => rw [hi] at h; exact ih h
    | fault f => rw [hi] at h; cases h
    | refused r => rw [hi] at h; cases h

/-- The words of two lists joined are accepted one list after the other. -/
theorem acceptAll_append {ws vs : List Word} {s t : State} (h : acceptAll ws s = .next t) :
    acceptAll (ws ++ vs) s = acceptAll vs t := by
  induction ws generalizing s with
  | nil => cases h; rfl
  | cons w rest ih =>
    simp only [acceptAll, List.cons_append] at h ⊢
    cases hw : accept w s with
    | next u => rw [hw] at h; exact ih h
    | fault f => rw [hw] at h; cases h
    | refused r => rw [hw] at h; cases h

/-- A run is split into at least one list. -/
theorem sessions_ne_nil (ws : List Word) (s : State) : sessions ws s ≠ [] := by
  induction ws generalizing s with
  | nil => exact List.cons_ne_nil _ _
  | cons w rest ih =>
    simp only [sessions]
    cases accept w s with
    | next t =>
      cases hs : sessions rest t with
      | nil => exact absurd hs (ih t)
      | cons now later => cases ho : opensSession w s t <;> simp [hs, ho]
    | fault f => exact List.cons_ne_nil _ _
    | refused r => exact List.cons_ne_nil _ _

/-- The ports while reset is asserted (70_reset_and_hazards.md R220). -/
theorem ports_of_reset {s : State} (h : rst s = true) : cmdReady s = false ∧ outValid s = false ∧ outData s = none := by
  simp [cmdReady, outValid, outData, h]

/-- The bits of two codes appended are those of the joined code. -/
theorem appendBits_append (c d : Bits) (s : State) : appendBits (c ++ d) s = appendBits d (appendBits c s) := by
  induction c generalizing s with
  | nil => rfl
  | cons b rest ih => exact ih (appendBit b s)

/-- Writing a code of at most 255 bits keeps the code table's form. -/
theorem codeTableWf_setCode {s : State} (h : codeTableWf s) (a : Byte) {c : Bits} (hc : c.length ≤ maxLen) :
    codeTableWf (setCode a c s) := by
  obtain ⟨hw, hl⟩ := h
  by_cases he : c = []
  · have hct : (setCode a c s).ct = Memory.erase s.ct a.toNat := if_pos he
    refine ⟨?_, fun e hm => hl e ?_⟩
    · rw [hct]
      exact Memory.wf_erase hw _
    · rw [hct] at hm
      exact Memory.mem_erase hm
  · have hct : (setCode a c s).ct = Memory.write s.ct a.toNat c := if_neg he
    refine ⟨?_, fun e hm => ?_⟩
    · rw [hct]
      exact Memory.wf_write hw a.isLt c
    · rw [hct] at hm
      rcases Memory.mem_write hm with rfl | hm
      · exact ⟨List.length_pos_iff.mpr he, hc⟩
      · exact hl e hm

end Sys2Proof.Machine
end

