-- ==== Sys2Proof/Tests/Slice0.lean ====
section
/-! SUPPORT. Tests with values from spec/95_test_vectors.md and the rules' examples, and for every statement with
hypotheses a concrete state and operands that meet them. -/

namespace Sys2Proof.Tests

open Sys2Proof Sys2Proof.Machine

/-- A next state with a property. -/
def goesTo (r : Result) (p : State → Bool) : Bool :=
  match r with
  | .next t => p t
  | _ => false

/-! ### States -/

/-- The table X of 95_test_vectors.md L2.6. -/
def loadedX : State := { State.reset with ct := [(0, [true]), (1, [false])] }

/-- X built: program P1, step 9. -/
def builtX : State := { loadedX with arena := [(0, .inner 2 1), (1, .leaf 0), (2, .leaf 1)], treeValid := true }

/-- A pack session over X with two symbols 0 packed: vector PK1. -/
def packX : State := { loadedX with mode := .pack, acc := 0xC0, accN := 2, pkBitCnt := 2, symCnt := 2 }

/-- An unpack session over X with `n` bits to come: program P1, step 11. -/
def unpackX (n : Word) : State := { builtX with mode := .unpack, upBitLen := n, upRemain := n }

/-- The single-symbol tree of program P4. -/
def built5 : State := { State.reset with ct := [(5, [false])], arena := [(0, .leaf 5)], treeValid := true }

/-- An unpack session over it. -/
def unpack5 (n : Word) : State := { built5 with mode := .unpack, upBitLen := n, upRemain := n }

/-- The tree of vector U8, whose `RIGHT` is `NIL`. -/
def unpackNil : State :=
  { State.reset with
    arena := [(0, .inner 1 0x1FF), (1, .leaf 9)], treeValid := true, mode := .unpack, upBitLen := 8, upRemain := 8 }

/-- ERROR mode: program P5, step 5. -/
def errorP5 : State :=
  { State.reset with mode := .error, err := .unknownSymbol, errMode := .pack, errInfo := 0x12, accN := 1 }

/-- A queue of `n` bytes. -/
def queued (n : Nat) : State := { State.reset with outq := List.replicate n 0xAA }

/-- A word presented, the turns scheduled. -/
def presenting (w : Word) (turns : List HostStep) (s : State) : State :=
  { s with env := { s.env with cmds := [w], turns := turns } }

/-! ### Well-formedness: an ill-formed term for each check -/

theorem test_wf_append_empty : (Instr.ctAppend 2 []).wf = false := by decide
theorem test_wf_append_long : (Instr.ctAppend 2 (List.replicate 17 true)).wf = false := by decide
theorem test_wf_leaf_nil : (Instr.trLeaf 0x1FF 3).wf = false := by decide
theorem test_wf_inner_nil : (Instr.trInner 0x1FF 0 1).wf = false := by decide
theorem test_wf_root_nil : (Instr.trRoot 0x1FF).wf = false := by decide

/-! ### Decoding: the words of L2.1 -/

theorem test_decode_nop : decode 0x00000000 = .ok .nop := by rfl
theorem test_decode_abort : decode 0x10000000 = .ok .abort := by rfl
theorem test_decode_clearTables : decode 0x20000000 = .ok .clearTables := by rfl
theorem test_decode_ctClr : decode 0x30410000 = .ok (.ctClr 0x41) := by rfl
theorem test_decode_ctAppend_one : decode 0x40418000 = .ok (.ctAppend 0x41 [true]) := by rfl
theorem test_decode_ctAppend_three : decode 0x4202C000 = .ok (.ctAppend 2 [true, true, false]) := by rfl
theorem test_decode_ctAppend_sixteen : decode 0x4F41FFFF = .ok (.ctAppend 0x41 (List.replicate 16 true)) := by rfl
theorem test_decode_trBuild : decode 0x50000000 = .ok .trBuild := by rfl
theorem test_decode_trLeaf : decode 0x60040041 = .ok (.trLeaf 1 0x41) := by rfl
theorem test_decode_trInner : decode 0x68000401 = .ok (.trInner 0 2 1) := by rfl
theorem test_decode_trInner_nil_child : decode 0x680003FF = .ok (.trInner 0 1 0x1FF) := by rfl
theorem test_decode_trRoot : decode 0x700001FE = .ok (.trRoot 0x1FE) := by rfl
theorem test_decode_pkStart : decode 0x80000000 = .ok .pkStart := by rfl
theorem test_decode_pkSym : decode 0x90410000 = .ok (.pkSym 0x41) := by rfl
theorem test_decode_pkFlush : decode 0xA0000000 = .ok .pkFlush := by rfl
theorem test_decode_upLenLo : decode 0xB0001234 = .ok (.upLenLo 0x1234) := by rfl
theorem test_decode_upLenHi : decode 0xB1001234 = .ok (.upLenHi 0x1234) := by rfl
theorem test_decode_upStart : decode 0xC0000000 = .ok .upStart := by rfl
theorem test_decode_upByte : decode 0xD0FF0000 = .ok (.upByte 0xFF) := by rfl
theorem test_decode_upEnd : decode 0xE0000000 = .ok .upEnd := by rfl

theorem test_illegal_form_n : decode 0x10000001 = .error .unusedFieldNotZero := by rfl
theorem test_illegal_form_s_a : decode 0x31410000 = .error .unusedFieldNotZero := by rfl
theorem test_illegal_form_s_imm : decode 0xD0FF0001 = .error .unusedFieldNotZero := by rfl
theorem test_illegal_append_one : decode 0x40414000 = .error .appendTailNotZero := by rfl
theorem test_illegal_append_fifteen : decode 0x4E41FFFF = .error .appendTailNotZero := by rfl
theorem test_illegal_leaf_field : decode 0x60040141 = .error .unusedFieldNotZero := by rfl
theorem test_illegal_leaf_nil : decode 0x67FC0041 = .error .nilIndex := by rfl
theorem test_illegal_inner_nil : decode 0x6FFC0000 = .error .nilIndex := by rfl
theorem test_illegal_root_nil : decode 0x700001FF = .error .nilIndex := by rfl
theorem test_illegal_root_field : decode 0x70000200 = .error .unusedFieldNotZero := by rfl
theorem test_illegal_half_select : decode 0xB2000000 = .error .badHalfSelect := by rfl
theorem test_illegal_half_field : decode 0xB0010000 = .error .unusedFieldNotZero := by rfl
theorem test_illegal_reserved : decode 0xFFFFFFFF = .error .reservedOpcode := by rfl

/-- The assembler lines under the table of L2.1. -/
theorem test_assemble_append :
    assemble ["CT_APPEND 2, \"110\"", "TR_INNER 0, 2, 1 ; a comment"] = some [0x4202C000, 0x68000401] := by decide
theorem test_assemble_pseudo :
    assemble ["CT_SET 5, \"0\"", "UP_LEN 70196"] = some [0x30050000, 0x40050000, 0xB0001234, 0xB1000001] := by
  decide
theorem test_assemble_nil : assembleLine "TR_ROOT 0x1FF" = none := by decide
/-- R93: a 17-bit code is a 16-bit append and a 1-bit append. -/
theorem test_ctSet_long :
    ctSet 7 (List.replicate 17 true) = [.ctClr 7, .ctAppend 7 (List.replicate 16 true), .ctAppend 7 [true]] := by
  decide

/-! ### One step each -/

/-- K1. -/
theorem test_nop : goesTo (exec .nop packX) (fun t => t == packX) = true := by rfl
/-- The example of R101: `STATUS` = 0x00031207 before, 0x00000004 after. -/
theorem test_abort :
    status { errorP5 with treeValid := true, accN := 3 } = 0x00031207#32 ∧
    goesTo (exec .abort { errorP5 with treeValid := true, accN := 3 }) (fun t => status t == 0x00000004#32) = true := by
  decide
/-- K7. -/
theorem test_clearTables :
    goesTo (exec .clearTables builtX) (fun t => status t == 0 && ctLen t 0 == 0 && ctLen t 1 == 0) = true := by rfl
/-- K4. -/
theorem test_clearTables_sequence :
    goesTo (exec .clearTables { packX with accN := 0 })
      (fun t => status t == 0x00001703#32 && t.errInfo == 0x20000000#32 && ctLen t 1 == 1) = true := by rfl
/-- CT2. -/
theorem test_ctClr : goesTo (exec (.ctClr 1) loadedX) (fun t => ctLen t 1 == 0 && ctLen t 0 == 1) = true := by rfl
/-- CT1. -/
theorem test_ctAppend :
    goesTo (exec (.ctAppend 2 [true]) { loadedX with ct := [(2, [true, true, false])] })
      (fun t => codeOf t 2 == [true, true, false, true]) = true := by rfl
/-- CT4. -/
theorem test_ctAppend_overflow :
    goesTo (exec (.ctAppend 7 [false]) { State.reset with ct := [(7, List.replicate 255 true)] })
      (fun t => status t == 0x00000803#32 && t.errInfo == 0x40070000#32 && ctLen t 7 == 255) = true := by
  decide +kernel
/-- T8. -/
theorem test_trBuild :
    goesTo (exec .trBuild { State.reset with ct := [(1, [false]), (2, [true, false]), (3, [true, true])] })
      (fun t => status t == 0x00000004#32 &&
        t.arena == [(0, .inner 1 2), (1, .leaf 1), (2, .inner 3 4), (3, .leaf 2), (4, .leaf 3)]) = true := by rfl
/-- T6. -/
theorem test_trBuild_ambiguous :
    goesTo (exec .trBuild { builtX with ct := [(1, [false]), (2, [false, true]), (3, [true])] })
      (fun t => status t == 0x00000403#32 && t.errInfo == 3#32 && t.arena == []) = true := by rfl
/-- The example of R131. -/
theorem test_trLeaf :
    goesTo (exec (.trLeaf 1 0x41) builtX) (fun t => nodeAt t 1 == some (.leaf 0x41) && nodeAt t 2 == some (.leaf 1)) =
      true := by rfl
/-- The example of R132. -/
theorem test_trInner :
    goesTo (exec (.trInner 0 2 1) State.reset) (fun t => nodeAt t 0 == some (.inner 2 1) && status t == 0) = true := by rfl
/-- T12: the root need not name a node. -/
theorem test_trRoot :
    goesTo (exec (.trRoot 5) State.reset) (fun t => status t == 0x00000004#32 && walk t == 0x00050000#32) = true := by rfl
/-- P1, step 3, from a state with counters and `CPL` left. -/
theorem test_pkStart :
    goesTo (exec .pkStart { loadedX with cpl := true, pkBitCnt := 4, symCnt := 4 })
      (fun t => status t == 0x00000001#32 && t.pkBitCnt == 0 && t.symCnt == 0) = true := by rfl
/-- PK1. -/
theorem test_pkSym :
    goesTo (exec (.pkSym 0) packX)
      (fun t => t.acc == 0xE0#8 && t.accN == 3 && t.pkBitCnt == 3 && t.outq == []) = true := by rfl
/-- P2, step 9: the bit that fills a byte. -/
theorem test_pkSym_emits :
    goesTo (exec (.pkSym 0x41)
      { State.reset with ct := [(0x41, [false])], mode := .pack, acc := 0x4C, accN := 7, pkBitCnt := 7, symCnt := 4 })
      (fun t => t.outq == [0x4C#8] && t.accN == 0 && t.acc == 0 && t.pkBitCnt == 8) = true := by rfl
/-- P1, step 8. -/
theorem test_pkFlush :
    goesTo (exec .pkFlush { packX with acc := 0xE0, accN := 4, pkBitCnt := 4 })
      (fun t => status t == 0x00000008#32 && t.outq == [0xE0#8] && t.pkBitCnt == 4) = true := by rfl
/-- PK3: no padding byte. -/
theorem test_pkFlush_full :
    goesTo (exec .pkFlush { packX with acc := 0, accN := 0, pkBitCnt := 8, outq := [0xFF] })
      (fun t => status t == 0x00000008#32 && t.outq == [0xFF#8]) = true := by rfl
/-- U14. -/
theorem test_upLenLo :
    goesTo (exec (.upLenLo 4) { State.reset with upBitLen := 0x00011234 }) (fun t => t.upBitLen == 0x00010004#32) = true := by rfl
/-- U13. -/
theorem test_upLenHi :
    goesTo (exec (.upLenHi 1) { State.reset with upBitLen := 0x1234 }) (fun t => t.upBitLen == 0x00011234#32) = true := by rfl
/-- P1, step 11. -/
theorem test_upStart :
    goesTo (exec .upStart { builtX with cpl := true, upBitLen := 4, symCnt := 4 })
      (fun t => status t == 0x00000006#32 && t.upRemain == 4 && t.symCnt == 0) = true := by rfl
/-- U1. -/
theorem test_upStart_empty :
    goesTo (exec .upStart builtX) (fun t => status t == 0x0000000C#32 && t.symCnt == 0) = true := by rfl
/-- U3: the pad bits are ones. -/
theorem test_upByte :
    goesTo (exec (.upByte 0xEF) (unpackX 4))
      (fun t => status t == 0x0000000C#32 && t.outq == [0#8, 0#8, 0#8, 1#8] && t.symCnt == 4 && t.upRemain == 0) = true := by rfl
/-- U12: `INVALID_CODE` at a root LEAF. -/
theorem test_upByte_invalid :
    goesTo (exec (.upByte 0x20) (unpack5 4))
      (fun t => status t == 0x00002507#32 && t.errInfo == 3#32 && t.outq == [5#8, 5#8] && t.upRemain == 1) = true := by rfl
/-- U17. -/
theorem test_upEnd : goesTo (exec .upEnd builtX) (fun t => t == builtX) = true := by rfl
/-- U4, its last command. -/
theorem test_upEnd_truncated :
    goesTo (exec .upEnd { unpackX 12 with upRemain := 4 })
      (fun t => status t == 0x00002307#32 && t.errInfo == 8#32 && t.upRemain == 4) = true := by rfl
/-- U8: the dangling child. -/
theorem test_upByte_dangling :
    goesTo (exec (.upByte 0x40) unpackNil)
      (fun t => status t == 0x00002407#32 && t.errInfo == 7#32 && t.upRemain == 6 && t.outq == [9#8]) = true := by rfl

/-- E1: an illegal word in PACK is `ILLEGAL_CMD`, not `SEQUENCE`. -/
theorem test_illegal_before_sequence :
    goesTo (step (presenting 0x90000001 [] { State.reset with mode := .pack }))
      (fun t => status t == 0x00001603#32 && t.errInfo == 0x90000001#32 && t.env.cmds == []) = true := by rfl
/-- L2.9: `ID` after reset. -/
theorem test_id : readReg State.reset 9 = 0x0040FF01#32 := by decide
/-- E7: reset wins over the presented word. -/
theorem test_reset_wins :
    goesTo (step (presenting 0x80000000 [.reset] errorP5)) (fun t => status t == 0 && t.env.cmds == [0x80000000#32]) =
      true := by rfl
/-- `withFetchWord` presents the word the next step runs. -/
theorem test_withFetchWord :
    goesTo (step (State.reset.withFetchWord 32 0xB0001234)) (fun t => t.upBitLen == 0x1234#32) = true := by rfl

/-! ### Witnesses: the hypotheses of the statements are met -/

theorem witness_DecodeOfEncode :
    (Instr.ctAppend 0xFF [true]).wf = true ∧ (Instr.ctAppend 0 (List.replicate 16 false)).wf = true ∧
    (Instr.trLeaf 0x1FE 0xFF).wf = true ∧ (Instr.trInner 0x1FE 0x1FF 0x1FF).wf = true ∧ (Instr.trRoot 0).wf = true := by
  decide

theorem witness_EncodeOfDecode : decode 0x680003FF = .ok (.trInner 0 1 0x1FF) ∧ decode 0x4F41FFFF = .ok (.ctAppend 0x41
    (List.replicate 16 true)) := ⟨rfl, rfl⟩

/-- A state in each mode: IDLE for the commands legal there, the others for `SEQUENCE` and the drop. -/
theorem witness_Modes :
    loadedX.mode = .idle ∧ packX.mode = .pack ∧ (unpackX 4).mode = .unpack ∧ errorP5.mode = .error := by decide

/-- A word with `OP` = 0 that is not `NOP` (R100). -/
theorem witness_Nop : (0x00000001#32).extractLsb' 28 4 = 0x0#4 ∧ (0x00000001#32) ≠ 0 := by decide

/-- One word of each clause of R89, at the edge of its field. -/
theorem witness_IllegalWords :
    (∃ r, decode 0xF0000000 = .error r) ∧ (∃ r, decode 0x08000000 = .error r) ∧ (∃ r, decode 0x90008000 = .error r) ∧
    (∃ r, decode 0x4E000001 = .error r) ∧ (∃ r, decode 0x67FC0000 = .error r) ∧ (∃ r, decode 0x60000100 = .error r) ∧
    (∃ r, decode 0x78000000 = .error r) ∧ (∃ r, decode 0xB2000000 = .error r) ∧ packX.mode ≠ .error :=
  ⟨⟨_, rfl⟩, ⟨_, rfl⟩, ⟨_, rfl⟩, ⟨_, rfl⟩, ⟨_, rfl⟩, ⟨_, rfl⟩, ⟨_, rfl⟩, ⟨_, rfl⟩, by decide⟩

theorem witness_StepRuns (turns : List HostStep) (h : turns = [] ∨ turns = [.offer]) :
    ((presenting 0x80000000 turns State.reset).env.turns = [] ∨
      (presenting 0x80000000 turns State.reset).env.turns.head? = some .offer) ∧
    held 0x80000000 (presenting 0x80000000 turns State.reset) = false ∧ decode 0x80000000 = .ok .pkStart := by
  rcases h with rfl | rfl <;> exact ⟨by decide, by decide, rfl⟩

/-- The thresholds of L2.8, both sides of each. -/
theorem witness_Hold :
    held 0x90000000 (queued 32) = false ∧ held 0x90000001 (queued 33) = true ∧
    held 0xD0000000 (queued 56) = false ∧ held 0xD0000000 (queued 57) = true ∧
    held 0xA0000000 (queued 63) = false ∧ held 0xA0000000 (queued 64) = true ∧ held 0x00000000 (queued 64) = false := by
  decide

/-- What the ports show: nothing asserted, a word held, reset asserted over a queue that is not empty (R220), a queue that
is empty. -/
theorem witness_Ports :
    cmdReady (presenting 0x90000000 [] (queued 33)) = false ∧ cmdReady (presenting 0x90000000 [.pop] (queued 32)) = true ∧
    cmdReady (presenting 0x00000000 [.reset] (queued 1)) = false ∧ cmdReady (queued 64) = true ∧
    outValid (queued 1) = true ∧ outData (queued 1) = some 0xAA ∧ outValid (queued 0) = false ∧
    outValid (presenting 0x00000000 [.reset] (queued 1)) = false ∧
    outData (presenting 0x00000000 [.reset] (queued 1)) = none := by decide

theorem witness_AcceptedWord :
    errorP5.mode = .error ∧ packX.mode ≠ .error ∧ decode 0x90000001 = .error .unusedFieldNotZero ∧
    decode 0x30410000 = .ok (.ctClr 0x41) ∧ packX.mode ∉ legalModes (.ctClr 0x41) ∧
    decode 0x90000000 = .ok (.pkSym 0) ∧ packX.mode ∈ legalModes (.pkSym 0) :=
  ⟨rfl, by decide, rfl, rfl, by decide, rfl, by decide⟩

/-- A command in a mode outside its list, a legal one that raises its own error, and one dropped. -/
theorem witness_WrongMode :
    (∃ t, exec .pkStart packX = .next t ∧ t.err = .sequence) ∧
    (∃ t, exec (.pkSym 7) packX = .next t ∧ t.mode = .error) ∧ packX.mode ∈ legalModes (.pkSym 7) ∧
    (∃ t, exec .upEnd packX = .next t ∧ t.err = .sequence) ∧ exec .pkStart errorP5 = .next errorP5 :=
  ⟨⟨_, rfl, rfl⟩, ⟨_, rfl, rfl⟩, by decide, ⟨_, rfl, rfl⟩, rfl⟩

/-- A presented word in ERROR mode that is not held, `ABORT` and another. -/
theorem witness_ErrorMode :
    (presenting 0x10000000 [] errorP5).mode = .error ∧ held 0x10000000 (presenting 0x10000000 [] errorP5) = false ∧
    held 0x90110000 (presenting 0x90110000 [.offer] errorP5) = false ∧
    (presenting 0x90110000 [.offer] errorP5).env.turns.head? = some .offer := by decide

theorem witness_OnlyAbort : ∃ t, accept 0x10000000 errorP5 = .next t ∧ t.mode ≠ .error := ⟨_, rfl, by decide⟩

/-- Each code, from a word accepted outside ERROR mode. -/
theorem witness_ErrorEntry :
    (∃ t, accept 0xA0000000 { packX with pkBitCnt := 0 } = .next t ∧ t.err = .emptyInput ∧ t.mode = .error) ∧
    (∃ t, accept 0x90090000 packX = .next t ∧ t.err = .unknownSymbol) ∧
    (∃ t, accept 0xE0000000 (unpackX 12) = .next t ∧ t.err = .truncated) ∧
    (∃ t, accept 0x50000000 State.reset = .next t ∧ t.err = .malformedTable) ∧
    (∃ t, accept 0xD0FF0000 (unpack5 1) = .next t ∧ t.err = .invalidCode) ∧
    (∃ t, accept 0x90000001 packX = .next t ∧ t.err = .illegalCmd) ∧
    (∃ t, accept 0x30410000 packX = .next t ∧ t.err = .sequence) ∧
    (∃ t, accept 0x90000000 { packX with pkBitCnt := 0xFFFFFFFF } = .next t ∧ t.err = .overflow) :=
  ⟨⟨_, rfl, rfl, rfl⟩, ⟨_, rfl, rfl⟩, ⟨_, rfl, rfl⟩, ⟨_, rfl, rfl⟩, ⟨_, rfl, rfl⟩, ⟨_, rfl, rfl⟩, ⟨_, rfl, rfl⟩,
    ⟨_, rfl, rfl⟩⟩

/-- The illegal words of one form each: `CT_APPEND`, `TR_LEAF` (both clauses), `TR_INNER`, `TR_ROOT` (both), `UP_LENLO`,
`UP_LENHI`. -/
theorem witness_IllegalForms :
    (0x4E410001#32).extractLsb' 28 4 = 0x4#4 ∧ 0 + ((0x4E410001#32).extractLsb' 24 4).toNat + 1 ≤ 15 ∧
    (0x4E410001#32).getLsbD 0 = true ∧
    (0x67FC0041#32).extractLsb' 27 5 = 0xC#5 ∧ (0x67FC0041#32).extractLsb' 18 9 = 0x1FF#9 ∧
    (0x60060041#32).extractLsb' 27 5 = 0xC#5 ∧ (0x60060041#32).extractLsb' 8 10 ≠ 0#10 ∧
    (0x6FFC0000#32).extractLsb' 27 5 = 0xD#5 ∧ (0x6FFC0000#32).extractLsb' 18 9 = 0x1FF#9 ∧
    (0x70000200#32).extractLsb' 28 4 = 0x7#4 ∧ (0x70000200#32).extractLsb' 9 19 ≠ 0#19 ∧
    (0x700001FF#32).extractLsb' 0 9 = 0x1FF#9 ∧
    (0xB0010000#32).extractLsb' 25 7 = 0x58#7 ∧ (0xB1800000#32).extractLsb' 25 7 = 0x58#7 ∧
    (0xB0010000#32).extractLsb' 16 8 ≠ 0#8 ∧ (0xB1800000#32).extractLsb' 16 8 ≠ 0#8 := by decide

/-- The two sides of 255 bits, in IDLE. -/
theorem witness_CtAppend :
    ({ State.reset with ct := [(7, List.replicate 254 true)] } : State).mode = .idle ∧
    ctLen { State.reset with ct := [(7, List.replicate 254 true)] } 7 + [true].length ≤ 255 ∧
    255 < ctLen { State.reset with ct := [(7, List.replicate 254 true)] } 7 + [true, true].length := by
  decide +kernel

/-- Of `TrBuildFollowsTableVerdict` and `EmissionIsBounded`. -/
theorem witness_codeTable : builtX.mode = .idle ∧ codeTableWf builtX := by
  refine ⟨rfl, by unfold Memory.wf; decide, by decide⟩

/-- A valid table of two entries, one of one entry, and one the verdict refuses: of `TrBuildFollowsTableVerdict`,
`BuiltTreeDecodesEveryCode` and `BuiltTreeIsFull`. -/
theorem witness_tableVerdict :
    tableVerdict loadedX = none ∧ tableVerdict built5 = none ∧ tableVerdict State.reset = some .empty ∧
    codeTableWf loadedX ∧ codeTableWf built5 ∧ codeTableWf State.reset ∧ 2 ≤ (entries loadedX).length := by
  refine ⟨by decide, by decide, by decide, ⟨by unfold Memory.wf; decide, by decide⟩,
    ⟨by unfold Memory.wf; decide, by decide⟩, ⟨by unfold Memory.wf; decide, by decide⟩, by decide⟩

theorem witness_TreeWrites : (0 : NodeIdx) ≠ 0x1FF#9 ∧ (0x1FE : NodeIdx) ≠ 0x1FF#9 ∧ loadedX.mode = .idle := by decide

theorem witness_AppendBit : packX.accN ≠ 7 ∧ { packX with accN := 7 }.accN = 7 := by decide

/-- No code; past 2^32 - 1 bits; up to 2^32 - 1 bits (PK8). -/
theorem witness_PkSym :
    packX.mode = .pack ∧ ctLen packX 9 = 0 ∧ ctLen packX 0 ≠ 0 ∧
    ({ packX with pkBitCnt := 0xFFFFFFFF } : State).pkBitCnt.toNat + ctLen packX 0 > 2 ^ 32 - 1 ∧
    ({ packX with pkBitCnt := 0xFFFFFFFE } : State).pkBitCnt.toNat + ctLen packX 0 ≤ 2 ^ 32 - 1 := by decide

theorem witness_PkFlush : { packX with pkBitCnt := 0 }.pkBitCnt = 0 ∧ packX.pkBitCnt ≠ 0 ∧ packX.mode = .pack := by decide

/-- A session that ends with `CPL` = 1 (P1) and one that does not. -/
theorem witness_PackSession :
    loadedX.mode = .idle ∧ ([0, 0, 0, 1] : List Byte) ≠ [] ∧ (∀ a ∈ ([0, 0, 0, 1] : List Byte), ctLen loadedX a ≠ 0) ∧
    (message loadedX [0, 0, 0, 1]).length ≤ 2 ^ 32 - 1 ∧
    goesTo (execAll (packProgram [0, 0, 0, 1]) loadedX) (fun t => t.cpl && t.outq == [0xE0#8]) = true ∧
    goesTo (execAll (packProgram [0, 7]) loadedX) (fun t => !t.cpl) = true := by decide

/-- No tree; a root that names no node (U7); a tree, with a zero and a non-zero length. -/
theorem witness_UpStart :
    State.reset.treeValid = false ∧
    ({ State.reset with treeValid := true, root := 5 } : State).treeValid = true ∧
    nodeAt { State.reset with treeValid := true, root := 5 } 5 = none ∧
    builtX.treeValid = true ∧ nodeAt builtX builtX.root ≠ none ∧ builtX.upBitLen = 0 ∧
    ({ builtX with upBitLen := 1 } : State).upBitLen ≠ 0 := by decide

/-- A LEAF and an INNER node under `CUR`, with a LEAF, an INNER and a dangling child. -/
theorem witness_WalkBit :
    nodeAt (unpack5 1) (unpack5 1).cur = some (.leaf 5) ∧ nodeAt (unpackX 1) (unpackX 1).cur = some (.inner 2 1) ∧
    nodeAt unpackNil unpackNil.cur = some (.inner 1 0x1FF) ∧ nodeAt unpackNil 1 = some (.leaf 9) ∧
    nodeAt unpackNil 0x1FF = none := by decide

theorem witness_UpByteWalks :
    (unpackX 4).mode = .unpack ∧ nodeAt (unpackX 4) (unpackX 4).root ≠ none ∧ nodeAt (unpackX 4) (unpackX 4).cur ≠ none := by
  decide

/-- More than 8 bits to come, 8 bits with the walk at a code boundary, and a last bit inside a code (U9's tree, U10). -/
theorem witness_UpByteEmits :
    decodeRun builtX.arena 0 0 false ((byteBits 0xE0).take (unpackX 9).upRemain.toNat) =
      some ([0, 0, 0, 1, 1, 1, 1, 1], 0, false) ∧
    decodeRun builtX.arena 0 0 false ((byteBits 0xE0).take (unpackX 8).upRemain.toNat) =
      some ([0, 0, 0, 1, 1, 1, 1, 1], 0, false) ∧
    decodeRun [(0, .inner 1 0), (1, .leaf 9)] 0 0 false ((byteBits 0x80).take 1) = some ([], 0, true) := by decide

theorem witness_PadBits :
    (unpackX 4).mode = .unpack ∧ 0 < (unpackX 4).upRemain.toNat ∧ (unpackX 8).upRemain.toNat ≤ 8 ∧
    ∀ k, k < 4 → (0xE0#8).getLsbD (7 - k) = (0xEF#8).getLsbD (7 - k) := by decide

theorem witness_UnpackOfPack :
    builtX.mode = .idle ∧ builtX.treeValid = true ∧ ([0, 1] : List Byte) ≠ [] ∧
    (∀ a ∈ ([0, 1] : List Byte), decodesTo builtX.arena builtX.root (codeOf builtX a) a) ∧
    (message builtX [0, 1]).length ≤ 2 ^ 32 - 1 := by
  refine ⟨rfl, rfl, by decide, ?_, by decide⟩
  unfold decodesTo
  decide

/-- The single-symbol tree. -/
theorem witness_UnpackOfPack_leaf : decodesTo built5.arena built5.root (codeOf built5 5) 5 := by
  unfold decodesTo
  decide

theorem witness_UnpackOfPackIsIdentity :
    loadedX.mode = .idle ∧ codeTableWf loadedX ∧ tableVerdict loadedX = none ∧ ([0, 1] : List Byte) ≠ [] ∧
    (∀ a ∈ ([0, 1] : List Byte), ctLen loadedX a ≠ 0) ∧
    ∃ t, execAll (packProgram [0, 1]) loadedX = .next t ∧ t.cpl = true ∧ t.outq = loadedX.outq ++ [0x80] :=
  ⟨rfl, witness_tableVerdict.2.2.2.1, witness_tableVerdict.1, by decide, by decide, _, rfl, rfl, rfl⟩

theorem witness_HostTurns :
    (presenting 0 [.read 0] packX).env.turns = [.read 0] ∧ (presenting 0 [.pop] (queued 1)).env.turns = [.pop] ∧
    (queued 1).outq = [0xAA] ∧ (queued 0).outq = [] ∧ (presenting 0 [.reset] packX).env.turns = [.reset] := by decide

/-- A command outside IDLE that goes on. -/
theorem witness_ConfigurationChanges : ∃ t, exec (.pkSym 0) packX = .next t ∧ packX.mode ≠ .idle := ⟨_, rfl, by decide⟩

/-- `CPL` set by a flush, cleared by a start. -/
theorem witness_CompletionFlag :
    (∃ t, exec .pkFlush packX = .next t ∧ packX.cpl = false ∧ t.cpl = true) ∧
    ∃ t, exec .pkStart { loadedX with cpl := true } = .next t ∧ t.cpl = false := ⟨⟨_, rfl, rfl, rfl⟩, _, rfl, rfl⟩

theorem witness_Emission : codeTableWf packX ∧ ∃ t, exec (.pkSym 0) packX = .next t := by
  exact ⟨⟨by unfold Memory.wf; decide, by decide⟩, _, rfl⟩

/-- The invariant in each mode. -/
theorem witness_Inv_pack : Inv packX where
  codeTable := ⟨by unfold Memory.wf; decide, by decide⟩
  arena := by unfold Memory.wf; decide
  rootIdx := by decide
  curIdx := by decide
  queue := by decide
  errorMode := by decide
  recorded := by decide
  noRecord := by decide
  completed := by decide
  accZeros := by decide
  accIdle := by decide
  walkIdle := by decide
  packing := fun _ => ⟨by decide, by decide, by decide⟩
  walking := fun h => by cases h

theorem witness_Inv_unpack : Inv (unpackX 9) where
  codeTable := ⟨by unfold Memory.wf; decide, by decide⟩
  arena := by unfold Memory.wf; decide
  rootIdx := by decide
  curIdx := by decide
  queue := by decide
  errorMode := by decide
  recorded := by decide
  noRecord := by decide
  completed := by decide
  accZeros := by decide
  accIdle := by decide
  walkIdle := by decide
  packing := fun h => by cases h
  walking := fun _ => ⟨rfl, by decide, by decide, (fun a h => by cases h), fun _ => rfl, by decide, by decide, by decide⟩

/-- A step from a state that meets the invariant: a command and a pop. -/
theorem witness_Step :
    (∃ t, step (presenting 0x90000000 [] packX) = .next t) ∧ ∃ t, step (presenting 0 [.pop] packX) = .next t :=
  ⟨⟨_, rfl⟩, _, rfl⟩

theorem witness_Popping :
    let s := { presenting 0x90000000 (List.replicate 2 .pop ++ [.offer]) packX with outq := [1, 2] }
    s.env.cmds = [0x90000000] ∧ s.env.turns = List.replicate s.outq.length .pop ++ [.offer] := by decide

/-- A run of two sessions: one flushed with a byte, one left open. -/
theorem witness_Sessions :
    let ws := [0x80000000#32, 0x90000000, 0xA0000000, 0x80000000, 0x90000000]
    goesTo (acceptAll ws loadedX) (fun t => t.outq == [0x80#8]) = true ∧ sessions ws loadedX = [[], [0x80], []] := by
  decide

/-- The premises on the words: a start that executes, in IDLE, and one that does not, in PACK. -/
theorem witness_Sessions_start :
    (∃ v, accept 0x80000000 loadedX = .next v ∧ startsSession 0x80000000 loadedX v ∧
      ∃ t, acceptAll [0x90000000, 0xA0000000] v = .next t ∧ t.outq = [0x80]) ∧
    (∃ v, accept 0xC0000000 { builtX with upBitLen := 4 } = .next v ∧
      startsSession 0xC0000000 { builtX with upBitLen := 4 } v) ∧
    ∃ v, accept 0x80000000 packX = .next v ∧ ¬ startsSession 0x80000000 packX v :=
  ⟨⟨_, rfl, ⟨.inl rfl, rfl, by decide⟩, _, rfl, rfl⟩, ⟨_, rfl, .inr rfl, rfl, by decide⟩,
    _, rfl, fun h => absurd h.2.1 (by decide)⟩

/-- A run in which no session starts: one list, all its bytes. -/
theorem witness_Sessions_none : sessions [0x90000000, 0xA0000000] packX = [[0xE0]] := by decide

/-- P1's session over its words. -/
theorem witness_PackSessionIsOneSession :
    loadedX.mode = .idle ∧ sessions ((packProgram [0, 0, 0, 1]).map encode) loadedX = [[], [0xE0]] := by decide

theorem witness_CtSet : loadedX.mode = .idle ∧ 1 ≤ [true].length ∧ (List.replicate 255 true).length ≤ 255 :=
  ⟨rfl, by decide, (List.length_replicate (n := 255)).le⟩

theorem witness_LoadTable :
    let table : List (Byte × Bits) := [(0, [true]), (0xFF, List.replicate 255 false)]
    table.Pairwise (fun x y => x.1.toNat < y.1.toNat) ∧ ∀ e ∈ table, 1 ≤ e.2.length ∧ e.2.length ≤ 255 := by
  refine ⟨by decide, fun e he => ?_⟩
  rcases List.mem_pair.mp he with rfl | rfl
  · decide
  · exact ⟨(List.length_replicate (n := 255)).symm ▸ by omega, (List.length_replicate (n := 255)).le⟩

theorem witness_Assembled : assembleLine "TR_LEAF 1, 0x41" = some [.trLeaf 1 0x41] := by decide

end Sys2Proof.Tests
end

section
/-! SUPPORT. Frames: how they compose, and what the shared operations and each command leave unchanged
(10_state.md R20). -/

namespace Sys2Proof.Machine

/-! ### Composing frames -/

/-- A frame, part by part. -/
theorem frame_iff {fs : List Field} {s t : State} : frame fs s t ↔
    (.mode ∉ fs → t.mode = s.mode) ∧ (.err ∉ fs → t.err = s.err) ∧ (.errMode ∉ fs → t.errMode = s.errMode) ∧
    (.errInfo ∉ fs → t.errInfo = s.errInfo) ∧ (.cpl ∉ fs → t.cpl = s.cpl) ∧
    (.treeValid ∉ fs → t.treeValid = s.treeValid) ∧ (.codeTable ∉ fs → t.ct = s.ct) ∧
    (.arena ∉ fs → t.arena = s.arena) ∧ (.root ∉ fs → t.root = s.root) ∧ (.acc ∉ fs → t.acc = s.acc) ∧
    (.accN ∉ fs → t.accN = s.accN) ∧ (.pkBitCnt ∉ fs → t.pkBitCnt = s.pkBitCnt) ∧
    (.symCnt ∉ fs → t.symCnt = s.symCnt) ∧ (.upBitLen ∉ fs → t.upBitLen = s.upBitLen) ∧
    (.upRemain ∉ fs → t.upRemain = s.upRemain) ∧ (.cur ∉ fs → t.cur = s.cur) ∧
    (.midcode ∉ fs → t.midcode = s.midcode) ∧ (.outq ∉ fs → t.outq = s.outq) ∧ (.cfg ∉ fs → t.cfg = s.cfg) ∧
    (.env ∉ fs → t.env = s.env) := by
  refine ⟨fun h => ⟨h .mode, h .err, h .errMode, h .errInfo, h .cpl, h .treeValid, h .codeTable, h .arena, h .root,
    h .acc, h .accN, h .pkBitCnt, h .symCnt, h .upBitLen, h .upRemain, h .cur, h .midcode, h .outq, h .cfg, h .env⟩, ?_⟩
  rintro ⟨_, _, _, _, _, _, _, _, _, _, _, _, _, _, _, _, _, _, _, _⟩ f
  cases f <;> assumption

@[simp] theorem frame_refl (fs : List Field) (s : State) : frame fs s s := by simp [frame_iff]

theorem Field.same_trans {f : Field} {s t u : State} (hst : f.same s t) (htu : f.same t u) : f.same s u := by
  cases f <;> exact Eq.trans htu hst

theorem frame_trans {fs : List Field} {s t u : State} (hst : frame fs s t) (htu : frame fs t u) : frame fs s u :=
  fun f hf => Field.same_trans (hst f hf) (htu f hf)

theorem frame_mono {fs gs : List Field} {s t : State} (h : fs ⊆ gs) (hf : frame fs s t) : frame gs s t :=
  fun f hg => hf f fun hm => hg (h hm)

/-! ### The shared operations -/

theorem raise_frame {fs : List Field} (hsub : errorFields ⊆ fs) (e : ErrCode) (info : Word) (s : State) :
    frame fs s (raise e info s) :=
  frame_mono hsub (by simp [frame_iff, errorFields])

theorem complete_frame (s : State) : frame [.mode, .cpl] s (complete s) := by
  simp [frame_iff]

theorem endCheck_frame {fs : List Field} (hsub : errorFields ⊆ fs) (s : State) : frame fs s (endCheck s) := by
  obtain ⟨-, h⟩ | ⟨-, -, h⟩ | ⟨-, -, h⟩ := endCheck_cases s
  · rw [h]
    exact frame_refl _ _
  · rw [h]
    exact raise_frame hsub _ _ _
  · rw [h]
    exact frame_mono (List.Subset.trans (by decide) hsub) (complete_frame s)

/-- The bits of a code change the bit buffer and the queue, nothing else (43_pack.md R142). -/
theorem appendBits_eq (bits : Bits) (s : State) :
    ∃ acc n q, appendBits bits s = { s with acc := acc, accN := n, outq := q } := by
  induction bits generalizing s with
  | nil => exact ⟨_, _, _, rfl⟩
  | cons b rest ih =>
    obtain ⟨acc, n, q, h⟩ := ih (appendBit b s)
    by_cases hn : s.accN = 7
    · exact ⟨acc, n, q, by rw [appendBits, h, appendBit_of_full b hn]⟩
    · exact ⟨acc, n, q, by rw [appendBits, h, appendBit_of_room b hn]⟩

theorem appendBits_frame (bits : Bits) (s : State) : frame [.acc, .accN, .outq] s (appendBits bits s) := by
  obtain ⟨acc, n, q, h⟩ := appendBits_eq bits s
  simp [h, frame_iff]

theorem walkBit_frame {b : Bool} {s t : State} (h : walkBit b s = .next t) : frame (mayWrite (.upByte 0)) s t := by
  have hsub : errorFields ⊆ mayWrite (.upByte 0) := List.subset_append_left _ _
  have hbit : frame (mayWrite (.upByte 0)) s (consumeBit s) := by simp [frame_iff, mayWrite]
  obtain ⟨a, -, -, rfl⟩ | ⟨a, -, -, rfl⟩ | ⟨l, r, -, -, rfl⟩ | ⟨l, r, a, -, -, rfl⟩ | ⟨l, r, l', r', -, -, rfl⟩ :=
    walkBit_cases h
  · exact frame_trans hbit (raise_frame hsub _ _ _)
  · exact frame_trans (by simp [frame_iff, mayWrite]) (endCheck_frame hsub _)
  · exact frame_trans hbit (raise_frame hsub _ _ _)
  · exact frame_trans (by simp [frame_iff, mayWrite]) (endCheck_frame hsub _)
  · exact frame_trans (by simp [frame_iff, mayWrite]) (endCheck_frame hsub _)

theorem walkBits_frame {bits : Bits} {s t : State} (h : walkBits bits s = .next t) :
    frame (mayWrite (.upByte 0)) s t := by
  induction bits generalizing s with
  | nil => cases h; exact frame_refl _ _
  | cons b rest ih =>
    obtain ⟨u, hu, ⟨-, hr⟩ | ⟨-, rfl⟩⟩ := walkBits_cons.mp h
    · exact frame_trans (walkBit_frame hu) (ih hr)
    · exact walkBit_frame hu

/-! ### The commands -/

theorem gated_frame {i : Instr} {s t : State} {body : Result} {fs : List Field} (hsub : errorFields ⊆ fs)
    (hbody : body = .next t → frame fs s t) (h : gated i s body = .next t) : frame fs s t := by
  obtain ⟨-, hb⟩ | ⟨-, -, rfl⟩ | ⟨-, -, rfl⟩ := gated_cases h
  · exact hbody hb
  · exact frame_refl _ _
  · exact raise_frame hsub _ _ _

/-- Every command but `NOP` may enter an error. -/
theorem errorFields_subset_mayWrite {i : Instr} (hn : i ≠ .nop) : errorFields ⊆ mayWrite i := by
  cases i with
  | nop => contradiction
  | upEnd => exact List.Subset.refl _
  | _ => exact List.subset_append_left _ _

theorem execNop_eq (s : State) : execNop s = .next s :=
  gated_of_legal (by cases h : s.mode <;> simp [legalModes]) _

theorem execTrBuild_frame {s t : State} (h : execTrBuild s = .next t) : frame (mayWrite .trBuild) s t := by
  have hsub : errorFields ⊆ mayWrite .trBuild := errorFields_subset_mayWrite (by simp)
  refine gated_frame hsub (fun hb => ?_) h
  have hclear : frame (mayWrite .trBuild) s (clearArena s) := by simp [frame_iff, mayWrite]
  split at hb <;> cases hb
  · exact frame_trans hclear (raise_frame hsub _ _ _)
  · exact frame_trans hclear (by simp [frame_iff, mayWrite])

theorem execPkSym_frame {a : Byte} {s t : State} (h : execPkSym a s = .next t) : frame (mayWrite (.pkSym a)) s t := by
  have hsub : errorFields ⊆ mayWrite (.pkSym a) := errorFields_subset_mayWrite (by simp)
  refine gated_frame hsub (fun hb => ?_) h
  split_ifs at hb <;> cases hb
  · exact raise_frame hsub _ _ _
  · exact raise_frame hsub _ _ _
  · exact frame_trans (frame_mono (by simp [mayWrite]) (appendBits_frame (codeOf s a) s)) (by simp [frame_iff, mayWrite])

theorem execPkFlush_frame {s t : State} (h : execPkFlush s = .next t) : frame (mayWrite .pkFlush) s t := by
  have hsub : errorFields ⊆ mayWrite .pkFlush := errorFields_subset_mayWrite (by simp)
  refine gated_frame hsub (fun hb => ?_) h
  split_ifs at hb <;> cases hb
  · exact raise_frame hsub _ _ _
  · simp [frame_iff, mayWrite, errorFields]
  · simp [frame_iff, mayWrite, errorFields]

theorem execUpStart_frame {s t : State} (h : execUpStart s = .next t) : frame (mayWrite .upStart) s t := by
  have hsub : errorFields ⊆ mayWrite .upStart := errorFields_subset_mayWrite (by simp)
  refine gated_frame hsub (fun hb => ?_) h
  split_ifs at hb <;> cases hb
  · exact raise_frame hsub _ _ _
  · exact raise_frame hsub _ _ _
  · simp [frame_iff, mayWrite, errorFields]
  · simp [frame_iff, mayWrite, errorFields]

theorem execCtAppend_frame {a : Byte} {c : Bits} {s t : State} (h : execCtAppend a c s = .next t) :
    frame (mayWrite (.ctAppend a c)) s t := by
  have hsub : errorFields ⊆ mayWrite (.ctAppend a c) := errorFields_subset_mayWrite (by simp)
  refine gated_frame hsub (fun hb => ?_) h
  split_ifs at hb <;> cases hb
  · exact raise_frame hsub _ _ _
  · simp [frame_iff, mayWrite]

theorem execUpEnd_frame {s t : State} (h : execUpEnd s = .next t) : frame (mayWrite .upEnd) s t := by
  refine gated_frame (List.Subset.refl _) (fun hb => ?_) h
  split_ifs at hb <;> cases hb
  · exact frame_refl _ _
  · exact raise_frame (List.Subset.refl _) _ _ _

/-- A command whose body is one update of the state: the frame is that of the update. -/
theorem gated_next_frame {i : Instr} {s t u : State} (hi : i ≠ .nop) (hu : frame (mayWrite i) s u)
    (h : gated i s (.next u) = .next t) : frame (mayWrite i) s t :=
  gated_frame (errorFields_subset_mayWrite hi) (fun hb => by cases hb; exact hu) h

/-- Settles O42: the error entry and each update of the state write only what their command's row of R20 names. -/
theorem commandsWriteOnlyNamedState : Obligations.CommandsWriteOnlyNamedState := by
  intro i s t h
  cases i with
  | nop => cases (execNop_eq s).symm.trans h; exact frame_refl _ _
  | abort => exact gated_next_frame (by simp) (by simp [frame_iff, mayWrite, errorFields]) h
  | clearTables => exact gated_next_frame (by simp) (by simp [frame_iff, mayWrite]) h
  | ctClr a => exact gated_next_frame (by simp) (by simp [frame_iff, mayWrite]) h
  | ctAppend a bits => exact execCtAppend_frame h
  | trBuild => exact execTrBuild_frame h
  | trLeaf idx a => exact gated_next_frame (by simp) (by simp [frame_iff, mayWrite]) h
  | trInner idx l r => exact gated_next_frame (by simp) (by simp [frame_iff, mayWrite]) h
  | trRoot idx => exact gated_next_frame (by simp) (by simp [frame_iff, mayWrite]) h
  | pkStart => exact gated_next_frame (by simp) (by simp [frame_iff, mayWrite, errorFields]) h
  | pkSym a => exact execPkSym_frame h
  | pkFlush => exact execPkFlush_frame h
  | upLenLo n => exact gated_next_frame (by simp) (by simp [frame_iff, mayWrite]) h
  | upLenHi n => exact gated_next_frame (by simp) (by simp [frame_iff, mayWrite]) h
  | upStart => exact execUpStart_frame h
  | upByte b => exact gated_frame (errorFields_subset_mayWrite (by simp)) walkBits_frame h
  | upEnd => exact execUpEnd_frame h

end Sys2Proof.Machine
end

section
/-! SUPPORT. The register map (10_state.md R34 to R38): the fields of the packed registers. -/

namespace Sys2Proof.Machine

/-- A field placed in a word is read where it was placed. -/
theorem extract_place_same {n : Nat} (v : BitVec n) {lo : Nat} (h : lo + n ≤ 32) :
    (place v lo).extractLsb' lo n = v := by
  ext k hk
  have h1 : lo + k < 32 := by omega
  simp [place, h1, BitVec.getLsbD_eq_getElem hk]

/-- A field placed in a word adds nothing to the bits beside it. -/
theorem extract_place_other {n : Nat} (v : BitVec n) {lo start w : Nat} (h : start + w ≤ lo ∨ lo + n ≤ start) :
    (place v lo).extractLsb' start w = 0 := by
  ext k hk
  have hv : lo ≤ start + k → v.getLsbD (start + k - lo) = false := fun hle =>
    BitVec.getLsbD_of_ge _ _ (by omega)
  simp only [place, BitVec.getElem_extractLsb', BitVec.getLsbD_shiftLeft, BitVec.getLsbD_setWidth]
  by_cases hle : lo ≤ start + k
  · simp [hv hle]
  · simp [Nat.lt_of_not_le hle]

/-- The flags of `STATUS` (R35). -/
theorem status_flags (s : State) :
    (status s).getLsbD 2 = s.treeValid ∧ (status s).getLsbD 3 = s.cpl ∧ (status s).getLsbD 4 = s.midcode := by
  simp [status, place]

/-- The other fields of `STATUS` (R35). -/
theorem status_fields (s : State) :
    (status s).extractLsb' 0 2 = s.mode.code ∧ (status s).extractLsb' 5 3 = 0#3 ∧
    (status s).extractLsb' 8 4 = s.err.code ∧ (status s).extractLsb' 12 2 = s.errMode.code ∧
    (status s).extractLsb' 14 2 = 0#2 ∧ (status s).extractLsb' 16 3 = s.accN ∧
    (status s).extractLsb' 19 13 = 0#13 := by
  simp [status, BitVec.extractLsb'_or, extract_place_same, extract_place_other]

/-- The fields of `WALK` (R36). -/
theorem walk_fields (s : State) :
    (walk s).extractLsb' 0 9 = s.cur ∧ (walk s).extractLsb' 9 7 = 0#7 ∧
    (walk s).extractLsb' 16 9 = s.root ∧ (walk s).extractLsb' 25 7 = 0#7 := by
  simp [walk, BitVec.extractLsb'_or, extract_place_same, extract_place_other]

/-- The fields of `ACCREG` (R37). -/
theorem accReg_fields (s : State) :
    (accReg s).extractLsb' 0 8 = s.acc ∧ (accReg s).extractLsb' 8 24 = 0#24 := by
  simp [accReg, extract_place_same, extract_place_other]

/-- The fields of `ID` (R38). -/
theorem idReg_fields (s : State) :
    (idReg s).extractLsb' 0 8 = 0x01#8 ∧ (idReg s).extractLsb' 8 8 = 0xFF#8 ∧
    (idReg s).extractLsb' 16 16 = BitVec.ofNat 16 s.cfg.outDepth := by
  simp [idReg, maxLen, BitVec.extractLsb'_or, extract_place_same, extract_place_other]

/-- `OUT_DEPTH` fits its field of `ID` (R38). -/
theorem idReg_outDepth (s : State) : ((idReg s).extractLsb' 16 16).toNat = s.cfg.outDepth := by
  have hle := s.cfg.atMost
  obtain ⟨-, -, hdepth⟩ := idReg_fields s
  rw [hdepth, BitVec.toNat_ofNat]
  omega

/-- The indices above `ID` name no register (R34). -/
theorem readReg_unused (s : State) {k : BitVec 4} (h : 10 ≤ k.toNat) : readReg s k = 0 := by
  unfold readReg
  split
  case h_11 => rfl
  all_goals omega

/-- Every register but `ID` is 0 after reset (R34). -/
theorem readReg_resetWith (cfg : Config) {k : BitVec 4} (h : k ≠ 9) : readReg (State.resetWith cfg) k = 0 := by
  have hne : k.toNat ≠ 9 := fun he => h (BitVec.eq_of_toNat_eq he)
  unfold readReg
  split
  case h_10 hk => exact absurd hk hne
  all_goals simp [State.resetWith, status, walk, accReg, outLvl, place, Mode.code, ErrCode.code]

/-- Settles O38: the packed registers field by field, and the values of the others by their index. -/
theorem registerMapReadsState : Obligations.RegisterMapReadsState := by
  intro s
  obtain ⟨hvalid, hcpl, hmid⟩ := status_flags s
  obtain ⟨hmode, hres5, herr, herrMode, hres14, haccN, hres19⟩ := status_fields s
  obtain ⟨hid, hmax, -⟩ := idReg_fields s
  exact ⟨⟨hmode, hvalid, hcpl, hmid, hres5, herr, herrMode, hres14, haccN, hres19⟩, rfl, rfl, rfl, rfl, rfl,
    walk_fields s, accReg_fields s, rfl, ⟨hid, hmax, idReg_outDepth s⟩, fun _ => readReg_unused s,
    fun cfg _ => readReg_resetWith cfg⟩

end Sys2Proof.Machine
end

section
/-! SUPPORT. What each command does to `CPL` (10_state.md R39). -/

namespace Sys2Proof.Machine

/-- `t` was reached from `s` with `CPL` kept, or by entering ERROR mode, which clears it. -/
def KeepsCpl (s t : State) : Prop :=
  t.cpl = s.cpl ∨ s.mode ≠ .error ∧ t.mode = .error ∧ t.cpl = false

/-- `t` is an IDLE state with `CPL` = 1. -/
def Completed (t : State) : Prop := t.mode = .idle ∧ t.cpl = true

theorem keepsCpl_raise {s u : State} (hm : s.mode ≠ .error) (e : ErrCode) (info : Word) :
    KeepsCpl s (raise e info u) := .inr ⟨hm, rfl, rfl⟩

theorem KeepsCpl.of_eq {s t u : State} (hm : s.mode ≠ .error) (hc : u.cpl = s.cpl) (h : KeepsCpl u t) :
    KeepsCpl s t :=
  h.imp (fun he => he.trans hc) (fun ⟨_, ht⟩ => ⟨hm, ht⟩)

theorem endCheck_cpl_cases {s u : State} (hm : s.mode ≠ .error) (hc : u.cpl = s.cpl) :
    KeepsCpl s (endCheck u) ∨ Completed (endCheck u) := by
  obtain ⟨-, h⟩ | ⟨-, -, h⟩ | ⟨-, -, h⟩ := endCheck_cases u
  · exact .inl (.inl (by rw [h, hc]))
  · exact .inl (by rw [h]; exact keepsCpl_raise hm _ _)
  · exact .inr (by rw [h]; exact ⟨rfl, rfl⟩)

theorem walkBit_cpl_cases {b : Bool} {s t : State} (hm : s.mode = .unpack) (h : walkBit b s = .next t) :
    KeepsCpl s t ∨ Completed t := by
  have hne : s.mode ≠ .error := by simp [hm]
  obtain ⟨a, -, -, rfl⟩ | ⟨a, -, -, rfl⟩ | ⟨l, r, -, -, rfl⟩ | ⟨l, r, a, -, -, rfl⟩ | ⟨l, r, l', r', -, -, rfl⟩ :=
    walkBit_cases h
  · exact .inl (keepsCpl_raise hne _ _)
  · exact endCheck_cpl_cases hne rfl
  · exact .inl (keepsCpl_raise hne _ _)
  · exact endCheck_cpl_cases hne rfl
  · exact endCheck_cpl_cases hne rfl

theorem walkBits_cpl_cases {bits : Bits} {s t : State} (hm : s.mode = .unpack) (h : walkBits bits s = .next t) :
    KeepsCpl s t ∨ Completed t := by
  have hne : s.mode ≠ .error := by simp [hm]
  induction bits generalizing s with
  | nil => cases h; exact .inl (.inl rfl)
  | cons b rest ih =>
    obtain ⟨u, hu, ⟨hopen, hr⟩ | ⟨-, rfl⟩⟩ := walkBits_cons.mp h
    · obtain (hk | ⟨-, herr, -⟩) | ⟨hidle, -⟩ := walkBit_cpl_cases hm hu
      · exact (ih hopen hr (by simp [hopen])).imp_left (KeepsCpl.of_eq hne hk)
      · simp [hopen] at herr
      · simp [hopen] at hidle
    · exact walkBit_cpl_cases hm hu

/-- The commands that may end a session as completed, each in its mode. -/
def MayComplete (i : Instr) (s : State) : Prop :=
  i = .pkFlush ∧ s.mode = .pack ∨ i = .upStart ∧ s.mode = .idle ∨ ∃ b, i = .upByte b ∧ s.mode = .unpack

/-- The commands that may clear `CPL` without an error. -/
def MayClearCpl (i : Instr) : Prop := i = .pkStart ∨ i = .upStart ∨ i = .abort

/-- Everything a command can do to `CPL`. -/
def CplOutcome (i : Instr) (s t : State) : Prop :=
  KeepsCpl s t ∨ Completed t ∧ MayComplete i s ∨ t.cpl = false ∧ MayClearCpl i

/-- The legality check itself keeps `CPL` or enters ERROR mode: only the command's body is left to look at. -/
theorem gated_cpl {i : Instr} {s t : State} {body : Result} (h : gated i s body = .next t)
    (hbody : s.mode ∈ legalModes i → body = .next t → CplOutcome i s t) : CplOutcome i s t := by
  obtain ⟨hl, hb⟩ | ⟨-, -, rfl⟩ | ⟨-, hm, rfl⟩ := gated_cases h
  · exact hbody hl hb
  · exact .inl (.inl rfl)
  · exact .inl (keepsCpl_raise hm _ _)

/-- A command whose body is one update that keeps `CPL`. -/
theorem gated_next_keepsCpl {i : Instr} {s t u : State} (h : gated i s (.next u) = .next t) (hu : u.cpl = s.cpl) :
    CplOutcome i s t :=
  gated_cpl h fun _ hb => by cases hb; exact .inl (.inl hu)

/-- A command whose body is one update that clears `CPL`. -/
theorem gated_next_clearsCpl {i : Instr} {s t u : State} (h : gated i s (.next u) = .next t) (hu : u.cpl = false)
    (hi : MayClearCpl i) : CplOutcome i s t :=
  gated_cpl h fun _ hb => by cases hb; exact .inr (.inr ⟨hu, hi⟩)

theorem execCtAppend_cpl {a : Byte} {c : Bits} {s t : State} (h : execCtAppend a c s = .next t) :
    CplOutcome (.ctAppend a c) s t := by
  refine gated_cpl h fun hl hb => ?_
  have hm : s.mode = .idle := by simpa [legalModes] using hl
  split_ifs at hb <;> cases hb
  · exact .inl (keepsCpl_raise (by simp [hm]) _ _)
  · exact .inl (.inl rfl)

theorem execTrBuild_cpl {s t : State} (h : execTrBuild s = .next t) : CplOutcome .trBuild s t := by
  refine gated_cpl h fun hl hb => ?_
  have hm : s.mode = .idle := by simpa [legalModes] using hl
  split at hb <;> cases hb
  · exact .inl (keepsCpl_raise (by simp [hm]) _ _)
  · exact .inl (.inl rfl)

theorem execPkSym_cpl {a : Byte} {s t : State} (h : execPkSym a s = .next t) : CplOutcome (.pkSym a) s t := by
  refine gated_cpl h fun hl hb => ?_
  have hm : s.mode = .pack := by simpa [legalModes] using hl
  split_ifs at hb <;> cases hb
  · exact .inl (keepsCpl_raise (by simp [hm]) _ _)
  · exact .inl (keepsCpl_raise (by simp [hm]) _ _)
  · exact .inl (.inl (appendBits_frame (codeOf s a) s .cpl (by decide)))

theorem execPkFlush_cpl {s t : State} (h : execPkFlush s = .next t) : CplOutcome .pkFlush s t := by
  refine gated_cpl h fun hl hb => ?_
  have hm : s.mode = .pack := by simpa [legalModes] using hl
  by_cases hbits : s.pkBitCnt = 0
  · rw [if_pos hbits] at hb
    cases hb
    exact .inl (keepsCpl_raise (by simp [hm]) _ _)
  · rw [if_neg hbits] at hb
    cases hb
    exact .inr (.inl ⟨⟨rfl, rfl⟩, .inl ⟨rfl, hm⟩⟩)

theorem execUpStart_cpl {s t : State} (h : execUpStart s = .next t) : CplOutcome .upStart s t := by
  refine gated_cpl h fun hl hb => ?_
  have hm : s.mode = .idle := by simpa [legalModes] using hl
  split_ifs at hb <;> cases hb
  · exact .inl (keepsCpl_raise (by simp [hm]) _ _)
  · exact .inl (keepsCpl_raise (by simp [hm]) _ _)
  · exact .inr (.inl ⟨⟨rfl, rfl⟩, .inr (.inl ⟨rfl, hm⟩)⟩)
  · exact .inr (.inr ⟨rfl, .inr (.inl rfl)⟩)

theorem execUpByte_cpl {b : Byte} {s t : State} (h : execUpByte b s = .next t) : CplOutcome (.upByte b) s t := by
  refine gated_cpl h fun hl hb => ?_
  have hm : s.mode = .unpack := by simpa [legalModes] using hl
  exact (walkBits_cpl_cases hm hb).imp_right fun hc => .inl ⟨hc, .inr (.inr ⟨b, rfl, hm⟩)⟩

theorem execUpEnd_cpl {s t : State} (h : execUpEnd s = .next t) : CplOutcome .upEnd s t := by
  refine gated_cpl h fun hl hb => ?_
  have hm : s.mode = .idle ∨ s.mode = .unpack := by simpa [legalModes] using hl
  split_ifs at hb <;> cases hb
  · exact .inl (.inl rfl)
  · exact .inl (keepsCpl_raise (by rcases hm with hm | hm <;> simp [hm]) _ _)

/-- Every command's effect on `CPL`. -/
theorem exec_cpl {i : Instr} {s t : State} (h : exec i s = .next t) : CplOutcome i s t := by
  cases i with
  | nop => exact gated_next_keepsCpl h rfl
  | abort => exact gated_next_clearsCpl h rfl (.inr (.inr rfl))
  | clearTables => exact gated_next_keepsCpl h rfl
  | ctClr a => exact gated_next_keepsCpl h rfl
  | ctAppend a bits => exact execCtAppend_cpl h
  | trBuild => exact execTrBuild_cpl h
  | trLeaf idx a => exact gated_next_keepsCpl h rfl
  | trInner idx l r => exact gated_next_keepsCpl h rfl
  | trRoot idx => exact gated_next_keepsCpl h rfl
  | pkStart => exact gated_next_clearsCpl h rfl (.inl rfl)
  | pkSym a => exact execPkSym_cpl h
  | pkFlush => exact execPkFlush_cpl h
  | upLenLo n => exact gated_next_keepsCpl h rfl
  | upLenHi n => exact gated_next_keepsCpl h rfl
  | upStart => exact execUpStart_cpl h
  | upByte b => exact execUpByte_cpl h
  | upEnd => exact execUpEnd_cpl h

/-- Settles O44: `CPL` is kept, cleared by an error entry, set by a completion, or cleared by a command that may. -/
theorem completionFlagChanges : Obligations.CompletionFlagChanges := by
  intro i s t h
  obtain (hkeep | ⟨hm, herr, hclr⟩) | ⟨⟨hidle, hset⟩, hi⟩ | ⟨hclr, hi⟩ := exec_cpl h
  · exact ⟨by simp_all, by simp_all⟩
  · exact ⟨by simp_all, fun _ _ => .inr (.inr (.inr ⟨hm, herr⟩))⟩
  · exact ⟨fun _ _ => ⟨hidle, hi⟩, by simp_all⟩
  · exact ⟨by simp_all, fun _ _ => hi.imp_right (Or.imp_right .inl)⟩

end Sys2Proof.Machine
end

section
/-! SUPPORT. What a legal word decodes to: a well-formed command whose row carries the word's `OP`
(30_encoding.md R83, R85). -/

namespace Sys2Proof

theorem decodeN_ok {w : Word} {i j : Instr} (h : decodeN w i = .ok j) : j = i := by
  unfold decodeN at h
  split_ifs at h
  cases h
  rfl

theorem decodeS_ok {w : Word} {mk : Byte → Instr} {j : Instr} (h : decodeS w mk = .ok j) : j = mk (sField w) := by
  unfold decodeS at h
  split_ifs at h
  cases h
  rfl

theorem decodeB_ok {w : Word} {j : Instr} (h : decodeB w = .ok j) :
    j = .ctAppend (sField w) (appendedBits ((aField w).toNat + 1) (immField w)) := by
  unfold decodeB at h
  simp only at h
  split_ifs at h
  cases h
  rfl

theorem decodeT_ok {w : Word} {j : Instr} (h : decodeT w = .ok j) :
    idxField w ≠ nilIdx ∧
      (j = .trInner (idxField w) (leftField w) (rightField w) ∨ j = .trLeaf (idxField w) (w.extractLsb' 0 8)) := by
  unfold decodeT at h
  split_ifs at h with hnil hk hz <;> cases h
  · exact ⟨hnil, .inl rfl⟩
  · exact ⟨hnil, .inr rfl⟩

theorem decodeR_ok {w : Word} {j : Instr} (h : decodeR w = .ok j) :
    rightField w ≠ nilIdx ∧ j = .trRoot (rightField w) := by
  unfold decodeR at h
  split_ifs at h with hz hnil
  cases h
  exact ⟨hnil, rfl⟩

theorem decodeH_ok {w : Word} {j : Instr} (h : decodeH w = .ok j) :
    j = .upLenLo (immField w) ∨ j = .upLenHi (immField w) := by
  unfold decodeH at h
  split_ifs at h <;> cases h
  · exact .inl rfl
  · exact .inr rfl

theorem ctAppend_appendedBits_wf (s : Byte) (a : BitVec 4) (imm : Half) :
    (Instr.ctAppend s (appendedBits (a.toNat + 1) imm)).wf = true := by
  have hlt := a.isLt
  simp [Instr.wf, appendedBits]
  omega

/-- A legal word's command is well-formed, and the word has the `OP` of its row. -/
theorem decode_ok {w : Word} {i : Instr} (h : decode w = .ok i) :
    i.wf = true ∧ opField w = opField i.row.value := by
  have hop : ∀ v : Word, (opField w).toNat = (opField v).toNat → opField w = opField v :=
    fun _ => BitVec.eq_of_toNat_eq
  unfold decode at h
  split at h
  case h_1 he => cases decodeN_ok h; exact ⟨rfl, hop 0x00000000 he⟩
  case h_2 he => cases decodeN_ok h; exact ⟨rfl, hop 0x10000000 he⟩
  case h_3 he => cases decodeN_ok h; exact ⟨rfl, hop 0x20000000 he⟩
  case h_4 he => cases decodeS_ok h; exact ⟨rfl, hop 0x30000000 he⟩
  case h_5 he => cases decodeB_ok h; exact ⟨ctAppend_appendedBits_wf _ _ _, hop 0x40000000 he⟩
  case h_6 he => cases decodeN_ok h; exact ⟨rfl, hop 0x50000000 he⟩
  case h_7 he =>
    obtain ⟨hnil, rfl | rfl⟩ := decodeT_ok h
    · exact ⟨bne_iff_ne.mpr hnil, hop 0x68000000 he⟩
    · exact ⟨bne_iff_ne.mpr hnil, hop 0x60000000 he⟩
  case h_8 he =>
    obtain ⟨hnil, rfl⟩ := decodeR_ok h
    exact ⟨bne_iff_ne.mpr hnil, hop 0x70000000 he⟩
  case h_9 he => cases decodeN_ok h; exact ⟨rfl, hop 0x80000000 he⟩
  case h_10 he => cases decodeS_ok h; exact ⟨rfl, hop 0x90000000 he⟩
  case h_11 he => cases decodeN_ok h; exact ⟨rfl, hop 0xA0000000 he⟩
  case h_12 he =>
    obtain rfl | rfl := decodeH_ok h
    · exact ⟨rfl, hop 0xB0000000 he⟩
    · exact ⟨rfl, hop 0xB1000000 he⟩
  case h_13 he => cases decodeN_ok h; exact ⟨rfl, hop 0xC0000000 he⟩
  case h_14 he => cases decodeS_ok h; exact ⟨rfl, hop 0xD0000000 he⟩
  case h_15 he => cases decodeN_ok h; exact ⟨rfl, hop 0xE0000000 he⟩
  case h_16 => cases h

end Sys2Proof

namespace Sys2Proof.Machine

/-- A word that is not held leaves the queue room for all its command may emit (30_encoding.md R88). -/
theorem room_of_not_held {w : Word} {i : Instr} {s : State} (hd : decode w = .ok i) (hh : held w s = false)
    (hq : s.outq.length ≤ s.cfg.outDepth) : s.outq.length + mayEmit i ≤ s.cfg.outDepth := by
  obtain ⟨-, hop⟩ := decode_ok hd
  have hdepth := s.cfg.atLeast
  rw [held, hop] at hh
  cases i with
  | pkSym a =>
    have hroom : s.outq.length ≤ s.cfg.outDepth - 32 := by simpa [Instr.row, opField] using hh
    simp only [mayEmit]
    omega
  | upByte b =>
    have hroom : s.outq.length ≤ s.cfg.outDepth - 8 := by simpa [Instr.row, opField] using hh
    simp only [mayEmit]
    omega
  | pkFlush =>
    have hroom : s.outq.length ≤ s.cfg.outDepth - 1 := by simpa [Instr.row, opField] using hh
    simp only [mayEmit]
    omega
  | _ => exact hq

end Sys2Proof.Machine
end

section
/-! SUPPORT. The bit buffer and what is emitted (10_state.md R32; 43_pack.md R142, R143): how many bits are held and
emitted, and that the places of `ACC` not yet filled stay zero. -/

namespace Sys2Proof.Machine

/-! ### Counting bits -/

theorem appendBit_bitCount (b : Bool) (s : State) :
    8 * (appendBit b s).outq.length + (appendBit b s).accN.toNat = 8 * s.outq.length + s.accN.toNat + 1 := by
  by_cases h : s.accN = 7
  · simp [appendBit_of_full b h, h]
    omega
  · have hlt := s.accN.isLt
    have hne : s.accN.toNat ≠ 7 := fun he => h (BitVec.eq_of_toNat_eq he)
    simp [appendBit_of_room b h, BitVec.toNat_add]
    omega

/-- Bits emitted and bits held grow by the bits appended. -/
theorem appendBits_bitCount (bits : Bits) (s : State) :
    8 * (appendBits bits s).outq.length + (appendBits bits s).accN.toNat =
      8 * s.outq.length + s.accN.toNat + bits.length := by
  induction bits generalizing s with
  | nil => rfl
  | cons b rest ih =>
    have hb := appendBit_bitCount b s
    have hr := ih (appendBit b s)
    simp only [appendBits, List.length_cons]
    omega

/-! ### The places not yet filled -/

/-- A number is a multiple of 2^k when its low k bits are 0. -/
theorem mod_two_pow_eq_zero_iff {n k : Nat} : n % 2 ^ k = 0 ↔ ∀ j < k, n.testBit j = false := by
  constructor
  · intro h j hj
    have hbit : (n % 2 ^ k).testBit j = n.testBit j := by simp [Nat.testBit_mod_two_pow, hj]
    rw [← hbit, h, Nat.zero_testBit]
  · intro h
    refine Nat.eq_of_testBit_eq fun j => ?_
    by_cases hj : j < k
    · simp [Nat.testBit_mod_two_pow, h j hj]
    · simp [Nat.testBit_mod_two_pow, hj]

theorem setBit_getLsbD_below (v : Byte) {i j : Nat} (b : Bool) (h : j < i) :
    (setBit v i b).getLsbD j = v.getLsbD j := by
  have hone : (1#8 <<< i).getLsbD j = false := by simp [BitVec.getLsbD_shiftLeft, h]
  cases b
  · by_cases hj : j < 8
    · simp only [setBit, Bool.false_eq_true, if_false, BitVec.getLsbD_and, BitVec.getLsbD_not, hone, hj]
      simp
    · rw [BitVec.getLsbD_of_ge _ _ (Nat.le_of_not_lt hj), BitVec.getLsbD_of_ge _ _ (Nat.le_of_not_lt hj)]
  · simp only [setBit, if_true, BitVec.getLsbD_or, hone, Bool.or_false]

/-- Filling a place keeps the places below it zero. -/
theorem setBit_mod {v : Byte} {i : Nat} (b : Bool) (h : v.toNat % 2 ^ (i + 1) = 0) :
    (setBit v i b).toNat % 2 ^ i = 0 := by
  rw [mod_two_pow_eq_zero_iff] at h ⊢
  intro j hj
  rw [BitVec.testBit_toNat, setBit_getLsbD_below v b hj, ← BitVec.testBit_toNat, h j (Nat.lt_succ_of_lt hj)]

/-- The places of `ACC` not yet filled are zero (R32). -/
def AccZeros (s : State) : Prop := s.acc.toNat % 2 ^ (8 - s.accN.toNat) = 0

theorem appendBit_accZeros (b : Bool) {s : State} (h : AccZeros s) : AccZeros (appendBit b s) := by
  by_cases hn : s.accN = 7
  · simp [AccZeros, appendBit_of_full b hn]
  · have hlt := s.accN.isLt
    have hne : s.accN.toNat ≠ 7 := fun he => hn (BitVec.eq_of_toNat_eq he)
    have hnext : (s.accN + 1).toNat = s.accN.toNat + 1 := by
      rw [BitVec.toNat_add]
      simp
      omega
    rw [appendBit_of_room b hn]
    show (setBit s.acc (7 - s.accN.toNat) b).toNat % 2 ^ (8 - (s.accN + 1).toNat) = 0
    rw [hnext, Nat.succ_sub_succ 7]
    exact setBit_mod b (by rwa [show 7 - s.accN.toNat + 1 = 8 - s.accN.toNat by omega])

theorem appendBits_accZeros (bits : Bits) {s : State} (h : AccZeros s) : AccZeros (appendBits bits s) := by
  induction bits generalizing s with
  | nil => exact h
  | cons b rest ih => exact ih (appendBit_accZeros b h)

/-! ### Codes and walked bits -/

/-- A code of a well-formed table has at most 255 bits (R24). -/
theorem ctLen_le_maxLen {s : State} (h : codeTableWf s) (a : Byte) : ctLen s a ≤ maxLen := by
  unfold ctLen codeOf
  cases hr : Memory.read s.ct a.toNat with
  | none => simp
  | some c => exact (h.2 _ (Memory.mem_of_read hr)).2

@[simp] theorem byteBits_length (b : Byte) : (byteBits b).length = 8 := by simp [byteBits]

/-- The end check emits nothing. -/
@[simp] theorem endCheck_outq (s : State) : (endCheck s).outq = s.outq :=
  endCheck_frame (List.Subset.refl _) s .outq (by decide)

/-- A walked bit emits at most one byte (44_unpack.md R167). -/
theorem walkBit_outq_length {b : Bool} {s t : State} (h : walkBit b s = .next t) :
    t.outq.length ≤ s.outq.length + 1 := by
  obtain ⟨a, -, -, rfl⟩ | ⟨a, -, -, rfl⟩ | ⟨l, r, -, -, rfl⟩ | ⟨l, r, a, -, -, rfl⟩ | ⟨l, r, l', r', -, -, rfl⟩ :=
    walkBit_cases h <;> simp

/-! ### The built arena -/

theorem setChild_wf {m : List (Nat × Node)} (h : Memory.wf nnode m) (p : NodeIdx) (b : Bool) (c : NodeIdx) :
    Memory.wf nnode (setChild m p b c) := by
  unfold setChild
  split
  · exact wf_writeNode h _ _
  · exact h

theorem attach_wf {t : Building} (h : Memory.wf nnode t.arena) (p : NodeIdx) (b : Bool) (n : Node) :
    Memory.wf nnode (t.attach p b n).arena :=
  setChild_wf (wf_writeNode h _ _) _ _ _

theorem insertCode_wf (a : Byte) (code : Bits) (p : NodeIdx) {t : Building} (h : Memory.wf nnode t.arena) :
    Memory.wf nnode (insertCode a code p t).arena := by
  induction code generalizing p t with
  | nil => exact h
  | cons b rest ih =>
    cases rest with
    | nil => exact attach_wf h _ _ _
    | cons b' rest' =>
      simp only [insertCode]
      split
      · exact ih _ (attach_wf h _ _ _)
      · exact ih _ h

theorem insertAll_wf (ct : List (Nat × Bits)) {t : Building} (h : Memory.wf nnode t.arena) :
    Memory.wf nnode (insertAll ct t).arena := by
  induction ct generalizing t with
  | nil => exact h
  | cons e rest ih => exact ih (insertCode_wf _ _ _ h)

theorem wf_single (n : Node) : Memory.wf nnode [(0, n)] := by simp [Memory.wf, nnode]

/-- A built arena is in canonical form, whatever the table (10_state.md R28; 42_tree.md R123). -/
theorem buildArena_wf (ct : List (Nat × Bits)) : Memory.wf nnode (buildArena ct) := by
  unfold buildArena
  split
  · exact wf_single _
  · exact insertAll_wf ct (wf_single _)

end Sys2Proof.Machine
end

section
/-! SUPPORT. The invariant `Inv`: the part of it that no mode conditions, how it is established in each mode, and that
every operation, command, accepted word and step keeps it. -/

namespace Sys2Proof.Machine

/-! ### Establishing the invariant, by mode -/

/-- The clauses of the invariant that hold in every mode. -/
structure Base (s : State) : Prop where
  codeTable : codeTableWf s
  arena     : Memory.wf nnode s.arena
  rootIdx   : s.root ≠ nilIdx
  curIdx    : s.cur ≠ nilIdx
  queue     : s.outq.length ≤ s.cfg.outDepth
  accZeros  : AccZeros s

/-- No error is recorded. -/
structure NoError (s : State) : Prop where
  err     : s.err = .none
  errMode : s.errMode = .idle
  errInfo : s.errInfo = 0

theorem Inv.base {s : State} (h : Inv s) : Base s :=
  ⟨h.codeTable, h.arena, h.rootIdx, h.curIdx, h.queue, h.accZeros⟩

theorem Inv.noError {s : State} (h : Inv s) (hm : s.mode ≠ .error) : NoError s := by
  have herr : s.err = .none := by
    by_contra he
    exact hm (h.errorMode.mpr he)
  obtain ⟨hmode, hinfo⟩ := h.noRecord herr
  exact ⟨herr, hmode, hinfo⟩

theorem Inv.cpl_eq_false {s : State} (h : Inv s) (hm : s.mode ≠ .idle) : s.cpl = false := by
  by_contra hc
  exact hm (h.completed (by simpa using hc))

theorem NoError.errorMode {s : State} (he : NoError s) (hm : s.mode ≠ .error) : s.mode = .error ↔ s.err ≠ .none := by
  simp [hm, he.err]

theorem NoError.recorded {s : State} (he : NoError s) : s.errMode ≠ .error := by simp [he.errMode]

theorem NoError.noRecord {s : State} (he : NoError s) : s.err = .none → s.errMode = .idle ∧ s.errInfo = 0 :=
  fun _ => ⟨he.errMode, he.errInfo⟩

theorem Base.inv_idle {s : State} (hb : Base s) (he : NoError s) (hm : s.mode = .idle) (hn : s.accN = 0)
    (hr : s.upRemain = 0) (hmid : s.midcode = false) : Inv s :=
  { hb with
    errorMode := he.errorMode (by simp [hm])
    recorded := he.recorded
    noRecord := he.noRecord
    completed := fun _ => hm
    accIdle := fun _ => hn
    walkIdle := fun _ => ⟨hr, hmid⟩
    packing := by simp [hm]
    walking := by simp [hm] }

theorem Base.inv_pack {s : State} (hb : Base s) (he : NoError s) (hm : s.mode = .pack) (hc : s.cpl = false)
    (hr : s.upRemain = 0) (hmid : s.midcode = false) (hp : PackInv s) : Inv s :=
  { hb with
    errorMode := he.errorMode (by simp [hm])
    recorded := he.recorded
    noRecord := he.noRecord
    completed := by simp [hc]
    accIdle := by simp [hm]
    walkIdle := fun _ => ⟨hr, hmid⟩
    packing := fun _ => hp
    walking := by simp [hm] }

theorem Base.inv_unpack {s : State} (hb : Base s) (he : NoError s) (hm : s.mode = .unpack) (hc : s.cpl = false)
    (hn : s.accN = 0) (hw : WalkInv s) : Inv s :=
  { hb with
    errorMode := he.errorMode (by simp [hm])
    recorded := he.recorded
    noRecord := he.noRecord
    completed := by simp [hc]
    accIdle := fun _ => hn
    walkIdle := by simp [hm]
    packing := by simp [hm]
    walking := fun _ => hw }

/-- The error entry asks nothing of the session it ends (60_exceptions.md R195). -/
theorem Base.inv_raise {s : State} {e : ErrCode} (hb : Base s) (hm : s.mode ≠ .error) (he : e ≠ .none)
    (info : Word) : Inv (raise e info s) :=
  { hb with
    errorMode := by simp [he]
    recorded := hm
    noRecord := fun h => absurd h he
    completed := by simp
    accIdle := by simp
    walkIdle := by simp
    packing := by simp
    walking := by simp }

/-! ### The host's side -/

/-- The invariant does not read `env`, and a shorter queue keeps it. -/
theorem Inv.host {s : State} (h : Inv s) {q : List Byte} (hq : q.length ≤ s.outq.length) (e : Env) :
    Inv { s with outq := q, env := e } :=
  { h with
    queue := Nat.le_trans hq h.queue
    packing := fun hm => { h.packing hm with }
    walking := fun hm => { h.walking hm with } }

/-! ### The control and configuration commands -/

theorem gated_inv {i : Instr} {s t : State} {body : Result} (hs : Inv s) (h : gated i s body = .next t)
    (hbody : s.mode ∈ legalModes i → body = .next t → Inv t) : Inv t := by
  obtain ⟨hl, hb⟩ | ⟨-, -, rfl⟩ | ⟨-, hm, rfl⟩ := gated_cases h
  · exact hbody hl hb
  · exact hs
  · exact hs.base.inv_raise hm (by simp) _

/-- `ABORT` restores the invariant's IDLE clauses from any mode (40_control.md R101). -/
theorem abort_inv {s : State} (hs : Inv s) : Inv (abort s) :=
  have hb : Base (abort s) := { hs.base with curIdx := hs.rootIdx, accZeros := by simp [AccZeros] }
  hb.inv_idle ⟨rfl, rfl, rfl⟩ rfl rfl rfl rfl

/-- In IDLE the tables, the root and `UP_BITLEN` may change freely within their own form. -/
theorem Inv.configure {s t : State} (hs : Inv s) (hm : s.mode = .idle)
    (hf : frame [.treeValid, .codeTable, .arena, .root, .upBitLen] s t) (hb : Base t) : Inv t := by
  have he := hs.noError (by simp [hm])
  obtain ⟨hrem, hmid⟩ := hs.walkIdle (.inl hm)
  refine hb.inv_idle ⟨?_, ?_, ?_⟩ ?_ ?_ ?_ ?_
  · exact Eq.trans (hf .err (by decide)) he.err
  · exact Eq.trans (hf .errMode (by decide)) he.errMode
  · exact Eq.trans (hf .errInfo (by decide)) he.errInfo
  · exact Eq.trans (hf .mode (by decide)) hm
  · exact Eq.trans (hf .accN (by decide)) (hs.accIdle (.inl hm))
  · exact Eq.trans (hf .upRemain (by decide)) hrem
  · exact Eq.trans (hf .midcode (by decide)) hmid

/-- A command legal in IDLE alone whose body is one change of the configuration. -/
theorem gated_configure_inv {i : Instr} {s t u : State} (hs : Inv s) (h : gated i s (.next u) = .next t)
    (hi : legalModes i = [.idle]) (hf : frame [.treeValid, .codeTable, .arena, .root, .upBitLen] s u) (hb : Base u) :
    Inv t :=
  gated_inv hs h fun hl hu => by
    cases hu
    exact hs.configure (by simpa [hi] using hl) hf hb

theorem setCode_base {s : State} (hb : Base s) (a : Byte) {c : Bits} (hc : c.length ≤ maxLen) :
    Base (setCode a c s) :=
  { hb with codeTable := codeTableWf_setCode hb.codeTable a hc }

theorem setNode_base {s : State} (hb : Base s) (idx : NodeIdx) (n : Node) : Base (setNode idx n s) :=
  { hb with arena := wf_writeNode hb.arena idx n }

theorem clearArena_base {s : State} (hb : Base s) : Base (clearArena s) :=
  { hb with arena := Memory.wf_nil _, rootIdx := by simp [nilIdx] }

theorem clearTables_base {s : State} (hb : Base s) : Base (clearArena { s with ct := [] }) :=
  clearArena_base { hb with codeTable := ⟨Memory.wf_nil _, by simp⟩ }

theorem execCtAppend_inv {a : Byte} {c : Bits} {s t : State} (hs : Inv s) (h : execCtAppend a c s = .next t) :
    Inv t := by
  refine gated_inv hs h fun hl hb => ?_
  have hm : s.mode = .idle := by simpa [legalModes] using hl
  split_ifs at hb with hlen <;> cases hb
  · exact hs.base.inv_raise (by simp [hm]) (by simp) _
  · refine hs.configure hm (by simp [frame_iff]) (setCode_base hs.base a ?_)
    rw [List.length_append]
    exact Nat.le_of_not_lt hlen

theorem execTrBuild_inv {s t : State} (hs : Inv s) (h : execTrBuild s = .next t) : Inv t := by
  refine gated_inv hs h fun hl hb => ?_
  have hm : s.mode = .idle := by simpa [legalModes] using hl
  have hclear : Base (clearArena s) := clearArena_base hs.base
  split at hb <;> cases hb
  · exact hclear.inv_raise (by simp [hm]) (by simp) _
  · exact hs.configure hm (by simp [frame_iff]) { hclear with arena := buildArena_wf s.ct }

/-! ### Counters -/

theorem toNat_pos_of_ne_zero {v : Word} (h : v ≠ 0) : 0 < v.toNat :=
  Nat.pos_of_ne_zero fun h0 => h (BitVec.eq_of_toNat_eq h0)

theorem toNat_add_one {v : Word} (h : v.toNat + 1 < 2 ^ 32) : (v + 1).toNat = v.toNat + 1 :=
  BitVec.toNat_add_of_lt h

/-! ### The pack commands -/

theorem execPkStart_inv {s t : State} (hs : Inv s) (h : execPkStart s = .next t) : Inv t := by
  refine gated_inv hs h fun hl hb => ?_
  have hm : s.mode = .idle := by simpa [legalModes] using hl
  obtain ⟨hrem, hmid⟩ := hs.walkIdle (.inl hm)
  cases hb
  have hbase : Base { s with acc := 0, accN := 0, pkBitCnt := 0, symCnt := 0, cpl := false, mode := .pack } :=
    { hs.base with accZeros := by simp [AccZeros] }
  exact hbase.inv_pack { hs.noError (by simp [hm]) with } rfl rfl hrem hmid ⟨rfl, Nat.le_refl _, fun _ => rfl⟩

/-- The counters of a pack session do not wrap at a symbol within the bound of R144: no more symbols than bits. -/
theorem PackInv.counters {s : State} (hp : PackInv s) {n : Nat} (hn : n ≠ 0)
    (hcnt : s.pkBitCnt.toNat + n ≤ cntMax) :
    (s.pkBitCnt + BitVec.ofNat 32 n).toNat = s.pkBitCnt.toNat + n ∧ (s.symCnt + 1).toNat = s.symCnt.toNat + 1 := by
  have hcounted := hp.counted
  rw [show cntMax = 4294967295 from rfl] at hcnt
  refine ⟨?_, toNat_add_one (by omega)⟩
  rw [BitVec.toNat_add, BitVec.toNat_ofNat]
  omega

/-- A code of 1 to 255 bits packed: the session's counters do not wrap (43_pack.md R144) and stay in step with the
buffer, and 32 bytes of room hold what is emitted. -/
theorem packSymbol_inv {s : State} {a : Byte} (hs : Inv s) (hm : s.mode = .pack) (hlen : ctLen s a ≠ 0)
    (hcnt : s.pkBitCnt.toNat + ctLen s a ≤ cntMax) (hroom : s.outq.length + 32 ≤ s.cfg.outDepth) :
    Inv (countSymbol (ctLen s a) (appendBits (codeOf s a) s)) := by
  obtain ⟨hbitCnt, hsymCnt⟩ := (hs.packing hm).counters hlen hcnt
  obtain ⟨hpart, hcounted, -⟩ := hs.packing hm
  obtain ⟨hrem, hmid⟩ := hs.walkIdle (.inr hm)
  have hmax : ctLen s a ≤ 255 := ctLen_le_maxLen hs.codeTable a
  have hbits := appendBits_bitCount (codeOf s a) s
  have hzeros : AccZeros (appendBits (codeOf s a) s) := appendBits_accZeros _ hs.accZeros
  obtain ⟨acc, n, q, hu⟩ := appendBits_eq (codeOf s a) s
  rw [hu] at hbits hzeros ⊢
  change 8 * q.length + n.toNat = 8 * s.outq.length + s.accN.toNat + ctLen s a at hbits
  have hn := n.isLt
  have hbase : Base (countSymbol (ctLen s a) { s with acc := acc, accN := n, outq := q }) :=
    { hs.base with
      queue := show q.length ≤ s.cfg.outDepth by omega
      accZeros := hzeros }
  refine hbase.inv_pack { hs.noError (by simp [hm]) with } hm (hs.cpl_eq_false (by simp [hm])) hrem hmid ⟨?_, ?_, ?_⟩
  · show n.toNat = (s.pkBitCnt + BitVec.ofNat 32 (ctLen s a)).toNat % 8
    omega
  · show (s.symCnt + 1).toNat ≤ (s.pkBitCnt + BitVec.ofNat 32 (ctLen s a)).toNat
    omega
  · intro h0
    have hz : (s.symCnt + 1).toNat = 0 := congrArg BitVec.toNat h0
    omega

theorem execPkSym_inv {a : Byte} {s t : State} (hs : Inv s) (hroom : s.outq.length + 32 ≤ s.cfg.outDepth)
    (h : execPkSym a s = .next t) : Inv t := by
  refine gated_inv hs h fun hl hb => ?_
  have hm : s.mode = .pack := by simpa [legalModes] using hl
  split_ifs at hb with hlen hcnt <;> cases hb
  · exact hs.base.inv_raise (by simp [hm]) (by simp) _
  · exact hs.base.inv_raise (by simp [hm]) (by simp) _
  · exact packSymbol_inv hs hm hlen (Nat.le_of_not_lt hcnt) hroom

theorem execPkFlush_inv {s t : State} (hs : Inv s) (hroom : s.outq.length + 1 ≤ s.cfg.outDepth)
    (h : execPkFlush s = .next t) : Inv t := by
  refine gated_inv hs h fun hl hb => ?_
  have hm : s.mode = .pack := by simpa [legalModes] using hl
  have he : NoError s := hs.noError (by simp [hm])
  obtain ⟨hrem, hmid⟩ := hs.walkIdle (.inr hm)
  split_ifs at hb with hbits hpart <;> cases hb
  · exact hs.base.inv_raise (by simp [hm]) (by simp) _
  · have hb : Base (complete { s with acc := 0, accN := 0 }) := { hs.base with accZeros := by simp [AccZeros] }
    exact hb.inv_idle { he with } rfl rfl hrem hmid
  · have hb : Base (complete { emit s.acc s with acc := 0, accN := 0 }) :=
      { hs.base with accZeros := by simp [AccZeros], queue := by simpa using hroom }
    exact hb.inv_idle { he with } rfl rfl hrem hmid

/-! ### The unpack commands -/

theorem execUpStart_inv {s t : State} (hs : Inv s) (h : execUpStart s = .next t) : Inv t := by
  refine gated_inv hs h fun hl hb => ?_
  have hm : s.mode = .idle := by simpa [legalModes] using hl
  have he : NoError s := hs.noError (by simp [hm])
  have hn : s.accN = 0 := hs.accIdle (.inl hm)
  have hopen : Base (openUnpack s) := { hs.base with curIdx := hs.rootIdx }
  split_ifs at hb with hvalid hroot hlen <;> cases hb
  · exact hs.base.inv_raise (by simp [hm]) (by simp) _
  · exact hs.base.inv_raise (by simp [hm]) (by simp) _
  · have hb : Base (complete (openUnpack s)) := { hopen with }
    exact hb.inv_idle { he with } rfl hn hlen rfl
  · refine hopen.inv_unpack { he with } rfl rfl hn ?_
    exact
      { tree := by simpa using hvalid
        rootNode := hroot
        curNode := hroot
        curLeaf := fun _ _ => rfl
        boundary := fun _ => rfl
        bitsLeft := toNat_pos_of_ne_zero hlen
        inLength := Nat.le_refl _
        counted := Nat.zero_le _ }

/-- The end check keeps the invariant where the walk stands right if bits are left (44_unpack.md R166). -/
theorem endCheck_inv {u : State} (hb : Base u) (he : NoError u) (hm : u.mode = .unpack) (hc : u.cpl = false)
    (hn : u.accN = 0) (hw : u.upRemain ≠ 0 → WalkInv u) : Inv (endCheck u) := by
  obtain ⟨hrem, h⟩ | ⟨-, -, h⟩ | ⟨hrem, hmid, h⟩ := endCheck_cases u <;> rw [h]
  · exact hb.inv_unpack he hm hc hn (hw hrem)
  · exact hb.inv_raise (by simp [hm]) (by simp) _
  · have hb' : Base (complete u) := { hb with }
    exact hb'.inv_idle { he with } rfl hn hrem hmid

/-- Where a walk in the tree of `s` may stand: at a node, at a LEAF only if that is the root, and at the root where a
code begins (44_unpack.md R167). -/
structure StandsAt (s : State) (cur : NodeIdx) (mid : Bool) : Prop where
  node     : nodeAt s cur ≠ none
  leaf     : ∀ a, nodeAt s cur = some (.leaf a) → cur = s.root
  boundary : mid = false → cur = s.root

theorem WalkInv.standsAt {s : State} (hw : WalkInv s) : StandsAt s s.cur s.midcode :=
  ⟨hw.curNode, hw.curLeaf, hw.boundary⟩

theorem WalkInv.standsAt_root {s : State} (hw : WalkInv s) (mid : Bool) : StandsAt s s.root mid :=
  ⟨hw.rootNode, fun _ _ => rfl, fun _ => rfl⟩

theorem standsAt_inner {s : State} {i l r : NodeIdx} (h : nodeAt s i = some (.inner l r)) : StandsAt s i true :=
  ⟨by simp [h], by simp [h], by simp⟩

theorem StandsAt.ne_nilIdx {s : State} {cur : NodeIdx} {mid : Bool} (h : StandsAt s cur mid) : cur ≠ nilIdx := by
  rintro rfl
  exact h.node (nodeIn_nilIdx _)

/-- A bit consumed in an open session: bits left and symbols counted stay within the stream, and `SYMCNT` does not wrap
(10_state.md R33). -/
theorem WalkInv.consume {s : State} (hw : WalkInv s) {cnt : Word} (hcnt : cnt = s.symCnt ∨ cnt = s.symCnt + 1) :
    (s.upRemain - 1).toNat ≤ s.upBitLen.toNat ∧ cnt.toNat ≤ s.upBitLen.toNat - (s.upRemain - 1).toNat := by
  have hpos := hw.bitsLeft
  have hle := hw.inLength
  have hcounted := hw.counted
  have hlt := s.upBitLen.isLt
  have hrem : (s.upRemain - 1).toNat = s.upRemain.toNat - 1 := BitVec.toNat_sub_of_le hpos
  have hmax : cnt.toNat ≤ s.symCnt.toNat + 1 := by
    rcases hcnt with rfl | rfl
    · exact Nat.le_succ _
    · exact (toNat_add_one (by omega)).le
  omega

/-- A bit walked to a place where a walk may stand, with what it emitted in the queue. -/
theorem walked_inv {s : State} (hs : Inv s) (hm : s.mode = .unpack) {cur : NodeIdx} {mid : Bool} {cnt : Word}
    {q : List Byte} (hp : StandsAt s cur mid) (hcnt : cnt = s.symCnt ∨ cnt = s.symCnt + 1)
    (hq : q.length ≤ s.cfg.outDepth) :
    Inv (endCheck { s with upRemain := s.upRemain - 1, cur := cur, midcode := mid, symCnt := cnt, outq := q }) := by
  have hw : WalkInv s := hs.walking hm
  obtain ⟨hlen, hcounted⟩ := hw.consume hcnt
  refine endCheck_inv { hs.base with queue := hq, curIdx := hp.ne_nilIdx } { hs.noError (by simp [hm]) with } hm
    (hs.cpl_eq_false (by simp [hm])) (hs.accIdle (.inr hm)) fun hr => ?_
  exact
    { tree := hw.tree
      rootNode := hw.rootNode
      curNode := hp.node
      curLeaf := hp.leaf
      boundary := hp.boundary
      bitsLeft := toNat_pos_of_ne_zero hr
      inLength := hlen
      counted := hcounted }

/-- A walked bit keeps the invariant when the queue has room for one byte (44_unpack.md R167). -/
theorem walkBit_inv {b : Bool} {s t : State} (hs : Inv s) (hm : s.mode = .unpack)
    (hroom : s.outq.length + 1 ≤ s.cfg.outDepth) (h : walkBit b s = .next t) : Inv t := by
  have hw : WalkInv s := hs.walking hm
  have hb : Base (consumeBit s) := { hs.base with }
  have hemit : ∀ a : Byte, (s.outq ++ [a]).length ≤ s.cfg.outDepth := by simpa using hroom
  obtain ⟨a, -, -, rfl⟩ | ⟨a, -, -, rfl⟩ | ⟨l, r, -, -, rfl⟩ | ⟨l, r, a, -, -, rfl⟩ | ⟨l, r, l', r', -, hchild, rfl⟩ :=
    walkBit_cases h
  · exact hb.inv_raise (by simp [hm]) (by simp) _
  · exact walked_inv hs hm hw.standsAt (.inr rfl) (hemit a)
  · exact hb.inv_raise (by simp [hm]) (by simp) _
  · have hinv := walked_inv hs hm (hw.standsAt_root false) (.inr rfl) (hemit a)
    exact hinv
  · exact walked_inv hs hm (standsAt_inner hchild) (.inl rfl) hs.queue

theorem walkBits_inv {bits : Bits} {s t : State} (hs : Inv s) (hm : s.mode = .unpack)
    (hroom : s.outq.length + bits.length ≤ s.cfg.outDepth) (h : walkBits bits s = .next t) : Inv t := by
  induction bits generalizing s with
  | nil => cases h; exact hs
  | cons b rest ih =>
    rw [List.length_cons] at hroom
    obtain ⟨u, hu, hnext⟩ := walkBits_cons.mp h
    have hinv : Inv u := walkBit_inv hs hm (by omega) hu
    obtain ⟨hopen, hr⟩ | ⟨-, rfl⟩ := hnext
    · have hq := walkBit_outq_length hu
      have hcfg : u.cfg = s.cfg := walkBit_frame hu .cfg (by decide)
      exact ih hinv hopen (by rw [hcfg]; omega) hr
    · exact hinv

theorem execUpByte_inv {b : Byte} {s t : State} (hs : Inv s) (hroom : s.outq.length + 8 ≤ s.cfg.outDepth)
    (h : execUpByte b s = .next t) : Inv t := by
  refine gated_inv hs h fun hl hb => ?_
  have hm : s.mode = .unpack := by simpa [legalModes] using hl
  exact walkBits_inv hs hm (by rwa [byteBits_length]) hb

theorem execUpEnd_inv {s t : State} (hs : Inv s) (h : execUpEnd s = .next t) : Inv t := by
  refine gated_inv hs h fun hl hb => ?_
  have hm : s.mode = .idle ∨ s.mode = .unpack := by simpa [legalModes] using hl
  split_ifs at hb <;> cases hb
  · exact hs
  · exact hs.base.inv_raise (by rcases hm with hm | hm <;> simp [hm]) (by simp) _

/-! ### Commands, words and steps -/

/-- A well-formed command with room in the queue keeps the invariant. -/
theorem exec_inv {i : Instr} {s t : State} (hs : Inv s) (hwf : i.wf = true)
    (hroom : s.outq.length + mayEmit i ≤ s.cfg.outDepth) (h : exec i s = .next t) : Inv t := by
  cases i with
  | nop => cases (execNop_eq s).symm.trans h; exact hs
  | abort => exact gated_inv hs h fun _ hb => by cases hb; exact abort_inv hs
  | clearTables => exact gated_configure_inv hs h rfl (by simp [frame_iff]) (clearTables_base hs.base)
  | ctClr a => exact gated_configure_inv hs h rfl (by simp [frame_iff]) (setCode_base hs.base a (by simp))
  | ctAppend a bits => exact execCtAppend_inv hs h
  | trBuild => exact execTrBuild_inv hs h
  | trLeaf idx a => exact gated_configure_inv hs h rfl (by simp [frame_iff]) (setNode_base hs.base idx _)
  | trInner idx l r => exact gated_configure_inv hs h rfl (by simp [frame_iff]) (setNode_base hs.base idx _)
  | trRoot idx =>
    exact gated_configure_inv hs h rfl (by simp [frame_iff]) { hs.base with rootIdx := bne_iff_ne.mp hwf }
  | pkStart => exact execPkStart_inv hs h
  | pkSym a => exact execPkSym_inv hs hroom h
  | pkFlush => exact execPkFlush_inv hs hroom h
  | upLenLo n => exact gated_configure_inv hs h rfl (by simp [frame_iff]) { hs.base with }
  | upLenHi n => exact gated_configure_inv hs h rfl (by simp [frame_iff]) { hs.base with }
  | upStart => exact execUpStart_inv hs h
  | upByte b => exact execUpByte_inv hs hroom h
  | upEnd => exact execUpEnd_inv hs h

theorem takeTurn_inv {s : State} (hs : Inv s) : Inv (takeTurn s) := hs.host (Nat.le_refl _) _

theorem takeWord_inv {s : State} (hs : Inv s) : Inv (takeWord s) := hs.host (Nat.le_refl _) _

theorem accept_inv {w : Word} {s t : State} (hs : Inv s) (hh : held w s = false) (h : accept w s = .next t) :
    Inv t := by
  obtain ⟨i, hd, he⟩ | ⟨r, -, -, rfl⟩ | ⟨r, -, hm, rfl⟩ := accept_cases h
  · obtain ⟨hwf, -⟩ := decode_ok hd
    exact exec_inv hs hwf (room_of_not_held hd hh hs.queue) he
  · exact hs
  · exact hs.base.inv_raise hm (by simp) _

theorem offer_inv {s t : State} (hs : Inv s) (h : offer s = .next t) : Inv t := by
  obtain ⟨-, rfl⟩ | ⟨w, -, -, rfl⟩ | ⟨w, -, hh, ha⟩ := offer_cases h
  · exact hs
  · exact hs
  · exact accept_inv (takeWord_inv hs) hh ha

theorem hostPop_inv {s : State} (hs : Inv s) : Inv (hostPop s) := by
  obtain ⟨-, h⟩ | ⟨b, q, hq, h⟩ := hostPop_cases s <;> rw [h]
  · exact hs
  · exact hs.host (by simp [hq]) _

theorem hostReset_inv (s : State) : Inv (hostReset s) :=
  have hb : Base (hostReset s) :=
    { codeTable := ⟨Memory.wf_nil _, by simp⟩
      arena := Memory.wf_nil _
      rootIdx := by simp [nilIdx]
      curIdx := by simp [nilIdx]
      queue := Nat.zero_le _
      accZeros := by simp [AccZeros] }
  hb.inv_idle ⟨rfl, rfl, rfl⟩ rfl rfl rfl rfl

/-- Settles O46: by the turn a step takes; an accepted word's command is well-formed and has room in the queue. -/
theorem stepKeepsStateConsistent : Obligations.StepKeepsStateConsistent := by
  intro s t hs h
  have ht : Inv (takeTurn s) := takeTurn_inv hs
  obtain ⟨-, ho⟩ | ⟨-, ho⟩ | ⟨-, rfl⟩ | ⟨k, -, rfl⟩ | ⟨-, rfl⟩ := step_cases h
  · exact offer_inv hs ho
  · exact offer_inv ht ho
  · exact hostPop_inv ht
  · exact ht.host (Nat.le_refl _) _
  · exact hostReset_inv _

end Sys2Proof.Machine
end

section
/-! SUPPORT. What a command emits (20_memory.md R63; 30_encoding.md R88). -/

namespace Sys2Proof.Machine

/-- The queue of `t` is that of `s` with at most `n` bytes appended. -/
def EmitsAtMost (n : Nat) (s t : State) : Prop := ∃ bytes, t.outq = s.outq ++ bytes ∧ bytes.length ≤ n

theorem emitsAtMost_of_outq_eq {n : Nat} {s t : State} (h : t.outq = s.outq) : EmitsAtMost n s t :=
  ⟨[], by simp [h], Nat.zero_le _⟩

theorem emitsAtMost_of_outq_append {n : Nat} {s t : State} (a : Byte) (h : t.outq = s.outq ++ [a]) :
    EmitsAtMost (n + 1) s t :=
  ⟨[a], h, by simp⟩

theorem EmitsAtMost.trans {m n : Nat} {s u t : State} (hsu : EmitsAtMost m s u) (hut : EmitsAtMost n u t) :
    EmitsAtMost (n + m) s t := by
  obtain ⟨xs, hu, hxs⟩ := hsu
  obtain ⟨ys, ht, hys⟩ := hut
  refine ⟨xs ++ ys, by rw [ht, hu, List.append_assoc], ?_⟩
  rw [List.length_append]
  omega

theorem EmitsAtMost.mono {m n : Nat} {s t : State} (h : EmitsAtMost m s t) (hmn : m ≤ n) : EmitsAtMost n s t := by
  obtain ⟨xs, ht, hxs⟩ := h
  exact ⟨xs, ht, hxs.trans hmn⟩

/-- The legality check itself emits nothing. -/
theorem gated_emitsAtMost {i : Instr} {n : Nat} {s t : State} {body : Result} (h : gated i s body = .next t)
    (hbody : body = .next t → EmitsAtMost n s t) : EmitsAtMost n s t := by
  obtain ⟨-, hb⟩ | ⟨-, -, rfl⟩ | ⟨-, -, rfl⟩ := gated_cases h
  · exact hbody hb
  · exact emitsAtMost_of_outq_eq rfl
  · exact emitsAtMost_of_outq_eq rfl

/-- A bit emits the byte it completes, or nothing (43_pack.md R142). -/
theorem appendBit_emits (b : Bool) (s : State) : EmitsAtMost 1 s (appendBit b s) := by
  by_cases hn : s.accN = 7
  · rw [appendBit_of_full b hn]
    exact emitsAtMost_of_outq_append _ rfl
  · rw [appendBit_of_room b hn]
    exact emitsAtMost_of_outq_eq rfl

/-- Bits appended only extend the queue, here by at most a byte for every bit. -/
theorem appendBits_emits (bits : Bits) (s : State) : EmitsAtMost bits.length s (appendBits bits s) := by
  induction bits generalizing s with
  | nil => exact emitsAtMost_of_outq_eq rfl
  | cons b rest ih => exact (appendBit_emits b s).trans (ih _)

/-- Up to 255 bits after a partial byte of up to 7 complete at most 32 bytes (30_encoding.md R88). -/
theorem appendBits_emits_32 {bits : Bits} (h : bits.length ≤ 255) (s : State) :
    EmitsAtMost 32 s (appendBits bits s) := by
  obtain ⟨bytes, hq, -⟩ := appendBits_emits bits s
  have hcount := appendBits_bitCount bits s
  have hn := s.accN.isLt
  rw [hq, List.length_append] at hcount
  exact ⟨bytes, hq, by omega⟩

theorem execPkSym_emits {a : Byte} {s t : State} (hwf : codeTableWf s) (h : execPkSym a s = .next t) :
    EmitsAtMost 32 s t := by
  refine gated_emitsAtMost h fun hb => ?_
  split_ifs at hb <;> cases hb
  · exact emitsAtMost_of_outq_eq rfl
  · exact emitsAtMost_of_outq_eq rfl
  · exact appendBits_emits_32 (ctLen_le_maxLen hwf a) s

theorem execPkFlush_emits {s t : State} (h : execPkFlush s = .next t) : EmitsAtMost 1 s t := by
  refine gated_emitsAtMost h fun hb => ?_
  split_ifs at hb <;> cases hb
  · exact emitsAtMost_of_outq_eq rfl
  · exact emitsAtMost_of_outq_eq rfl
  · exact emitsAtMost_of_outq_append s.acc rfl

/-- A walked bit emits the symbol it decodes, or nothing (44_unpack.md R167). -/
theorem walkBit_emits {b : Bool} {s t : State} (h : walkBit b s = .next t) : EmitsAtMost 1 s t := by
  obtain ⟨a, -, -, rfl⟩ | ⟨a, -, -, rfl⟩ | ⟨l, r, -, -, rfl⟩ | ⟨l, r, a, -, -, rfl⟩ | ⟨l, r, l', r', -, -, rfl⟩ :=
    walkBit_cases h
  · exact emitsAtMost_of_outq_eq rfl
  · exact emitsAtMost_of_outq_append a (endCheck_outq _)
  · exact emitsAtMost_of_outq_eq rfl
  · exact emitsAtMost_of_outq_append a (endCheck_outq _)
  · exact emitsAtMost_of_outq_eq (endCheck_outq _)

theorem walkBits_emits {bits : Bits} {s t : State} (h : walkBits bits s = .next t) :
    EmitsAtMost bits.length s t := by
  induction bits generalizing s with
  | nil => cases h; exact emitsAtMost_of_outq_eq rfl
  | cons b rest ih =>
    obtain ⟨u, hu, ⟨-, hr⟩ | ⟨-, rfl⟩⟩ := walkBits_cons.mp h
    · exact (walkBit_emits hu).trans (ih hr)
    · exact (walkBit_emits hu).mono (by simp)

theorem execUpByte_emits {b : Byte} {s t : State} (h : execUpByte b s = .next t) : EmitsAtMost 8 s t :=
  gated_emitsAtMost h fun hb => (walkBits_emits hb).mono (byteBits_length b).le

/-- Settles O45: three commands emit, each within its bound; the others do not write the queue (O42). -/
theorem emissionIsBounded : Obligations.EmissionIsBounded := by
  intro i s t hwf h
  cases i with
  | pkSym a => exact execPkSym_emits hwf h
  | pkFlush => exact execPkFlush_emits h
  | upByte b => exact execUpByte_emits h
  | _ => exact emitsAtMost_of_outq_eq (commandsWriteOnlyNamedState _ s t h .outq (by simp [mayWrite, errorFields]))

end Sys2Proof.Machine
end

section
/-! SUPPORT. The ports (20_memory.md R60 to R63): a scheduled turn, a register read and a pop as steps, and what
`cmd_ready`, `out_valid` and `out_data` show. -/

namespace Sys2Proof.Machine

/-! ### The host's turns -/

/-- A scheduled turn is what the step does. -/
theorem step_of_turn {s : State} {turn : HostStep} {ts : List HostStep} (h : s.env.turns = turn :: ts) :
    step s = hostTurn turn (takeTurn s) := by
  simp only [step, h]

/-- No register shows the schedule. -/
theorem rdData_takeTurn (s : State) (k : BitVec 4) : rdData (takeTurn s) k = readReg s k := rfl

/-- Settles O39: the step of a read turn is `hostRead`, which adds to the host's record alone. -/
theorem registerReadHasNoSideEffect : Obligations.RegisterReadHasNoSideEffect := by
  intro s k ts h
  refine ⟨hostRead k (takeTurn s), step_of_turn h, ?_, ?_, rfl, rfl, by simp [frame_iff]⟩
  · rw [hostRead_env, rdData_takeTurn, takeTurn_env]
  · simp [h]

/-- Settles O40: the step of a pop turn is `hostPop`, by whether the queue is empty. -/
theorem popRemovesHeadOfQueue : Obligations.PopRemovesHeadOfQueue := by
  intro s ts h
  refine ⟨hostPop (takeTurn s), step_of_turn h, ?_⟩
  obtain ⟨hq, hpop⟩ | ⟨b, q, hq, hpop⟩ := hostPop_cases (takeTurn s)
  · have hempty : s.outq = [] := hq
    simp [hpop, hempty, h, frame_iff]
  · have hcons : s.outq = b :: q := hq
    simp [hpop, hcons, h, frame_iff]

/-! ### What the ports show -/

/-- `Held(w)` by the literal bits of the word (30_encoding.md R88). -/
theorem held_iff {w : Word} {s : State} : held w s = true ↔
    w.extractLsb' 28 4 = 0x9#4 ∧ s.outq.length > s.cfg.outDepth - 32 ∨
    w.extractLsb' 28 4 = 0xD#4 ∧ s.outq.length > s.cfg.outDepth - 8 ∨
    w.extractLsb' 28 4 = 0xA#4 ∧ s.outq.length > s.cfg.outDepth - 1 := by
  simp [held, opField, or_assoc]

theorem rst_iff {s : State} : rst s = true ↔ s.env.turns.head? = some .reset := beq_iff_eq

/-- `cmd_ready` is 0 under reset and under the hold, and at no other time (R61). -/
theorem cmdReady_eq_false_iff {s : State} :
    cmdReady s = false ↔ rst s = true ∨ ∃ w, cmdData s = some w ∧ held w s = true := by
  unfold cmdReady
  cases cmdData s with
  | none => simp
  | some w => simp [imp_iff_not_or]

theorem outValid_iff {s : State} : outValid s = true ↔ rst s ≠ true ∧ s.outq ≠ [] := by simp [outValid]

theorem outData_eq_some_iff {s : State} {b : Byte} :
    outData s = some b ↔ outValid s = true ∧ s.outq.head? = some b := by
  simp [outData]

/-- Settles O55: each port's equivalence, with reset and the hold written out. -/
theorem portsShowHoldResetAndQueue : Obligations.PortsShowHoldResetAndQueue := by
  intro s
  refine ⟨?_, ?_, fun b => outData_eq_some_iff⟩
  · simp only [cmdReady_eq_false_iff, rst_iff, held_iff, cmdData]
  · rw [outValid_iff, Ne, rst_iff]

end Sys2Proof.Machine
end

section
/-! SUPPORT. The encoding in both directions (30_encoding.md R81 to R92): the bits of `CT_APPEND` in its immediate, the
unused bits of a form as fields of the word, and what each form's decoder answers. -/

namespace Sys2Proof

/-! ### The bits of `CT_APPEND` (R84, R92) -/

theorem bitsToNat_concat (bits : Bits) (b : Bool) : bitsToNat (bits ++ [b]) = Nat.bit b (bitsToNat bits) := by
  cases b <;> simp [bitsToNat, Nat.bit]

/-- The last bit of a bit-string is the least significant of its number. -/
theorem testBit_bitsToNat (bits : Bits) (k : Nat) : (bitsToNat bits).testBit k = bits.reverse.getD k false := by
  induction bits using List.reverseRecOn generalizing k with
  | nil => simp [bitsToNat]
  | append_singleton bits b ih =>
    rw [bitsToNat_concat]
    cases k with
    | zero => simp
    | succ k => simp [Nat.testBit_bit_succ, ih]

theorem getLsbD_appendImm {bits : Bits} {k : Nat} (hk : k < 16) :
    (appendImm bits).getLsbD k =
      (decide (16 - bits.length ≤ k) && bits.reverse.getD (k - (16 - bits.length)) false) := by
  rw [appendImm, BitVec.getLsbD_ofNat, Nat.testBit_mul_two_pow, testBit_bitsToNat, decide_eq_true hk, Bool.true_and]

@[simp] theorem length_appendedBits (n : Nat) (imm : Half) : (appendedBits n imm).length = n := by
  simp [appendedBits]

theorem getElem_appendedBits {n : Nat} {imm : Half} {j : Nat} (hj : j < (appendedBits n imm).length) :
    (appendedBits n imm)[j] = imm.getLsbD (15 - j) := by
  simp [appendedBits]

/-- The bits appended are those the immediate was made of. -/
theorem appendedBits_appendImm {bits : Bits} (h : bits.length ≤ 16) :
    appendedBits bits.length (appendImm bits) = bits := by
  refine List.ext_getElem (by simp) fun j _ hj => ?_
  have hplace : 16 - bits.length ≤ 15 - j := by omega
  have hidx : 15 - j - (16 - bits.length) = bits.length - 1 - j := by omega
  have hlast : bits.length - 1 - (bits.length - 1 - j) = j := by omega
  have hlt : bits.length - 1 - j < bits.length := by omega
  rw [getElem_appendedBits, getLsbD_appendImm (by omega), hidx]
  simp [hplace, hlt, hlast]

/-- Below its `n` bits an immediate is zero, bit by bit (R83). -/
theorem appendTail_eq_zero_iff {n : Nat} {imm : Half} :
    imm.toNat % 2 ^ (16 - n) = 0 ↔ ∀ k < 16 - n, imm.getLsbD k = false :=
  Machine.mod_two_pow_eq_zero_iff

theorem appendImm_tail (bits : Bits) : (appendImm bits).toNat % 2 ^ (16 - bits.length) = 0 := by
  refine appendTail_eq_zero_iff.mpr fun k hk => ?_
  rw [getLsbD_appendImm (by omega), decide_eq_false (Nat.not_le_of_lt hk), Bool.false_and]

/-- Two immediates with no bit below their `n` bits are equal when these are. -/
theorem appendedBits_injective {n : Nat} {a b : Half} (ha : a.toNat % 2 ^ (16 - n) = 0)
    (hb : b.toNat % 2 ^ (16 - n) = 0) (h : appendedBits n a = appendedBits n b) : a = b := by
  rw [appendTail_eq_zero_iff] at ha hb
  refine BitVec.eq_of_getLsbD_eq fun k hk => ?_
  by_cases hlow : k < 16 - n
  · rw [ha k hlow, hb k hlow]
  · have hbit : ∀ imm : Half, (appendedBits n imm)[15 - k]? = some (imm.getLsbD k) := fun imm => by
      have hlt : 15 - k < n := by omega
      have hpos : 15 - (15 - k) = k := by omega
      simp [appendedBits, hlt, hpos]
    exact Option.some.inj (by rw [← hbit a, ← hbit b, h])

/-- The immediate is made again of the bits it appends. -/
theorem appendImm_appendedBits {n : Nat} {imm : Half} (hn : n ≤ 16) (h : imm.toNat % 2 ^ (16 - n) = 0) :
    appendImm (appendedBits n imm) = imm := by
  have htail := appendImm_tail (appendedBits n imm)
  have hbits := appendedBits_appendImm (bits := appendedBits n imm) (by simpa using hn)
  rw [length_appendedBits] at htail hbits
  exact appendedBits_injective htail h hbits

/-! ### The unused bits of a form, as fields (R83) -/

/-- Two adjacent groups of bits are zero together. -/
theorem extract_add_eq_zero_iff {w : Word} (lo m n : Nat) :
    w.extractLsb' lo (m + n) = 0#(m + n) ↔ w.extractLsb' lo m = 0#m ∧ w.extractLsb' (lo + m) n = 0#n := by
  simp only [BitVec.eq_of_getLsbD_eq_iff, BitVec.getLsbD_extractLsb', BitVec.getLsbD_zero]
  constructor
  · intro h
    refine ⟨fun k hk => ?_, fun k hk => ?_⟩
    · simpa [hk, Nat.lt_add_right n hk] using h k (Nat.lt_add_right n hk)
    · simpa [hk, Nat.add_assoc] using h (m + k) (Nat.add_lt_add_left hk m)
  · rintro ⟨hlow, hhigh⟩ k hk
    by_cases hm : k < m
    · simpa [hk, hm] using hlow k hm
    · obtain ⟨j, rfl⟩ := Nat.exists_eq_add_of_le (Nat.le_of_not_lt hm)
      have hj : j < n := Nat.lt_of_add_lt_add_left hk
      simpa [hj, Nat.add_assoc] using hhigh j hj

/-- A bit vector whose upper bits are zero is its lower part extended. -/
theorem setWidth_setWidth_iff {m n : Nat} {v : BitVec (m + n)} :
    (v.setWidth m).setWidth (m + n) = v ↔ v.extractLsb' m n = 0#n := by
  simp only [BitVec.eq_of_getLsbD_eq_iff, BitVec.getLsbD_extractLsb', BitVec.getLsbD_setWidth, BitVec.getLsbD_zero]
  constructor
  · intro h k hk
    simpa [hk] using (h (m + k) (Nat.add_lt_add_left hk m)).symm
  · intro h k hk
    by_cases hm : k < m
    · simp [hk, hm]
    · obtain ⟨j, rfl⟩ := Nat.exists_eq_add_of_le (Nat.le_of_not_lt hm)
      have hj : j < n := Nat.lt_of_add_lt_add_left hk
      simpa [hk, hj] using (h j hj).symm

/-- A word is the format G word of the fields it has. -/
theorem wordG_eq_iff {op a : BitVec 4} {s : Byte} {imm : Half} {w : Word} :
    wordG op a s imm = w ↔ opField w = op ∧ aField w = a ∧ sField w = s ∧ immField w = imm := by
  constructor
  · rintro rfl
    simp
  · rintro ⟨rfl, rfl, rfl, rfl⟩
    exact wordG_fields w

/-- A word is the format T word of the fields it has. -/
theorem wordT_eq_iff {k : Bool} {idx l r : NodeIdx} {w : Word} :
    wordT k idx l r = w ↔
      opField w = 0x6#4 ∧ kField w = k ∧ idxField w = idx ∧ leftField w = l ∧ rightField w = r := by
  constructor
  · rintro rfl
    simp
  · rintro ⟨hop, rfl, rfl, rfl, rfl⟩
    exact wordT_fields hop

theorem low28_eq_zero_iff {w : Word} :
    w.extractLsb' 0 28 = 0#28 ↔ immField w = 0 ∧ sField w = 0 ∧ aField w = 0 := by
  rw [extract_add_eq_zero_iff 0 16 12, extract_add_eq_zero_iff 16 8 4]
  rfl

theorem rightField_eq_setWidth (w : Word) : rightField w = (immField w).setWidth 9 := by
  simp [rightField, immField, BitVec.setWidth_eq_extractLsb']

theorem leafSymbol_eq_setWidth (w : Word) : w.extractLsb' 0 8 = (rightField w).setWidth 8 := by
  simp [rightField, BitVec.setWidth_eq_extractLsb']

/-- Format R: the fields above the index are zero. -/
theorem aboveIndex_eq_zero_iff {w : Word} :
    w.extractLsb' 9 19 = 0#19 ↔ immField w = (rightField w).setWidth 16 ∧ sField w = 0 ∧ aField w = 0 := by
  have hhigh : w.extractLsb' 9 7 = (immField w).extractLsb' 9 7 := by simp [immField]
  rw [extract_add_eq_zero_iff 9 7 12, extract_add_eq_zero_iff 16 8 4, rightField_eq_setWidth, hhigh,
    eq_comm (a := immField w)]
  exact and_congr setWidth_setWidth_iff.symm Iff.rfl

/-- `TR_LEAF`: the fields between the index and the symbol are zero. -/
theorem aboveSymbol_eq_zero_iff {w : Word} :
    w.extractLsb' 8 10 = 0#10 ↔ rightField w = (w.extractLsb' 0 8).setWidth 9 ∧ leftField w = 0 := by
  have hhigh : w.extractLsb' 8 1 = (rightField w).extractLsb' 8 1 := by simp [rightField]
  rw [extract_add_eq_zero_iff 8 1 9, leafSymbol_eq_setWidth, hhigh, eq_comm (a := rightField w)]
  exact and_congr setWidth_setWidth_iff.symm Iff.rfl

/-! ### What each form's decoder answers (R83) -/

theorem ite_eq_ok_iff {c : Prop} [Decidable c] {x : Except Reject Instr} {r : Reject} {j : Instr} :
    (if c then x else .error r) = .ok j ↔ c ∧ x = .ok j := by
  split_ifs with h <;> simp [h]

theorem decodeN_eq_ok_iff {w : Word} {i j : Instr} :
    decodeN w i = .ok j ↔ wordG (opField w) 0 0 0 = w ∧ i = j := by
  rw [decodeN, ite_eq_ok_iff, low28_eq_zero_iff, wordG_eq_iff]
  grind

theorem decodeS_eq_ok_iff {w : Word} {mk : Byte → Instr} {j : Instr} :
    decodeS w mk = .ok j ↔ ∃ a, wordG (opField w) 0 a 0 = w ∧ mk a = j := by
  rw [decodeS, ite_eq_ok_iff]
  simp only [wordG_eq_iff]
  grind

theorem decodeB_eq_ok_iff {w : Word} {j : Instr} :
    decodeB w = .ok j ↔ ∃ a bits, (1 ≤ bits.length ∧ bits.length ≤ 16) ∧
      wordG (opField w) (BitVec.ofNat 4 (bits.length - 1)) a (appendImm bits) = w ∧ .ctAppend a bits = j := by
  simp only [decodeB, ite_eq_ok_iff, wordG_eq_iff, true_and]
  constructor
  · rintro ⟨htail, hj⟩
    have hlen := length_appendedBits ((aField w).toNat + 1) (immField w)
    have hlt := (aField w).isLt
    refine ⟨sField w, _, ⟨?_, ?_⟩, ⟨?_, rfl, ?_⟩, Except.ok.inj hj⟩
    · omega
    · omega
    · simp
    · exact (appendImm_appendedBits (by omega) htail).symm
  · rintro ⟨a, bits, ⟨hpos, hle⟩, ⟨ha, rfl, himm⟩, rfl⟩
    have hn : (aField w).toNat + 1 = bits.length := by
      rw [ha, BitVec.toNat_ofNat]
      omega
    rw [hn, himm, appendedBits_appendImm hle]
    exact ⟨appendImm_tail bits, rfl⟩

theorem decodeT_eq_ok_iff {w : Word} {j : Instr} (hop : opField w = 0x6#4) :
    decodeT w = .ok j ↔
      (∃ x a, x ≠ nilIdx ∧ wordT false x 0 (a.setWidth 9) = w ∧ .trLeaf x a = j) ∨
      (∃ x l r, x ≠ nilIdx ∧ wordT true x l r = w ∧ .trInner x l r = j) := by
  simp only [wordT_eq_iff, hop, true_and]
  unfold decodeT
  by_cases hnil : idxField w = nilIdx
  · grind
  cases hk : kField w
  case true => grind
  case false =>
    simp only [hnil, Bool.false_eq_true, if_false, ite_eq_ok_iff, aboveSymbol_eq_zero_iff]
    constructor
    · rintro ⟨⟨hr, hl⟩, hj⟩
      exact .inl ⟨_, _, hnil, ⟨trivial, rfl, hl, hr⟩, Except.ok.inj hj⟩
    · rintro (⟨x, a, -, ⟨-, rfl, hl, hr⟩, rfl⟩ | ⟨x, l, r, -, ⟨hf, -⟩, -⟩)
      · have ha : w.extractLsb' 0 8 = a := by rw [leafSymbol_eq_setWidth, hr]; simp
        rw [ha]
        exact ⟨⟨hr, hl⟩, rfl⟩
      · cases hf

theorem decodeR_eq_ok_iff {w : Word} {j : Instr} :
    decodeR w = .ok j ↔ ∃ x, x ≠ nilIdx ∧ wordG (opField w) 0 0 (x.setWidth 16) = w ∧ .trRoot x = j := by
  rw [decodeR, ite_eq_ok_iff, aboveIndex_eq_zero_iff]
  simp only [wordG_eq_iff]
  constructor
  · rintro ⟨⟨himm, hs, ha⟩, hj⟩
    split_ifs at hj with hnil
    exact ⟨rightField w, hnil, ⟨trivial, ha, hs, himm⟩, Except.ok.inj hj⟩
  · rintro ⟨x, hnil, ⟨-, ha, hs, himm⟩, rfl⟩
    have hx : rightField w = x := by rw [rightField_eq_setWidth, himm]; simp
    rw [hx, if_neg hnil]
    exact ⟨⟨himm, hs, ha⟩, rfl⟩

theorem decodeH_eq_ok_iff {w : Word} {j : Instr} :
    decodeH w = .ok j ↔
      (∃ h, wordG (opField w) 0 0 h = w ∧ .upLenLo h = j) ∨ (∃ h, wordG (opField w) 1 0 h = w ∧ .upLenHi h = j) := by
  rw [decodeH, ite_eq_ok_iff]
  simp only [wordG_eq_iff]
  split_ifs <;> grind

/-! ### Decoding and encoding -/

theorem opField_of_toNat {w : Word} {n : Nat} (h : (opField w).toNat = n) : opField w = BitVec.ofNat 4 n := by
  subst h
  simp

/-- The word of a legal word's command is that word: the decoder drops no bit (R90). -/
theorem encode_of_decode {w : Word} {i : Instr} (h : decode w = .ok i) : encode i = w := by
  unfold decode at h
  split at h
  case h_4 he | h_10 he | h_14 he =>
    obtain ⟨a, hw, rfl⟩ := decodeS_eq_ok_iff.mp h
    rwa [opField_of_toNat he] at hw
  case h_5 he =>
    obtain ⟨a, bits, -, hw, rfl⟩ := decodeB_eq_ok_iff.mp h
    rwa [opField_of_toNat he] at hw
  case h_7 he =>
    obtain ⟨x, a, -, hw, rfl⟩ | ⟨x, l, r, -, hw, rfl⟩ := (decodeT_eq_ok_iff (opField_of_toNat he)).mp h
    · exact hw
    · exact hw
  case h_8 he =>
    obtain ⟨x, -, hw, rfl⟩ := decodeR_eq_ok_iff.mp h
    rwa [opField_of_toNat he] at hw
  case h_12 he =>
    obtain ⟨n, hw, rfl⟩ | ⟨n, hw, rfl⟩ := decodeH_eq_ok_iff.mp h
    · rwa [opField_of_toNat he] at hw
    · rwa [opField_of_toNat he] at hw
  case h_16 => cases h
  all_goals
    rename_i he
    obtain ⟨hw, rfl⟩ := decodeN_eq_ok_iff.mp h
    rwa [opField_of_toNat he] at hw

/-- Settles O2: the word of the command a word decodes to is that word, and `decode_ok` has that the command is
well-formed. -/
theorem encodeOfDecodeIsWord : Obligations.EncodeOfDecodeIsWord := fun _ _ h =>
  ⟨(decode_ok h).1, encode_of_decode h⟩

/-- Settles O1: the encoder's word has the fields its form's decoder asks for. -/
theorem decodeOfEncodeIsInstruction : Obligations.DecodeOfEncodeIsInstruction := by
  intro i hwf
  cases i with
  | ctAppend a bits =>
    have hlen : 1 ≤ bits.length ∧ bits.length ≤ 16 := by simpa [Instr.wf] using hwf
    simpa [decode, encode] using decodeB_eq_ok_iff.mpr ⟨a, bits, hlen, by simp, rfl⟩
  | trLeaf x a =>
    have hx : x ≠ nilIdx := bne_iff_ne.mp hwf
    simpa [decode, encode] using (decodeT_eq_ok_iff (opField_wordT ..)).mpr (.inl ⟨x, a, hx, rfl, rfl⟩)
  | trInner x l r =>
    have hx : x ≠ nilIdx := bne_iff_ne.mp hwf
    simpa [decode, encode] using (decodeT_eq_ok_iff (opField_wordT ..)).mpr (.inr ⟨x, l, r, hx, rfl, rfl⟩)
  | trRoot x =>
    have hx : x ≠ nilIdx := bne_iff_ne.mp hwf
    simpa [decode, encode] using decodeR_eq_ok_iff.mpr ⟨x, hx, by simp, rfl⟩
  | _ => simp [decode, encode, decodeN_eq_ok_iff, decodeS_eq_ok_iff, decodeH_eq_ok_iff]

end Sys2Proof
end

section
/-! SUPPORT. The illegal words (30_encoding.md R89): what each form's decoder rejects, in the word's own bits. -/

namespace Sys2Proof

theorem ite_rejects_iff {c : Prop} [Decidable c] {x : Except Reject Instr} {r : Reject} :
    (∃ q, (if c then x else .error r) = .error q) ↔ (c → ∃ q, x = .error q) := by
  split_ifs with h <;> simp [h]

theorem not_ok_rejects {i : Instr} : ¬ ∃ q : Reject, Except.ok i = .error q := by simp

theorem decodeN_rejects_iff {w : Word} {i : Instr} : (∃ r, decodeN w i = .error r) ↔ w.extractLsb' 0 28 ≠ 0#28 := by
  exact ite_rejects_iff.trans (imp_congr_right fun _ => iff_of_false not_ok_rejects not_false)

theorem decodeS_rejects_iff {w : Word} {mk : Byte → Instr} :
    (∃ r, decodeS w mk = .error r) ↔ w.extractLsb' 24 4 ≠ 0#4 ∨ w.extractLsb' 0 16 ≠ 0#16 := by
  rw [decodeS, ite_rejects_iff, imp_iff_not not_ok_rejects, not_and_or]
  rfl

theorem decodeB_rejects_iff {w : Word} :
    (∃ r, decodeB w = .error r) ↔ ∃ k, k + (w.extractLsb' 24 4).toNat + 1 ≤ 15 ∧ w.getLsbD k = true := by
  rw [decodeB, ite_rejects_iff, imp_iff_not not_ok_rejects, appendTail_eq_zero_iff]
  simp only [not_forall, Bool.not_eq_false, exists_prop, aField]
  have hbelow : ∀ k, k < 16 - ((w.extractLsb' 24 4).toNat + 1) ↔ k + (w.extractLsb' 24 4).toNat + 1 ≤ 15 := by omega
  refine exists_congr fun k => ?_
  rw [hbelow]
  refine and_congr_right fun hk => ?_
  have hlt : k < 16 := by omega
  simp [immField, hlt]

theorem decodeT_rejects_iff {w : Word} :
    (∃ r, decodeT w = .error r) ↔
      w.extractLsb' 18 9 = 0x1FF#9 ∨ (w.getLsbD 27 = false ∧ w.extractLsb' 8 10 ≠ 0#10) := by
  unfold decodeT idxField kField nilIdx
  split_ifs <;> simp_all

theorem decodeR_rejects_iff {w : Word} :
    (∃ r, decodeR w = .error r) ↔ w.extractLsb' 9 19 ≠ 0#19 ∨ w.extractLsb' 0 9 = 0x1FF#9 := by
  unfold decodeR rightField nilIdx
  split_ifs <;> simp_all

theorem one_lt_toNat_iff {a : BitVec 4} : 1 < a.toNat ↔ a ≠ 0#4 ∧ a ≠ 1#4 := by
  simp only [ne_eq, ← BitVec.toNat_inj, BitVec.toNat_ofNat]
  omega

theorem decodeH_rejects_iff {w : Word} :
    (∃ r, decodeH w = .error r) ↔ 1 < (w.extractLsb' 24 4).toNat ∨ w.extractLsb' 16 8 ≠ 0#8 := by
  rw [one_lt_toNat_iff]
  unfold decodeH sField aField
  split_ifs <;> simp_all

end Sys2Proof

namespace Sys2Proof.Machine

/-- An error entry made by an operation is one as the statements say it (60_exceptions.md R195). -/
theorem raise_errorEntered (e : ErrCode) (info : Word) (s : State) : errorEntered e info s (raise e info s) :=
  ⟨rfl, rfl, rfl, rfl, rfl⟩

/-- An illegal word in ERROR mode is dropped. -/
theorem accept_of_rejected_error {w : Word} {r : Reject} {s : State} (h : decode w = .error r) (hm : s.mode = .error) :
    accept w s = .next s := by
  simp [accept, h, hm]

/-- An illegal word outside ERROR mode raises `ILLEGAL_CMD` with itself (R89). -/
theorem raisesIllegal_of_rejected {w : Word} {r : Reject} (h : decode w = .error r) : raisesIllegal w := fun s hm =>
  ⟨raise .illegalCmd w s, by simp [accept, h, hm], raise_errorEntered _ _ _, raise_frame (List.Subset.refl _) _ _ _⟩

/-- Settles O3: by `OP`, what the decoder of its form rejects; the raise is that of `accept`. -/
theorem illegalWordsAreExactlyThose : Obligations.IllegalWordsAreExactlyThose := by
  intro w
  refine ⟨?_, fun ⟨_, hr⟩ => raisesIllegal_of_rejected hr⟩
  have hop : ∀ n, (opField w).toNat = n → w.extractLsb' 28 4 = BitVec.ofNat 4 n := fun _ => opField_of_toNat
  unfold decode
  split
  case h_4 he | h_10 he | h_14 he => simp [decodeS_rejects_iff, hop _ he]
  case h_5 he => simp [decodeB_rejects_iff, hop _ he]
  case h_7 he => simp [decodeT_rejects_iff, hop _ he]
  case h_8 he => simp [decodeR_rejects_iff, hop _ he]
  case h_12 he => simp [decodeH_rejects_iff, hop _ he]
  case h_16 =>
    have hlt := (opField w).isLt
    have he : (opField w).toNat = 15 := by grind
    simp [hop _ he]
  all_goals
    rename_i he
    simp [decodeN_rejects_iff, hop _ he]

end Sys2Proof.Machine
end

section
/-! SUPPORT. The opcode map (30_encoding.md R85): its rows do not overlap, and every command's word is in its row. -/

namespace Sys2Proof

theorem Row.fits_iff {r : Row} {w : Word} : r.fits w = true ↔ w &&& r.mask = r.value := beq_iff_eq

/-- Two rows that a word fits agree on the bits both of them fix. -/
theorem Row.agree_of_fits {r q : Row} {w : Word} (hr : r.fits w = true) (hq : q.fits w = true) :
    r.value &&& q.mask = q.value &&& r.mask := by
  rw [← Row.fits_iff.mp hr, ← Row.fits_iff.mp hq]
  ac_rfl

/-- Two rows of the map that agree on the bits both fix are one row. -/
theorem opcodeMap_separates :
    ∀ r ∈ opcodeMap, ∀ q ∈ opcodeMap, r.value &&& q.mask = q.value &&& r.mask → r = q := by decide

theorem row_mem_opcodeMap (i : Instr) : i.row ∈ opcodeMap := by
  cases i <;> simp [opcodeMap, Instr.row]

/-- A masked word is compared field by field of format G. -/
theorem and_eq_iff_fieldsG {w m v : Word} : w &&& m = v ↔
    opField w &&& opField m = opField v ∧ aField w &&& aField m = aField v ∧
    sField w &&& sField m = sField v ∧ immField w &&& immField m = immField v := by
  conv_lhs => rw [← wordG_fields v, eq_comm, wordG_eq_iff]
  simp only [opField, aField, sField, immField, BitVec.extractLsb'_and]

/-- A masked word is compared field by field of format T with a word that has its `OP`. -/
theorem and_eq_iff_fieldsT {w m v : Word} (hv : opField v = 0x6#4) : w &&& m = v ↔
    opField w &&& opField m = opField v ∧ (kField w && kField m) = kField v ∧
    idxField w &&& idxField m = idxField v ∧ leftField w &&& leftField m = leftField v ∧
    rightField w &&& rightField m = rightField v := by
  conv_lhs => rw [← wordT_fields hv, eq_comm, wordT_eq_iff, ← hv]
  simp only [opField, kField, idxField, leftField, rightField, BitVec.extractLsb'_and, BitVec.getLsbD_and]

/-- A vector extended is zero under a mask of the bits above it. -/
theorem setWidth_and_high {m n : Nat} (v : BitVec m) {mask : BitVec n} (h : mask.setWidth m = 0) :
    v.setWidth n &&& mask = 0 := by
  refine BitVec.eq_of_getLsbD_eq fun k hk => ?_
  by_cases hm : k < m
  · have hmask : mask.getLsbD k = false := by simpa [hm] using congrArg (·.getLsbD k) h
    simp [hmask]
  · simp [BitVec.getLsbD_of_ge v k (Nat.le_of_not_lt hm)]

/-- The word of a command is in the command's row. -/
theorem row_fits_encode (i : Instr) : i.row.fits (encode i) = true := by
  rw [Row.fits_iff]
  cases i with
  | trLeaf x a =>
    have hsym : a.setWidth 9 &&& 0x100#9 = 0#9 := setWidth_and_high a (by decide)
    simp only [Instr.row, encode]
    rw [and_eq_iff_fieldsT (by decide)]
    simp only [opField_wordT, kField_wordT, idxField_wordT, leftField_wordT, rightField_wordT]
    exact ⟨rfl, rfl, BitVec.and_zero, BitVec.and_allOnes, hsym⟩
  | trInner x l r =>
    simp only [Instr.row, encode]
    rw [and_eq_iff_fieldsT (by decide)]
    simp only [opField_wordT, kField_wordT, idxField_wordT, leftField_wordT, rightField_wordT]
    exact ⟨rfl, rfl, BitVec.and_zero, BitVec.and_zero, BitVec.and_zero⟩
  | trRoot x =>
    have hidx : x.setWidth 16 &&& 0xFE00#16 = 0#16 := setWidth_and_high x (by decide)
    simp only [Instr.row, encode, and_eq_iff_fieldsG, opField_wordG, aField_wordG, sField_wordG, immField_wordG]
    exact ⟨rfl, rfl, rfl, hidx⟩
  | _ =>
    simp only [Instr.row, encode, and_eq_iff_fieldsG, opField_wordG, aField_wordG, sField_wordG, immField_wordG]
    simp [opField, aField, sField, immField]

/-- Settles O4: rows that a word fits agree where both fix a bit, and a legal word is its command's, whose fixed bits
are its row's. -/
theorem everyLegalWordHasOneRow : Obligations.EveryLegalWordHasOneRow := by
  intro w
  refine ⟨fun r hr q hq hrw hqw => opcodeMap_separates r hr q hq (Row.agree_of_fits hrw hqw), fun i hd => ?_⟩
  obtain rfl := encode_of_decode hd
  exact ⟨row_mem_opcodeMap i, row_fits_encode i⟩

end Sys2Proof
end

section
/-! SUPPORT. The offer of a word and its acceptance (30_encoding.md R86 to R88): the step that offers a word, the order
of the checks, and that no command raises `SEQUENCE` in its legal modes. -/

namespace Sys2Proof.Machine

/-! ### The step that offers a word -/

/-- A turn that offers the presented word, scheduled or not (log 2, 3). -/
theorem step_of_offer {s : State} (ht : s.env.turns = [] ∨ s.env.turns.head? = some .offer) :
    step s = offer (takeTurn s) := by
  cases hturns : s.env.turns with
  | nil =>
    have hsame : takeTurn s = s := by
      rw [takeTurn, hturns, List.tail_nil, ← hturns]
    rw [hsame]
    simp only [step, hturns]
  | cons turn ts =>
    obtain rfl : turn = .offer := by simpa [hturns] using ht
    exact step_of_turn hturns

theorem offer_of_held {s : State} {w : Word} (hw : cmdData s = some w) (hh : held w s = true) : offer s = .next s := by
  simp [offer, hw, hh]

theorem offer_of_not_held {s : State} {w : Word} (hw : cmdData s = some w) (hh : held w s = false) :
    offer s = accept w (takeWord s) := by
  simp [offer, hw, hh]

theorem accept_of_decode {w : Word} {i : Instr} (hd : decode w = .ok i) (s : State) : accept w s = exec i s := by
  simp only [accept, hd]

/-- The step of a word that is not held accepts it. -/
theorem step_of_not_held {s : State} {w : Word} {ws : List Word}
    (ht : s.env.turns = [] ∨ s.env.turns.head? = some .offer) (hc : s.env.cmds = w :: ws) (hh : held w s = false) :
    step s = accept w { s with env := { s.env with cmds := ws, turns := s.env.turns.tail } } := by
  have hw : cmdData (takeTurn s) = some w := by simp [cmdData, hc]
  rw [step_of_offer ht, offer_of_not_held hw hh]
  simp [takeWord, takeTurn, hc]

/-- Settles O6: the step accepts the word, and a legal word's acceptance is its command's execution. -/
theorem stepRunsDecodedCommand : Obligations.StepRunsDecodedCommand := by
  intro s w ws i ht hc hh hd
  rw [step_of_not_held ht hc hh, accept_of_decode hd]

/-- An empty queue holds no word (R88; `OUT_DEPTH` is at least 32, R8). -/
theorem outq_ne_nil_of_held {w : Word} {s : State} (hh : held w s = true) : s.outq ≠ [] := by
  intro hq
  simp [held_iff, hq] at hh

/-- `cmd_ready` in a turn that offers a word is the negation of the hold (R61). -/
theorem cmdReady_of_offer {s : State} {w : Word} {ws : List Word}
    (ht : s.env.turns = [] ∨ s.env.turns.head? = some .offer) (hc : s.env.cmds = w :: ws) :
    cmdReady s = !held w s := by
  have hrst : rst s = false := by
    obtain ht | ht := ht <;> simp [rst, ht]
  simp [cmdReady, hrst, cmdData, hc]

/-- Settles O7: the hold written out; a held word's offer answers the state offered, any other word's its acceptance. -/
theorem holdReadsOpcodeAndQueueOnly : Obligations.HoldReadsOpcodeAndQueueOnly := by
  intro s w ws ht hc
  rw [← held_iff, cmdReady_of_offer ht hc]
  refine ⟨fun hh => ⟨by simp [hh], outq_ne_nil_of_held hh, ?_⟩, fun hn => ?_⟩
  · have hw : cmdData (takeTurn s) = some w := by simp [cmdData, hc]
    rw [step_of_offer ht, offer_of_held hw hh]
    rfl
  · have hh : held w s = false := by simpa using hn
    exact ⟨by simp [hh], step_of_not_held ht hc hh⟩

/-! ### The order of the checks (R87) -/

theorem decode_nop : decode 0x00000000#32 = .ok .nop := by decide

theorem decode_abort : decode 0x10000000#32 = .ok .abort := by decide

/-- In ERROR mode every word but those of `NOP` and `ABORT` is dropped (60_exceptions.md R197). -/
theorem accept_of_error {w : Word} {s : State} (hm : s.mode = .error) (hn : w ≠ 0x00000000#32)
    (ha : w ≠ 0x10000000#32) : accept w s = .next s := by
  cases hd : decode w with
  | error r => exact accept_of_rejected_error hd hm
  | ok i =>
    rw [accept_of_decode hd]
    have hw : encode i = w := encode_of_decode hd
    refine exec_of_error hm ?_ ?_
    · rintro rfl
      exact hn hw.symm
    · rintro rfl
      exact ha hw.symm

/-- A command outside its legal modes, and not in ERROR mode, raises `SEQUENCE` with its word and does nothing else
(R86). -/
theorem raisesOnly_sequence {i : Instr} {s : State} (hl : s.mode ∉ legalModes i) (hm : s.mode ≠ .error) :
    raisesOnly i s .sequence (encode i) :=
  ⟨_, exec_of_sequence hl hm, raise_errorEntered _ _ _, raise_frame (List.Subset.refl _) _ _ _⟩

/-- Settles O8: clause by clause, by what the word decodes to and the mode. -/
theorem acceptedWordIsCheckedInOrder : Obligations.AcceptedWordIsCheckedInOrder := by
  intro w s
  refine ⟨?_, ?_, accept_of_error, fun hm r hd => raisesIllegal_of_rejected hd s hm, fun hm i hd hl => ?_,
    fun _ i hd _ => accept_of_decode hd s⟩
  · rintro - rfl
    exact (accept_of_decode decode_nop s).trans (execNop_eq s)
  · rintro - rfl
    exact accept_of_decode decode_abort s
  · rw [accept_of_decode hd, ← encode_of_decode hd]
    exact raisesOnly_sequence hl hm

/-! ### No `SEQUENCE` in a legal mode (R86) -/

/-- The error a state in ERROR mode records is not `SEQUENCE`. -/
def NotSequence (t : State) : Prop := t.mode = .error → t.err ≠ .sequence

theorem notSequence_of_mode {t : State} (h : t.mode ≠ .error) : NotSequence t := fun he => absurd he h

theorem notSequence_raise {e : ErrCode} (he : e ≠ .sequence) (info : Word) (s : State) : NotSequence (raise e info s) :=
  fun _ => he

theorem notSequence_endCheck {s : State} (h : s.mode ≠ .error) : NotSequence (endCheck s) := by
  obtain ⟨-, he⟩ | ⟨-, -, he⟩ | ⟨-, -, he⟩ := endCheck_cases s <;> rw [he]
  · exact notSequence_of_mode h
  · exact notSequence_raise (by decide) _ _
  · exact notSequence_of_mode (by simp)

theorem notSequence_walkBit {b : Bool} {s t : State} (hm : s.mode ≠ .error) (h : walkBit b s = .next t) :
    NotSequence t := by
  obtain ⟨a, -, -, rfl⟩ | ⟨a, -, -, rfl⟩ | ⟨l, r, -, -, rfl⟩ | ⟨l, r, a, -, -, rfl⟩ | ⟨l, r, l', r', -, -, rfl⟩ :=
    walkBit_cases h
  · exact notSequence_raise (by decide) _ _
  · exact notSequence_endCheck hm
  · exact notSequence_raise (by decide) _ _
  · exact notSequence_endCheck hm
  · exact notSequence_endCheck hm

theorem notSequence_walkBits {bits : Bits} {s t : State} (hm : s.mode ≠ .error) (h : walkBits bits s = .next t) :
    NotSequence t := by
  induction bits generalizing s with
  | nil => cases h; exact notSequence_of_mode hm
  | cons b rest ih =>
    obtain ⟨u, hu, ⟨hopen, hr⟩ | ⟨-, rfl⟩⟩ := walkBits_cons.mp h
    · exact ih (by simp [hopen]) hr
    · exact notSequence_walkBit hm hu

/-- In a legal mode only the command's own rule is left to look at. -/
theorem gated_notSequence {i : Instr} {s t : State} {body : Result} (hl : s.mode ∈ legalModes i)
    (h : gated i s body = .next t) (hbody : body = .next t → NotSequence t) : NotSequence t :=
  hbody (by rwa [gated_of_legal hl] at h)

/-- No command's own rule raises `SEQUENCE`. -/
theorem exec_notSequence {i : Instr} {s t : State} (hl : s.mode ∈ legalModes i) (hm : s.mode ≠ .error)
    (h : exec i s = .next t) : NotSequence t := by
  cases i <;> refine gated_notSequence hl h fun hb => ?_
  case ctAppend a bits =>
    split_ifs at hb <;> cases hb
    · exact notSequence_raise (by decide) _ _
    · exact notSequence_of_mode hm
  case trBuild =>
    split at hb <;> cases hb
    · exact notSequence_raise (by decide) _ _
    · exact notSequence_of_mode hm
  case pkSym a =>
    split_ifs at hb <;> cases hb
    · exact notSequence_raise (by decide) _ _
    · exact notSequence_raise (by decide) _ _
    · have hmode : (appendBits (codeOf s a) s).mode = s.mode := appendBits_frame _ s .mode (by decide)
      exact notSequence_of_mode (by simpa [hmode] using hm)
  case pkFlush =>
    split_ifs at hb <;> cases hb
    · exact notSequence_raise (by decide) _ _
    · exact notSequence_of_mode (by simp)
    · exact notSequence_of_mode (by simp)
  case upStart =>
    split_ifs at hb <;> cases hb
    · exact notSequence_raise (by decide) _ _
    · exact notSequence_raise (by decide) _ _
    · exact notSequence_of_mode (by simp)
    · exact notSequence_of_mode (by simp)
  case upByte b => exact notSequence_walkBits hm hb
  case upEnd =>
    split_ifs at hb <;> cases hb
    · exact notSequence_of_mode hm
    · exact notSequence_raise (by decide) _ _
  case abort | pkStart =>
    cases hb
    exact notSequence_of_mode (by simp)
  all_goals
    cases hb
    exact notSequence_of_mode hm

theorem runsIn_of_legal {i : Instr} {legal : List Mode} (h : ∀ m ∈ legal, m ∈ legalModes i ∧ m ≠ .error) :
    runsIn i legal := fun s _ hl ht =>
  have ⟨hmem, hm⟩ := h s.mode hl
  exec_notSequence hmem hm ht

/-- A row of R86's table, from the modes of `legalModes`. -/
theorem legalExactlyIn_of_legalModes {i : Instr} {legal : List Mode} (h : legalModes i = legal)
    (he : .error ∉ legal) : legalExactlyIn i legal :=
  ⟨runsIn_of_legal fun _ hm => ⟨h ▸ hm, fun heq => he (heq ▸ hm)⟩,
    fun _ hl hm => raisesOnly_sequence (h ▸ hl) hm⟩

/-- Settles O9: the modes named are those of `legalModes`; in them the command's own rule runs, elsewhere the check
raises. -/
theorem wrongModeRaisesSequence : Obligations.WrongModeRaisesSequence := by
  refine ⟨?_, ?_, fun a => ?_, fun a bits => ?_, fun x a => ?_, fun x l r => ?_, fun x => ?_, fun h => ?_, fun h => ?_,
    fun a => ?_, ?_, fun b => ?_, ?_, fun _ _ => accept_of_error⟩
  · intro i hi
    obtain rfl | rfl := List.mem_pair.mp hi
    · exact runsIn_of_legal (by decide)
    · exact runsIn_of_legal (by decide)
  · intro i hi
    simp only [List.mem_cons, List.not_mem_nil, or_false] at hi
    obtain rfl | rfl | rfl | rfl := hi <;> exact legalExactlyIn_of_legalModes rfl (by decide)
  all_goals exact legalExactlyIn_of_legalModes rfl (by decide)

end Sys2Proof.Machine
end

section
/-! SUPPORT. Every step answers (30_encoding.md R90; 70_reset_and_hazards.md R231), and popping the queue lifts a hold
(R227, R228). -/

namespace Sys2Proof.Machine

/-! ### Every step answers a next state -/

/-- The legality check itself answers. -/
theorem gated_next {i : Instr} {s : State} {body : Result} (h : s.mode ∈ legalModes i → ∃ t, body = .next t) :
    ∃ t, gated i s body = .next t := by
  by_cases hl : s.mode ∈ legalModes i
  · rw [gated_of_legal hl]
    exact h hl
  · by_cases hm : s.mode = .error
    · exact ⟨_, gated_of_error hl hm _⟩
    · exact ⟨_, gated_of_sequence hl hm _⟩

/-- A walk stays at a node while the session is open, so it walks every bit (44_unpack.md R167). -/
theorem walkBits_next {bits : Bits} {s : State} (hs : Inv s) (hm : s.mode = .unpack)
    (hroom : s.outq.length + bits.length ≤ s.cfg.outDepth) : ∃ t, walkBits bits s = .next t := by
  induction bits generalizing s with
  | nil => exact ⟨s, rfl⟩
  | cons b rest ih =>
    rw [List.length_cons] at hroom
    obtain ⟨u, hu⟩ := walkBit_next b (hs.walking hm).curNode
    by_cases hopen : u.mode = .unpack
    · have hq := walkBit_outq_length hu
      have hcfg : u.cfg = s.cfg := walkBit_frame hu .cfg (by decide)
      obtain ⟨t, ht⟩ := ih (walkBit_inv hs hm (by omega) hu) hopen (by rw [hcfg]; omega)
      exact ⟨t, walkBits_cons.mpr ⟨u, hu, .inl ⟨hopen, ht⟩⟩⟩
    · exact ⟨u, walkBits_cons.mpr ⟨u, hu, .inr ⟨hopen, rfl⟩⟩⟩

/-- A command with room in the queue answers; only the walk of `UP_BYTE` needs the invariant. -/
theorem exec_next {i : Instr} {s : State} (hs : Inv s) (hroom : s.outq.length + mayEmit i ≤ s.cfg.outDepth) :
    ∃ t, exec i s = .next t := by
  cases i <;> refine gated_next fun hl => ?_
  case ctAppend a bits => split_ifs <;> exact ⟨_, rfl⟩
  case trBuild => split <;> exact ⟨_, rfl⟩
  case pkSym a => split_ifs <;> exact ⟨_, rfl⟩
  case pkFlush => split_ifs <;> exact ⟨_, rfl⟩
  case upStart => split_ifs <;> exact ⟨_, rfl⟩
  case upByte b =>
    have hm : s.mode = .unpack := by simpa [legalModes] using hl
    exact walkBits_next hs hm (by rwa [byteBits_length])
  case upEnd => split_ifs <;> exact ⟨_, rfl⟩
  all_goals exact ⟨_, rfl⟩

theorem accept_next {w : Word} {s : State} (hs : Inv s) (hh : held w s = false) : ∃ t, accept w s = .next t := by
  cases hd : decode w with
  | error r => exact ⟨_, by simp only [accept, hd]; rfl⟩
  | ok i =>
    rw [accept_of_decode hd]
    exact exec_next hs (room_of_not_held hd hh hs.queue)

theorem offer_next {s : State} (hs : Inv s) : ∃ t, offer s = .next t := by
  cases hw : cmdData s with
  | none => exact ⟨s, by simp only [offer, hw]⟩
  | some w =>
    cases hh : held w s with
    | true => exact ⟨s, offer_of_held hw hh⟩
    | false =>
      rw [offer_of_not_held hw hh]
      exact accept_next (takeWord_inv hs) hh

/-- Settles O48: by the turn a step takes; the one stop, a walk at no node, is met in no consistent state. -/
theorem everyStepAnswersNext : Obligations.EveryStepAnswersNext := by
  intro s hs
  cases ht : s.env.turns with
  | nil =>
    rw [step_of_offer (.inl ht)]
    exact offer_next (takeTurn_inv hs)
  | cons turn ts =>
    rw [step_of_turn ht]
    cases turn with
    | offer => exact offer_next (takeTurn_inv hs)
    | pop => exact ⟨_, rfl⟩
    | read k => exact ⟨_, rfl⟩
    | reset => exact ⟨_, rfl⟩

/-! ### Popping lifts a hold -/

theorem run_succ_of_step {s t : State} (h : step s = .next t) (k : Nat) : core.run (k + 1) s = core.run k t := by
  have hstep : core.step s = .next t := h
  simp only [Host.Core.run, hstep]

/-- The state after the host has popped the whole queue, in turns of its own. -/
def drained (rest : List HostStep) (s : State) : State :=
  { s with outq := [], env := { s.env with turns := rest, popped := s.env.popped ++ s.outq } }

/-- The state after a pop of `b`, with `q` left in the queue and the turns `ts` to come (20_memory.md R63). -/
def popped (b : Byte) (q : List Byte) (ts : List HostStep) (s : State) : State :=
  { s with outq := q, env := { s.env with turns := ts, popped := s.env.popped ++ [b] } }

/-- The step of a pop turn on a queue that is not empty. -/
theorem step_of_pop {s : State} {b : Byte} {q : List Byte} {ts : List HostStep} (hq : s.outq = b :: q)
    (ht : s.env.turns = .pop :: ts) :
    step s = .next (popped b q ts s) := by
  rw [step_of_turn ht]
  simp [hostTurn, hostPop, takeTurn, popped, hq, ht]

/-- As many pops as the queue has bytes drain it (70_reset_and_hazards.md R228). -/
theorem run_pops {s : State} {rest : List HostStep}
    (ht : s.env.turns = List.replicate s.outq.length .pop ++ rest) :
    core.run s.outq.length s = .next (drained rest s) := by
  obtain ⟨q, hq⟩ : ∃ q, s.outq = q := ⟨_, rfl⟩
  induction q generalizing s with
  | nil =>
    have hturns : s.env.turns = rest := by simpa [hq] using ht
    have hsame : drained rest s = s := by
      rw [drained, ← hturns, hq, List.append_nil, ← hq]
    rw [hq, hsame]
    rfl
  | cons b q ih =>
    have hturns : s.env.turns = .pop :: (List.replicate q.length .pop ++ rest) := by
      rw [ht, hq]
      rfl
    rw [hq, List.length_cons, run_succ_of_step (step_of_pop hq hturns)]
    have hrest := ih (s := popped b q (List.replicate q.length .pop ++ rest) s) rfl rfl
    refine hrest.trans ?_
    simp [drained, popped, hq]

/-- Settles O49: the pops drain the queue, and an empty queue holds no word. -/
theorem poppingLiftsEveryHold : Obligations.PoppingLiftsEveryHold := by
  intro s w ws hc ht
  have hh : held w (drained [.offer] s) = false := by
    by_contra hn
    exact outq_ne_nil_of_held (by simpa using hn) rfl
  exact ⟨drained [.offer] s, run_pops ht, rfl, hc, rfl, rfl, hh, step_of_not_held (.inr rfl) hc hh,
    by simp [drained, frame_iff]⟩

end Sys2Proof.Machine
end

section
/-! SUPPORT. The pseudo-commands run (30_encoding.md R93; 41_codetable.md R112): loading one code, loading a table,
setting `UP_BITLEN`; and the assembler gives well-formed commands (R92). -/

namespace Sys2Proof.Machine

/-! ### `UP_LEN` -/

theorem extract_halves (lo hi : Half) :
    (place hi 16 ||| place lo 0).extractLsb' 16 16 = hi ∧ (place hi 16 ||| place lo 0).extractLsb' 0 16 = lo := by
  simp [BitVec.extractLsb'_or, extract_place_same, extract_place_other]

/-- A word is made of its halves. -/
theorem place_halves (n : Word) : place (n.extractLsb' 16 16) 16 ||| place (n.extractLsb' 0 16) 0 = n := by
  unfold place
  ext k hk
  simp
  grind

/-- The two halves written one after the other leave the whole word (44_unpack.md R160, R161). -/
theorem withHigh_withLow (v n : Word) : withHigh (withLow v (n.extractLsb' 0 16)) (n.extractLsb' 16 16) = n := by
  obtain ⟨-, hlow⟩ := extract_halves (n.extractLsb' 0 16) (v.extractLsb' 16 16)
  rw [withHigh, withLow, hlow, place_halves]

theorem exec_upLenLo_idle {s : State} (hm : s.mode = .idle) (h : Half) :
    exec (.upLenLo h) s = .next { s with upBitLen := withLow s.upBitLen h } :=
  gated_of_legal (by simp [hm, legalModes]) _

theorem exec_upLenHi_idle {s : State} (hm : s.mode = .idle) (h : Half) :
    exec (.upLenHi h) s = .next { s with upBitLen := withHigh s.upBitLen h } :=
  gated_of_legal (by simp [hm, legalModes]) _

/-- Settles O53: two commands legal in IDLE, one for each half. -/
theorem upLenSetsBitLength : Obligations.UpLenSetsBitLength := by
  intro n s hm
  refine ⟨{ s with upBitLen := n }, ?_, rfl, by simp [frame_iff]⟩
  simp [upLen, execAll, exec_upLenLo_idle hm, exec_upLenHi_idle, hm, withHigh_withLow]

/-! ### Codes loaded -/

theorem setCode_frame (a : Byte) (c : Bits) (s : State) : frame [.codeTable] s (setCode a c s) := by
  simp [frame_iff]

/-- `CT_CLR` in IDLE (41_codetable.md R110). -/
theorem exec_ctClr_idle {s : State} (hm : s.mode = .idle) (a : Byte) : exec (.ctClr a) s = .next (setCode a [] s) :=
  gated_of_legal (by simp [hm, legalModes]) _

/-- `CT_APPEND` in IDLE with room in the entry (41_codetable.md R111). -/
theorem exec_ctAppend_idle {s : State} (hm : s.mode = .idle) {a : Byte} {bits : Bits}
    (hlen : (codeOf s a ++ bits).length ≤ 255) :
    exec (.ctAppend a bits) s = .next (setCode a (codeOf s a ++ bits) s) := by
  rw [List.length_append] at hlen
  exact (gated_of_legal (by simp [hm, legalModes]) _).trans (if_neg (Nat.not_lt_of_le hlen))

/-- In `t` the code of `a` is `c`, and nothing else differs from `s`. -/
def LoadsCode (a : Byte) (c : Bits) (s t : State) : Prop :=
  codeOf t a = c ∧ (∀ b, b ≠ a → codeOf t b = codeOf s b) ∧ frame [.codeTable] s t

/-- What was in the entry before does not matter. -/
theorem LoadsCode.of_setCode {a : Byte} {c d : Bits} {s t : State} (h : LoadsCode a c (setCode a d s) t) :
    LoadsCode a c s t := by
  obtain ⟨ha, hb, hf⟩ := h
  exact ⟨ha, fun b hne => (hb b hne).trans (codeOf_setCode_other hne _ _), frame_trans (setCode_frame _ _ _) hf⟩

/-- The runs of a code appended one after another append the code. -/
theorem execAll_chunks {fuel : Nat} {c : Bits} {s : State} (a : Byte) (hm : s.mode = .idle) (hfuel : c.length ≤ fuel)
    (hlen : (codeOf s a ++ c).length ≤ 255) :
    ∃ t, execAll ((chunks fuel c).map (.ctAppend a)) s = .next t ∧ LoadsCode a (codeOf s a ++ c) s t := by
  induction fuel generalizing c s with
  | zero =>
    obtain rfl : c = [] := List.length_eq_zero_iff.mp (Nat.le_zero.mp hfuel)
    exact ⟨s, rfl, by simp, fun _ _ => rfl, frame_refl _ _⟩
  | succ fuel ih =>
    cases hc : c with
    | nil => exact ⟨s, rfl, by simp, fun _ _ => rfl, frame_refl _ _⟩
    | cons b rest =>
      rw [← hc]
      have hpos : 0 < c.length := by simp [hc]
      have hchunks : chunks (fuel + 1) c = c.take 16 :: chunks fuel (c.drop 16) := by rw [hc]; rfl
      have hcode : codeOf s a ++ c.take 16 ++ c.drop 16 = codeOf s a ++ c := by simp
      have hfirst : (codeOf s a ++ c.take 16).length ≤ 255 := by simp at hlen ⊢; omega
      obtain ⟨t, ht, hload⟩ := ih (c := c.drop 16) (s := setCode a (codeOf s a ++ c.take 16) s) hm
        (by rw [List.length_drop]; omega) (by rwa [codeOf_setCode_same, hcode])
      rw [codeOf_setCode_same, hcode] at hload
      refine ⟨t, ?_, hload.of_setCode⟩
      rw [hchunks, List.map_cons, execAll, exec_ctAppend_idle hm hfirst]
      exact ht

/-- Settles O51: `CT_CLR` empties the entry, and the runs of the code fill it. -/
theorem ctSetLoadsCode : Obligations.CtSetLoadsCode := by
  intro a c s hm _ hlen
  obtain ⟨t, ht, hload⟩ := execAll_chunks (s := setCode a [] s) a hm (Nat.le_refl c.length)
    (by simpa [codeOf_setCode_same] using hlen)
  rw [codeOf_setCode_same, List.nil_append] at hload
  refine ⟨t, ?_, hload.of_setCode⟩
  rw [ctSet, execAll, exec_ctClr_idle hm]
  exact ht

/-- The entries of a table with each symbol once, loaded one after another: their codes, and every other code as it
was. -/
theorem execAll_ctSets {table : List (Byte × Bits)} {s : State} (hm : s.mode = .idle)
    (hdistinct : table.Pairwise fun x y => x.1 ≠ y.1) (hlen : ∀ e ∈ table, 1 ≤ e.2.length ∧ e.2.length ≤ 255) :
    ∃ t, execAll (table.flatMap fun e => ctSet e.1 e.2) s = .next t ∧ (∀ e ∈ table, codeOf t e.1 = e.2) ∧
      (∀ a, (∀ e ∈ table, e.1 ≠ a) → codeOf t a = codeOf s a) ∧ frame [.codeTable] s t := by
  induction table generalizing s with
  | nil => exact ⟨s, rfl, by simp, fun _ _ => rfl, frame_refl _ _⟩
  | cons e rest ih =>
    rw [List.pairwise_cons] at hdistinct
    rw [List.forall_mem_cons] at hlen
    obtain ⟨hne, hdistinct⟩ := hdistinct
    obtain ⟨⟨hpos, hle⟩, hlen⟩ := hlen
    obtain ⟨u, hu, hcode, hother, hfu⟩ := ctSetLoadsCode e.1 e.2 s hm hpos hle
    have hmu : u.mode = .idle := Eq.trans (hfu .mode (by decide)) hm
    obtain ⟨t, ht, hcodes, hothers, hft⟩ := ih hmu hdistinct hlen
    refine ⟨t, ?_, ?_, fun a ha => ?_, frame_trans hfu hft⟩
    · rw [List.flatMap_cons, execAll_append hu, ht]
    · rw [List.forall_mem_cons]
      exact ⟨(hothers e.1 fun d hd => (hne d hd).symm).trans hcode, hcodes⟩
    · rw [List.forall_mem_cons] at ha
      obtain ⟨hae, ha⟩ := ha
      exact (hothers a ha).trans (hother a hae.symm)

/-- `CLEAR_TABLES` in IDLE (40_control.md R102). -/
theorem exec_clearTables_idle {s : State} (hm : s.mode = .idle) :
    exec .clearTables s = .next (clearArena { s with ct := [] }) :=
  gated_of_legal (by simp [hm, legalModes]) _

/-- Settles O52: `CLEAR_TABLES` leaves no code, and each entry's `CT_SET` loads its own. -/
theorem loadTableLoadsExactly : Obligations.LoadTableLoadsExactly := by
  intro table s hm hrising hlen
  have hdistinct : table.Pairwise fun x y => x.1 ≠ y.1 := hrising.imp fun hlt he => by
    rw [he] at hlt
    exact Nat.lt_irrefl _ hlt
  obtain ⟨t, ht, hcodes, hothers, hft⟩ := execAll_ctSets (s := clearArena { s with ct := [] }) hm hdistinct hlen
  have hclear : frame [.codeTable, .arena, .root, .treeValid] s (clearArena { s with ct := [] }) := by simp [frame_iff]
  refine ⟨t, ?_, hcodes, hothers, frame_trans hclear (frame_mono (by simp) hft)⟩
  rw [loadTable, execAll, exec_clearTables_idle hm]
  exact ht

/-! ### The assembler -/

/-- Every instruction of a list is well-formed. -/
def AllWf (is : List Instr) : Prop := ∀ i ∈ is, i.wf = true

@[simp] theorem allWf_nil : AllWf [] := List.forall_mem_nil _

@[simp] theorem allWf_cons {i : Instr} {is : List Instr} : AllWf (i :: is) ↔ i.wf = true ∧ AllWf is :=
  List.forall_mem_cons

@[simp] theorem allWf_append {is js : List Instr} : AllWf (is ++ js) ↔ AllWf is ∧ AllWf js := List.forall_mem_append

@[simp] theorem allWf_map {α : Type} {f : α → Instr} {l : List α} : AllWf (l.map f) ↔ ∀ a ∈ l, (f a).wf = true :=
  List.forall_mem_map

theorem chunks_length {fuel : Nat} {c d : Bits} (h : d ∈ chunks fuel c) : 1 ≤ d.length ∧ d.length ≤ 16 := by
  induction fuel generalizing c with
  | zero => simp [chunks] at h
  | succ fuel ih =>
    cases c with
    | nil => simp [chunks] at h
    | cons b rest =>
      obtain rfl | h := List.mem_cons.mp h
      · simp
      · exact ih h

theorem ctSet_allWf (a : Byte) (c : Bits) : AllWf (ctSet a c) := by
  simpa [ctSet, Instr.wf] using fun d => chunks_length (fuel := c.length) (c := c) (d := d)

theorem loadTable_allWf (table : List (Byte × Bits)) : AllWf (loadTable table) := by
  refine allWf_cons.mpr ⟨rfl, fun i hi => ?_⟩
  obtain ⟨e, -, hi⟩ := List.mem_flatMap.mp hi
  exact ctSet_allWf _ _ i hi

theorem upLen_allWf (n : Word) : AllWf (upLen n) := by simp [upLen, Instr.wf]

theorem packProgram_allWf (syms : List Byte) : AllWf (packProgram syms) := by simp [packProgram, Instr.wf]

theorem unpackProgram_allWf (n : Word) (bytes : List Byte) : AllWf (unpackProgram n bytes) := by
  simp [unpackProgram, upLen_allWf, Instr.wf]

theorem allWf_of_ifWf {i : Instr} {is : List Instr} (h : ifWf i = some is) : AllWf is := by
  unfold ifWf at h
  split_ifs at h with hwf
  cases h
  simpa using hwf

theorem allWf_of_bind {α : Type} {o : Option α} {f : α → Option (List Instr)} {is : List Instr}
    (h : o.bind f = some is) (hf : ∀ a, f a = some is → AllWf is) : AllWf is := by
  obtain ⟨a, -, ha⟩ := Option.bind_eq_some_iff.mp h
  exact hf a ha

theorem allWf_of_map {α : Type} {o : Option α} {f : α → List Instr} {is : List Instr}
    (h : o.map f = some is) (hf : ∀ a, AllWf (f a)) : AllWf is := by
  obtain ⟨a, -, rfl⟩ := Option.map_eq_some_iff.mp h
  exact hf a

/-- By mnemonic: a fixed command, one operand in its field, a bit-string or index that `ifWf` checks, or the expansion
of a pseudo-command. -/
theorem assembleOps_allWf {m : List Char} {ops : List Operand} {is : List Instr} (h : assembleOps m ops = some is) :
    AllWf is := by
  unfold assembleOps at h
  split at h
  case h_5 => exact allWf_of_bind h fun s => allWf_of_ifWf
  case h_7 => exact allWf_of_bind h fun i hi => allWf_of_bind hi fun s => allWf_of_ifWf
  case h_8 =>
    exact allWf_of_bind h fun i hi => allWf_of_bind hi fun l hl => allWf_of_bind hl fun r => allWf_of_ifWf
  case h_9 => exact allWf_of_bind h fun i => allWf_of_ifWf
  case h_18 => exact allWf_of_bind h fun s hs => allWf_of_map hs fun c => ctSet_allWf s c
  case h_19 => exact allWf_of_map h fun t => loadTable_allWf _
  case h_20 => exact allWf_of_map h fun n => upLen_allWf n
  case h_21 => exact allWf_of_map h packProgram_allWf
  case h_22 => exact allWf_of_bind h fun n hn => allWf_of_map hn fun bytes => unpackProgram_allWf n bytes
  case h_23 => cases h
  case h_4 | h_11 | h_13 | h_14 | h_16 => exact allWf_of_map h fun a => by simp [Instr.wf]
  all_goals
    cases h
    simp [Instr.wf]

/-- Settles O54: a line has no command, or those of its mnemonic and operands. -/
theorem assembledCommandsAreWellFormed : Obligations.AssembledCommandsAreWellFormed := by
  intro line is h
  unfold assembleLine at h
  split at h
  · cases h
    simp
  · obtain ⟨ops, -, hops⟩ := Option.bind_eq_some_iff.mp h
    exact assembleOps_allWf hops
  · cases h

end Sys2Proof.Machine
end

section
/-! SUPPORT. The control commands (40_control.md R100 to R102): what each leaves of the state, from `abort` and
`clearArena`, and which word with `OP` = 0 is legal. -/

namespace Sys2Proof.Machine

/-! ### `NOP` -/

/-- The only legal word with `OP` = 0 is that of `NOP`: the decoder of form N keeps every other field 0 (R83). -/
theorem decode_rejects_of_opField_zero {w : Word} (hop : opField w = 0x0#4) (hw : w ≠ 0) :
    ∃ r, decode w = .error r := by
  have hform : decode w = decodeN w .nop := by simp [decode, hop]
  rw [hform, decodeN_rejects_iff]
  intro hlow
  obtain ⟨himm, hs, ha⟩ := low28_eq_zero_iff.mp hlow
  exact hw (by rw [← wordG_fields w, hop, ha, hs, himm]; rfl)

/-- Settles O13: in each mode `NOP` passes the legality check, and any other word with `OP` = 0 is rejected. -/
theorem nopHasNoEffect : Obligations.NopHasNoEffect := by
  refine ⟨rfl, execNop_eq, fun w s hop hw => ?_⟩
  obtain ⟨r, hr⟩ := decode_rejects_of_opField_zero hop hw
  exact ⟨accept_of_rejected_error hr, raisesIllegal_of_rejected hr⟩

/-! ### `ABORT` -/

/-- `ABORT` passes the legality check in every mode, ERROR included. -/
theorem execAbort_eq (s : State) : execAbort s = .next (abort s) :=
  gated_of_legal (by cases s.mode <;> simp [legalModes]) _

theorem abort_frame (s : State) :
    frame [.mode, .err, .errMode, .errInfo, .cpl, .acc, .accN, .upRemain, .cur, .midcode] s (abort s) := by
  simp [frame_iff]

/-- Settles O14: `ABORT` runs in every mode, and `abort` writes the fields of the session and of the error alone. -/
theorem abortEndsSessionAndClearsError : Obligations.AbortEndsSessionAndClearsError :=
  ⟨rfl, fun s => ⟨abort s, execAbort_eq s, rfl, rfl, rfl, rfl, rfl, rfl, rfl, rfl, rfl, rfl, abort_frame s⟩⟩

/-! ### `CLEAR_TABLES` -/

theorem ctLen_of_ct_nil {s : State} (h : s.ct = []) (a : Byte) : ctLen s a = 0 := by
  simp [ctLen, codeOf, h]

theorem nodeAt_of_arena_nil {s : State} (h : s.arena = []) (i : NodeIdx) : nodeAt s i = none := by
  rw [nodeAt, h, nodeIn_nil]

/-- Settles O15: in IDLE both tables are left empty lists, as reset leaves them; elsewhere the legality check raises. -/
theorem clearTablesEmptiesBothTables : Obligations.ClearTablesEmptiesBothTables := by
  refine ⟨rfl, (legalExactlyIn_of_legalModes rfl (by decide)).2, fun s hm => ?_⟩
  exact ⟨clearArena { s with ct := [] }, exec_clearTables_idle hm, ctLen_of_ct_nil rfl, nodeAt_of_arena_nil rfl,
    rfl, rfl, rfl, rfl, by simp [frame_iff]⟩

end Sys2Proof.Machine
end

section
/-! SUPPORT. The code-table commands (41_codetable.md R110, R111): the words of `CT_CLR` and `CT_APPEND`, and the
overflow of an entry. -/

namespace Sys2Proof

/-! ### The words (R82, R84, R92) -/

/-- The immediate of `CT_APPEND` in a word: the number of its bits, moved to the top of 16 (R92). -/
theorem place_appendImm {bits : Bits} (h : bits.length ≤ 16) :
    place (appendImm bits) 0 = BitVec.ofNat 32 (bitsToNat bits) <<< (16 - bits.length) := by
  refine BitVec.eq_of_getLsbD_eq fun k hk => ?_
  simp only [place, BitVec.shiftLeft_zero, BitVec.getLsbD_setWidth, BitVec.getLsbD_shiftLeft, BitVec.getLsbD_ofNat,
    testBit_bitsToNat, hk, decide_true, Bool.true_and]
  by_cases hlow : k < 16
  · have hk' : k - (16 - bits.length) < 32 := by omega
    rw [getLsbD_appendImm hlow]
    simp [hk', ← decide_not]
  · have hout : bits.reverse.length ≤ k - (16 - bits.length) := by rw [List.length_reverse]; omega
    rw [BitVec.getLsbD_of_ge _ _ (Nat.le_of_not_lt hlow), List.getD_eq_default _ _ hout]
    simp

/-- The word of `CT_APPEND`, field by field. -/
theorem encode_ctAppend (a : Byte) {bits : Bits} (h : bits.length ≤ 16) :
    encode (.ctAppend a bits) = 0x40000000#32 ||| (BitVec.ofNat 32 (bits.length - 1) <<< 24) |||
      (a.setWidth 32 <<< 16) ||| (BitVec.ofNat 32 (bitsToNat bits) <<< (16 - bits.length)) := by
  have hcount : (BitVec.ofNat 4 (bits.length - 1)).setWidth 32 = BitVec.ofNat 32 (bits.length - 1) :=
    BitVec.setWidth_ofNat_of_le_of_lt (by decide) (by omega)
  rw [encode, wordG, place_appendImm h, place, place, place, hcount]
  rfl

/-- The immediate's bits are the low bits of the word. -/
theorem getLsbD_immField {w : Word} {k : Nat} (hk : k < 16) : (immField w).getLsbD k = w.getLsbD k := by
  simp [immField, hk]

/-- The first bit to append is bit 15 of the word, and the others follow downwards (R84). -/
theorem getLsbD_encode_ctAppend (a : Byte) {bits : Bits} (h : bits.length ≤ 16) {j : Nat} (hj : j < bits.length) :
    (encode (.ctAppend a bits)).getLsbD (15 - j) = bits.getD j false := by
  have himm : immField (encode (.ctAppend a bits)) = appendImm bits := immField_wordG ..
  have hbits : j < (appendedBits bits.length (appendImm bits)).length := by simpa using hj
  rw [← getLsbD_immField (by omega), himm, ← getElem_appendedBits hbits, List.getD_eq_getElem _ _ hj]
  simp only [appendedBits_appendImm h]

/-- A word with `OP` = 4 is decoded as form B, which rejects a bit set below its bits (R83, R89). -/
theorem decode_rejects_of_appendTail {w : Word} (hop : opField w = 0x4#4)
    (htail : ∃ k, k + (w.extractLsb' 24 4).toNat + 1 ≤ 15 ∧ w.getLsbD k = true) : ∃ r, decode w = .error r := by
  have hform : decode w = decodeB w := by simp [decode, hop]
  rw [hform]
  exact decodeB_rejects_iff.mpr htail

end Sys2Proof

namespace Sys2Proof.Machine

/-- Outside the modes of R86's table a command raises `SEQUENCE` and does nothing else. -/
theorem sequenceOutside_legalModes (i : Instr) : sequenceOutside i (legalModes i) :=
  fun _ hl hm => raisesOnly_sequence hl hm

/-- A code written is the one change to the state (10_state.md R25). -/
theorem loadsCode_setCode (a : Byte) (c : Bits) (s : State) : LoadsCode a c s (setCode a c s) :=
  ⟨codeOf_setCode_same a c s, fun _ hb => codeOf_setCode_other hb c s, setCode_frame a c s⟩

/-! ### `CT_CLR` -/

theorem encode_ctClr (a : Byte) : encode (.ctClr a) = 0x30000000#32 ||| (a.setWidth 32 <<< 16) := by
  simp [encode, wordG, place]

/-- Settles O16: in IDLE the empty code is written, which removes the entry; elsewhere the legality check raises. -/
theorem ctClrRemovesOneEntry : Obligations.CtClrRemovesOneEntry := by
  refine ⟨encode_ctClr, fun a => sequenceOutside_legalModes (.ctClr a), fun a s hm => ?_⟩
  obtain ⟨hcode, hother, hframe⟩ := loadsCode_setCode a [] s
  exact ⟨_, exec_ctClr_idle hm a, by rw [ctLen, hcode, List.length_nil], hother, hframe⟩

/-! ### `CT_APPEND` -/

/-- `CT_APPEND` in IDLE past the room in the entry (R111). -/
theorem exec_ctAppend_overflow {s : State} (hm : s.mode = .idle) {a : Byte} {bits : Bits}
    (hlen : 255 < ctLen s a + bits.length) :
    exec (.ctAppend a bits) s = .next (raise .overflow (encode (.ctAppend a bits)) s) :=
  (gated_of_legal (by simp [hm, legalModes]) _).trans (if_pos hlen)

/-- Settles O17: the word by its fields, the illegal tail by the decoder of form B, and in IDLE one code written or
`OVERFLOW` raised, by the length the code would have; elsewhere the legality check raises. -/
theorem ctAppendExtendsOneCode : Obligations.CtAppendExtendsOneCode := by
  refine ⟨fun a bits _ hle => ⟨encode_ctAppend a hle, fun j => getLsbD_encode_ctAppend a hle⟩, fun w hop htail => ?_,
    fun a bits => sequenceOutside_legalModes (.ctAppend a bits), fun a bits s hm => ⟨fun hlen => ?_, fun hlen => ?_⟩⟩
  · obtain ⟨r, hr⟩ := decode_rejects_of_appendTail hop htail
    exact raisesIllegal_of_rejected hr
  · have hroom : (codeOf s a ++ bits).length ≤ 255 := by rwa [List.length_append]
    obtain ⟨hcode, hother, hframe⟩ := loadsCode_setCode a (codeOf s a ++ bits) s
    exact ⟨_, exec_ctAppend_idle hm hroom, hcode, by rw [ctLen, hcode, List.length_append, ctLen], hother, hframe⟩
  · exact ⟨_, exec_ctAppend_overflow hm hlen, raise_errorEntered _ _ _, raise_frame (List.Subset.refl _) _ _ _⟩

end Sys2Proof.Machine
end

section
/-! SUPPORT. The host-written tree (42_tree.md R131 to R133): the words of `TR_LEAF`, `TR_INNER` and `TR_ROOT`, and the
one node or root each writes. -/

namespace Sys2Proof

/-! ### The words (R81, R82) -/

theorem encode_trLeaf (x : NodeIdx) (a : Byte) :
    encode (.trLeaf x a) = 0x60000000#32 ||| (x.setWidth 32 <<< 18) ||| a.setWidth 32 := by
  simp [encode, wordT, place]

theorem encode_trInner (x l r : NodeIdx) :
    encode (.trInner x l r) =
      0x68000000#32 ||| (x.setWidth 32 <<< 18) ||| (l.setWidth 32 <<< 9) ||| r.setWidth 32 := by
  simp [encode, wordT, place]

theorem encode_trRoot (x : NodeIdx) : encode (.trRoot x) = 0x70000000#32 ||| x.setWidth 32 := by
  simp [encode, wordG, place]

/-- In format T, `OP` and `K` are the upper five bits. -/
theorem formatT_fields {w : Word} {v : BitVec 5} (h : w.extractLsb' 27 5 = v) :
    w.extractLsb' 28 4 = v.extractLsb' 1 4 ∧ w.getLsbD 27 = v.getLsbD 0 := by
  subst h
  refine ⟨BitVec.eq_of_getLsbD_eq fun k hk => ?_, by simp⟩
  have hlt : 1 + k < 5 := by omega
  simp [hk, hlt, ← Nat.add_assoc]

end Sys2Proof

namespace Sys2Proof.Machine

/-! ### Illegal words (R89) -/

/-- A word that R89 lists raises `ILLEGAL_CMD`: the clause of format T. -/
theorem raisesIllegal_of_formatT {w : Word} (hop : w.extractLsb' 28 4 = 0x6#4)
    (hbad : w.extractLsb' 18 9 = 0x1FF#9 ∨ (w.getLsbD 27 = false ∧ w.extractLsb' 8 10 ≠ 0#10)) : raisesIllegal w := by
  obtain ⟨hiff, hraise⟩ := illegalWordsAreExactlyThose w
  exact hraise (hiff.mpr (.inr (.inr (.inr (.inr (.inl ⟨hop, hbad⟩))))))

/-- The clause of form R. -/
theorem raisesIllegal_of_formR {w : Word} (hop : w.extractLsb' 28 4 = 0x7#4)
    (hbad : w.extractLsb' 9 19 ≠ 0#19 ∨ w.extractLsb' 0 9 = 0x1FF#9) : raisesIllegal w := by
  obtain ⟨hiff, hraise⟩ := illegalWordsAreExactlyThose w
  exact hraise (hiff.mpr (.inr (.inr (.inr (.inr (.inr (.inl ⟨hop, hbad⟩)))))))

/-! ### One node written -/

/-- A node written at an index other than `NIL` is the one change to the state. -/
theorem setNode_writes {x : NodeIdx} (hx : x ≠ nilIdx) (n : Node) (s : State) :
    nodeAt (setNode x n s) x = some n ∧ (∀ j, j ≠ x → nodeAt (setNode x n s) j = nodeAt s j) ∧
      frame [.arena] s (setNode x n s) :=
  ⟨nodeIn_writeNode_same s.arena hx n, fun _ hj => nodeIn_writeNode_other s.arena hj n, by simp [frame_iff]⟩

/-- Settles O21: the word by its fields, its illegal forms by R89, and in IDLE one LEAF written; elsewhere the legality
check raises. -/
theorem trLeafWritesOneNode : Obligations.TrLeafWritesOneNode := by
  refine ⟨encode_trLeaf, fun w hop hbad => ?_, fun x a => sequenceOutside_legalModes (.trLeaf x a),
    fun x a s hx hm => ⟨_, gated_of_legal (by simp [hm, legalModes]) _, setNode_writes hx _ s⟩⟩
  obtain ⟨hop6, hk⟩ := formatT_fields hop
  exact raisesIllegal_of_formatT hop6 (hbad.imp_right fun hmid => ⟨hk, hmid⟩)

/-- Settles O22: as `TR_LEAF`, with an INNER node; the children are not looked at. -/
theorem trInnerWritesOneNode : Obligations.TrInnerWritesOneNode :=
  ⟨encode_trInner, fun _ hop hnil => raisesIllegal_of_formatT (formatT_fields hop).1 (.inl hnil),
    fun x l r => sequenceOutside_legalModes (.trInner x l r),
    fun _ _ _ s hx hm => ⟨_, gated_of_legal (by simp [hm, legalModes]) _, setNode_writes hx _ s⟩⟩

/-- Settles O23: the word by its fields, its illegal forms by R89, and in IDLE the root written with no look at the arena;
elsewhere the legality check raises. -/
theorem trRootInstallsTree : Obligations.TrRootInstallsTree :=
  ⟨encode_trRoot, fun _ hop hbad => raisesIllegal_of_formR hop hbad,
    fun x => sequenceOutside_legalModes (.trRoot x),
    fun _ _ hm => ⟨_, gated_of_legal (by simp [hm, legalModes]) _, rfl, rfl, by simp [frame_iff]⟩⟩

end Sys2Proof.Machine
end

section
/-! SUPPORT. The code table as the list of its entries: the symbols with an entry, their codes, and the verdict of
`ValidTable` over them (10_state.md R25; 42_tree.md R121). -/

namespace Sys2Proof.Machine

/-- The symbol of a table row. -/
def rowSym (e : Nat × Bits) : Byte := BitVec.ofNat 8 e.1

theorem mem_entries_iff {s : State} {a : Byte} : a ∈ entries s ↔ ctLen s a ≠ 0 := by
  simp only [entries, List.mem_filter, List.mem_map, bne_iff_ne, and_iff_right_iff_imp]
  exact fun _ => ⟨a.toNat, List.mem_range.mpr a.isLt, by simp⟩

theorem entries_ascend (s : State) : (entries s).Pairwise (· < ·) := by
  refine List.Pairwise.filter _ (List.pairwise_map.mpr (List.pairwise_lt_range.imp_of_mem fun hi hj hlt => ?_))
  have hi' : _ < 256 := List.mem_range.mp hi
  have hj' : _ < 256 := List.mem_range.mp hj
  simp only [BitVec.lt_def, BitVec.toNat_ofNat]
  omega

section Table

variable {s : State} (h : codeTableWf s)
include h

theorem toNat_rowSym {e : Nat × Bits} (he : e ∈ s.ct) : (rowSym e).toNat = e.1 := by
  have hlt : e.1 < 256 := h.1.2 e he
  rw [rowSym, BitVec.toNat_ofNat]
  omega

theorem codeOf_rowSym {e : Nat × Bits} (he : e ∈ s.ct) : codeOf s (rowSym e) = e.2 := by
  rw [codeOf, toNat_rowSym h he, Memory.read_of_mem h.1 he, Option.getD_some]

/-- A code's length is positive exactly where a row is listed (R25). -/
theorem ctLen_ne_zero_iff {a : Byte} : ctLen s a ≠ 0 ↔ ∃ e ∈ s.ct, rowSym e = a := by
  constructor
  · intro hne
    cases hr : Memory.read s.ct a.toNat with
    | none => simp [ctLen, codeOf, hr] at hne
    | some c => exact ⟨_, Memory.mem_of_read hr, by simp [rowSym]⟩
  · rintro ⟨e, he, rfl⟩
    have hpos : 1 ≤ e.2.length := (h.2 e he).1
    rw [ctLen, codeOf_rowSym h he]
    omega

/-- The symbols with an entry are those of the rows, in the order of the list: both ascend (R25). -/
theorem entries_eq : entries s = s.ct.map rowSym := by
  refine List.Pairwise.eq_of_mem_iff (entries_ascend s) ?_ fun a => ?_
  · refine List.pairwise_map.mpr (h.1.1.imp_of_mem fun hx hy hlt => ?_)
    rwa [BitVec.lt_def, toNat_rowSym h hx, toNat_rowSym h hy]
  · rw [mem_entries_iff, ctLen_ne_zero_iff h, List.mem_map]

/-- Rows with one symbol are one row. -/
theorem row_eq_of_fst_eq {x y : Nat × Bits} (hx : x ∈ s.ct) (hy : y ∈ s.ct) (he : x.1 = y.1) : x = y := by
  have hcode := codeOf_rowSym h hx
  rw [rowSym, he] at hcode
  exact Prod.ext he (hcode.symm.trans (codeOf_rowSym h hy))

theorem rowSym_injOn {x y : Nat × Bits} (hx : x ∈ s.ct) (hy : y ∈ s.ct) (he : rowSym x = rowSym y) : x = y :=
  row_eq_of_fst_eq h hx hy (by rw [← toNat_rowSym h hx, he, toNat_rowSym h hy])

/-- The model's check for codes that begin others is R121's, over the symbols with an entry. -/
theorem ambiguous_iff :
    ambiguous s.ct = true ↔ ∃ a ∈ entries s, ∃ b ∈ entries s, a ≠ b ∧ codeOf s a <+: codeOf s b := by
  simp only [ambiguous, List.any_eq_true, Bool.and_eq_true, bne_iff_ne, List.isPrefixOf_iff_prefix, entries_eq h,
    List.mem_map, exists_exists_and_eq_and]
  refine exists_congr fun x => and_congr_right fun hx => exists_congr fun y => and_congr_right fun hy => ?_
  rw [codeOf_rowSym h hx, codeOf_rowSym h hy]
  exact and_congr_left' (not_congr ⟨fun he => by rw [row_eq_of_fst_eq h hx hy he],
    fun he => by rw [rowSym_injOn h hx hy he]⟩)

/-- The model's Kraft sum is R121's, over the symbols with an entry. -/
theorem kraftSum_eq : ((entries s).map fun a => 2 ^ (255 - ctLen s a)).sum = kraftSum s.ct := by
  rw [entries_eq h, List.map_map, kraftSum]
  refine congrArg List.sum (List.map_congr_left fun e he => ?_)
  rw [Function.comp_apply, ctLen, codeOf_rowSym h he]
  rfl

/-- The model's `ValidTable` gives R121's verdict: with no row, with one, and with more. -/
theorem tableVerdict_eq : tableVerdict s = validTable s.ct := by
  have hlen : (entries s).length = s.ct.length := by rw [entries_eq h, List.length_map]
  rw [tableVerdict, hlen]
  match hct : s.ct with
  | [] => rfl
  | [e] =>
    have hcode : codeOf s (rowSym e) = e.2 := codeOf_rowSym h (by simp [hct])
    simp [validTable, entries_eq h, hct, hcode]
  | x :: y :: rest =>
    have hkraft := kraftSum_eq h
    have hamb := ambiguous_iff h
    rw [hct] at hkraft hamb
    rw [if_neg (by simp), if_neg (by simp), hkraft]
    simp only [← hamb]
    rfl

end Table

end Sys2Proof.Machine
end

section
/-! SUPPORT. Codes as paths of a binary tree: where no code begins another and the Kraft sum is 1, both edges of each
inner node of the tree lead to codes, and the tree has `2m - 1` nodes for `m` codes (42_tree.md R121, R124). -/

namespace Sys2Proof.Machine

open InformationTheory

/-! ### The Kraft inequality -/

/-- No code of the set begins another. -/
def PrefixFree (S : Finset Bits) : Prop := ∀ c ∈ S, ∀ d ∈ S, c <+: d → c = d

/-- Joined codes have one reading: of the first codes of two readings one begins the other, so they are equal. -/
theorem PrefixFree.uniquelyDecodable {S : Finset Bits} (h : PrefixFree S) (hnil : [] ∉ S) :
    UniquelyDecodable (S : Set Bits) := by
  intro L₁ L₂ h₁ h₂ hflat
  have hne : ∀ c ∈ S, c ≠ [] := fun c hc he => hnil (he ▸ hc)
  induction L₁ generalizing L₂ with
  | nil =>
    cases L₂ with
    | nil => rfl
    | cons d L₂ => simp [hne d (by simpa using h₂ d)] at hflat
  | cons c L₁ ih =>
    cases L₂ with
    | nil => simp [hne c (by simpa using h₁ c)] at hflat
    | cons d L₂ =>
      rw [List.forall_mem_cons] at h₁ h₂
      obtain ⟨hc, h₁⟩ := h₁
      obtain ⟨hd, h₂⟩ := h₂
      rw [List.flatten_cons, List.flatten_cons] at hflat
      have hcd : c = d := (List.prefix_or_prefix_of_prefix (List.prefix_append c _) (hflat ▸ List.prefix_append d _)).elim
        (h c hc d hd) fun hdc => (h d hd c hc hdc).symm
      subst hcd
      rw [ih L₂ h₁ h₂ (List.append_cancel_left hflat)]

/-- The Kraft sum of a set of codes. -/
noncomputable def kraft (S : Finset Bits) : ℝ := ∑ c ∈ S, (1 / 2 : ℝ) ^ c.length

theorem PrefixFree.kraft_le_one {S : Finset Bits} (h : PrefixFree S) (hnil : [] ∉ S) : kraft S ≤ 1 := by
  simpa [kraft] using kraft_mcmillan_inequality (h.uniquelyDecodable hnil)

/-- With Kraft sum 1, every path that extends no code is extended by one: it could be added to the codes otherwise. -/
theorem PrefixFree.exists_extension {S : Finset Bits} (h : PrefixFree S) (hsum : kraft S = 1) {q : Bits} (hq : q ≠ [])
    (hnone : ∀ c ∈ S, ¬ c <+: q) (hnil : [] ∉ S) : ∃ c ∈ S, q <+: c := by
  by_contra hext
  push Not at hext
  have hmem : q ∉ S := fun hm => hnone q hm List.prefix_rfl
  have hfree : PrefixFree (insert q S) := by
    simp only [PrefixFree, Finset.forall_mem_insert]
    exact ⟨⟨fun _ => trivial, fun d hd hqd => absurd hqd (hext d hd)⟩,
      fun c hc => ⟨fun hcq => absurd hcq (hnone c hc), h c hc⟩⟩
  have hle := hfree.kraft_le_one (by simp [hq.symm, hnil])
  rw [kraft, Finset.sum_insert hmem] at hle
  have hpos : (0 : ℝ) < (1 / 2) ^ q.length := by positivity
  unfold kraft at hsum
  linarith

/-- With Kraft sum 1, both edges of a node on the path of a code lead to codes (R124). -/
theorem PrefixFree.exists_sibling {S : Finset Bits} (h : PrefixFree S) (hsum : kraft S = 1) {p c : Bits} {b : Bool}
    (hc : c ∈ S) (hp : p ++ [b] <+: c) (b' : Bool) : ∃ d ∈ S, p ++ [b'] <+: d := by
  have hproper : ∀ d ∈ S, ¬ d <+: p := fun d hd hdp => by
    have hdc : d = c := h d hd c hc (hdp.trans ((List.prefix_append p [b]).trans hp))
    have hlen := (hdc ▸ hp.length_le).trans hdp.length_le
    simp at hlen
  by_cases hm : p ++ [b'] ∈ S
  · exact ⟨_, hm, List.prefix_rfl⟩
  · refine h.exists_extension hsum (by simp) (fun d hd hdq => ?_) fun hnil => hproper [] hnil List.nil_prefix
    rcases List.prefix_concat_iff.mp hdq with rfl | hdp
    · exact hm hd
    · exact hproper d hd hdp

/-! ### The tree of a table -/

/-- The codes of the rows. -/
def codeSet (ct : List (Nat × Bits)) : Finset Bits := (ct.map Prod.snd).toFinset

/-- The nodes of the tree of a table, each by its path from the root: the prefixes of the codes. -/
def treePaths (ct : List (Nat × Bits)) : Finset Bits := (ct.flatMap fun e => e.2.inits).toFinset

@[simp] theorem mem_codeSet {ct : List (Nat × Bits)} {p : Bits} : p ∈ codeSet ct ↔ ∃ e ∈ ct, e.2 = p := by
  simp [codeSet]

@[simp] theorem mem_treePaths {ct : List (Nat × Bits)} {p : Bits} : p ∈ treePaths ct ↔ ∃ e ∈ ct, p <+: e.2 := by
  simp [treePaths]

theorem codeSet_subset_treePaths (ct : List (Nat × Bits)) : codeSet ct ⊆ treePaths ct := fun p hp => by
  obtain ⟨e, he, rfl⟩ := mem_codeSet.mp hp
  exact mem_treePaths.mpr ⟨e, he, List.prefix_rfl⟩

/-- The rows name the leaves of a full binary tree: no leaf is above another, and where one edge leaves a node both do. -/
structure FullCode (ct : List (Nat × Bits)) : Prop where
  rows       : ct.Nodup
  nonempty   : ct ≠ []
  prefixFree : ∀ x ∈ ct, ∀ y ∈ ct, x.2 <+: y.2 → x = y
  sibling    : ∀ p b, p ++ [b] ∈ treePaths ct → ∀ b', p ++ [b'] ∈ treePaths ct

namespace FullCode

variable {ct : List (Nat × Bits)} (h : FullCode ct)
include h

theorem nil_mem : [] ∈ treePaths ct := by
  obtain ⟨e, he⟩ := List.exists_mem_of_ne_nil ct h.nonempty
  exact mem_treePaths.mpr ⟨e, he, List.nil_prefix⟩

theorem codeSet_card : (codeSet ct).card = ct.length := by
  have hnodup : (ct.map Prod.snd).Nodup :=
    h.rows.map_on fun x hx y hy he => h.prefixFree x hx y hy (he ▸ List.prefix_rfl)
  rw [codeSet, List.toFinset_card_of_nodup hnodup, List.length_map]

/-- Above a node there is no code: the codes are at the leaves. -/
theorem not_code_of_child {p r : Bits} (hr : r ≠ []) (hp : p ++ r ∈ treePaths ct) : p ∉ codeSet ct := by
  rintro hc
  obtain ⟨x, hx, rfl⟩ := mem_codeSet.mp hc
  obtain ⟨y, hy, hxy⟩ := mem_treePaths.mp hp
  have he : x = y := h.prefixFree x hx y hy ((List.prefix_append x.2 r).trans hxy)
  have hlen := hxy.length_le
  rw [he, List.length_append] at hlen
  exact hr (List.length_eq_zero_iff.mp (by omega))

/-- Below a node that is no code there is a node on each edge. -/
theorem child_mem {p : Bits} (hp : p ∈ treePaths ct) (hc : p ∉ codeSet ct) (b : Bool) : p ++ [b] ∈ treePaths ct := by
  obtain ⟨e, he, r, hr⟩ := mem_treePaths.mp hp
  cases r with
  | nil => exact absurd (mem_codeSet.mpr ⟨e, he, by simpa using hr.symm⟩) hc
  | cons b' rest => exact h.sibling p b' (mem_treePaths.mpr ⟨e, he, rest, by simpa using hr⟩) b

/-- Every node but the root is on one edge of one node that is no code. -/
theorem erase_root_eq : (treePaths ct).erase [] =
    ((treePaths ct \ codeSet ct) ×ˢ Finset.univ).image fun x : Bits × Bool => x.1 ++ [x.2] := by
  ext q
  simp only [Finset.mem_erase, Finset.mem_image, Finset.mem_product, Finset.mem_sdiff, Finset.mem_univ, and_true]
  constructor
  · rintro ⟨hne, hq⟩
    obtain ⟨p, b, rfl⟩ := (List.eq_nil_or_concat' q).resolve_left hne
    obtain ⟨e, he, hqe⟩ := mem_treePaths.mp hq
    exact ⟨(p, b), ⟨mem_treePaths.mpr ⟨e, he, (List.prefix_append p [b]).trans hqe⟩,
      h.not_code_of_child (by simp) hq⟩, rfl⟩
  · rintro ⟨⟨p, b⟩, ⟨hp, hc⟩, rfl⟩
    exact ⟨by simp, h.child_mem hp hc b⟩

/-- A full binary tree with `m` leaves has `2m - 1` nodes (R124). -/
theorem treePaths_card : (treePaths ct).card = 2 * ct.length - 1 := by
  have hinj : Function.Injective fun x : Bits × Bool => x.1 ++ [x.2] := fun x y he => by
    obtain ⟨hp, hb⟩ := List.append_inj' he rfl
    exact Prod.ext hp (List.singleton_inj.mp hb)
  have hedges := congrArg Finset.card h.erase_root_eq
  rw [Finset.card_erase_of_mem h.nil_mem, Finset.card_image_of_injective _ hinj, Finset.card_product,
    Finset.card_univ, Fintype.card_bool] at hedges
  have hsplit := Finset.card_sdiff_add_card_eq_card (codeSet_subset_treePaths ct)
  rw [h.codeSet_card] at hsplit
  have hpos : 0 < (treePaths ct).card := Finset.card_pos.mpr ⟨[], h.nil_mem⟩
  omega

end FullCode

end Sys2Proof.Machine
end

section
/-! SUPPORT. The arena while a tree is built (42_tree.md R123): it holds the nodes of a list of paths, each at the place
of its path in the list, and every node that `Build` makes appends its path. -/

namespace Sys2Proof.Machine

/-! ### Places of paths -/

/-- The place of a path in the list of the nodes made so far; `NIL` for a path with no node yet. -/
def indexOf (paths : List Bits) (p : Bits) : NodeIdx :=
  if p ∈ paths then BitVec.ofNat 9 (paths.idxOf p) else nilIdx

theorem nilIdx_toNat : nilIdx.toNat = nnode := rfl

section Places

variable {paths : List Bits} (hlen : paths.length ≤ nnode)
include hlen

theorem toNat_indexOf {p : Bits} (hp : p ∈ paths) : (indexOf paths p).toNat = paths.idxOf p := by
  have hlt := List.idxOf_lt_length_iff.mpr hp
  rw [indexOf, if_pos hp, BitVec.toNat_ofNat]
  simp only [nnode] at hlen
  omega

theorem toNat_indexOf_lt {p : Bits} (hp : p ∈ paths) : (indexOf paths p).toNat < paths.length := by
  rw [toNat_indexOf hlen hp]
  exact List.idxOf_lt_length_iff.mpr hp

theorem indexOf_eq_nilIdx_iff {p : Bits} : indexOf paths p = nilIdx ↔ p ∉ paths := by
  refine ⟨fun he hp => ?_, fun hp => if_neg hp⟩
  have hlt := toNat_indexOf_lt hlen hp
  rw [he, nilIdx_toNat] at hlt
  omega

theorem indexOf_inj {p q : Bits} (hp : p ∈ paths) (hq : q ∈ paths) (he : indexOf paths p = indexOf paths q) : p = q := by
  rw [← BitVec.toNat_inj, toNat_indexOf hlen hp, toNat_indexOf hlen hq] at he
  exact (List.idxOf_inj hp).mp he

theorem exists_indexOf {i : NodeIdx} (hnodup : paths.Nodup) (hi : i.toNat < paths.length) :
    ∃ p ∈ paths, indexOf paths p = i := by
  refine ⟨paths[i.toNat], List.getElem_mem hi, BitVec.eq_of_toNat_eq ?_⟩
  rw [toNat_indexOf hlen (List.getElem_mem hi), hnodup.idxOf_getElem]

end Places

theorem indexOf_concat {paths : List Bits} {q : Bits} (hq : q ∉ paths) (p : Bits) :
    indexOf (paths ++ [q]) p = if p = q then BitVec.ofNat 9 paths.length else indexOf paths p := by
  by_cases hpq : p = q
  · subst hpq
    simp [indexOf, List.idxOf_append, hq]
  · by_cases hp : p ∈ paths <;> simp [indexOf, List.idxOf_append, hp, hpq]

/-! ### The nodes of a list of paths -/

/-- The symbol of the row whose code a path is. -/
def leafOf (ct : List (Nat × Bits)) (p : Bits) : Option Byte := (ct.find? fun e => e.2 == p).map rowSym

theorem leafOf_eq_none {ct : List (Nat × Bits)} {p : Bits} (hp : p ∉ codeSet ct) : leafOf ct p = none := by
  have hfind : (ct.find? fun e => e.2 == p) = none :=
    List.find?_eq_none.mpr fun e he hep => hp (mem_codeSet.mpr ⟨e, he, by simpa using hep⟩)
  rw [leafOf, hfind, Option.map_none]

theorem leafOf_of_mem {ct : List (Nat × Bits)} (h : FullCode ct) {e : Nat × Bits} (he : e ∈ ct) :
    leafOf ct e.2 = some (rowSym e) := by
  cases hf : ct.find? fun x => x.2 == e.2 with
  | none => simpa using List.find?_eq_none.mp hf e he
  | some x =>
    have hcode : x.2 = e.2 := by simpa using List.find?_some hf
    rw [leafOf, hf, h.prefixFree x (List.mem_of_find?_eq_some hf) e he (hcode ▸ List.prefix_rfl)]
    rfl

/-- The node at a path: a LEAF where the path is a code, else an INNER node whose children are the nodes made so far. -/
def nodeFor (ct : List (Nat × Bits)) (paths : List Bits) (p : Bits) : Node :=
  match leafOf ct p with
  | some a => .leaf a
  | none => .inner (indexOf paths (p ++ [false])) (indexOf paths (p ++ [true]))

theorem nodeFor_code {ct : List (Nat × Bits)} (h : FullCode ct) (paths : List Bits) {e : Nat × Bits} (he : e ∈ ct) :
    nodeFor ct paths e.2 = .leaf (rowSym e) := by
  rw [nodeFor, leafOf_of_mem h he]

theorem nodeFor_inner {ct : List (Nat × Bits)} (paths : List Bits) {p : Bits} (hp : p ∉ codeSet ct) :
    nodeFor ct paths p = .inner (indexOf paths (p ++ [false])) (indexOf paths (p ++ [true])) := by
  rw [nodeFor, leafOf_eq_none hp]

theorem nodeFor_congr {ct : List (Nat × Bits)} {paths paths' : List Bits} {p : Bits}
    (h : ∀ b, indexOf paths (p ++ [b]) = indexOf paths' (p ++ [b])) : nodeFor ct paths p = nodeFor ct paths' p := by
  rw [nodeFor, h, h, nodeFor]

/-! ### The list of paths -/

/-- A part of the tree of a table as the list of its paths, each once, the root first, with no path before its prefixes. -/
structure NodePaths (ct : List (Nat × Bits)) (paths : List Bits) : Prop where
  nodup  : paths.Nodup
  root   : paths.head? = some []
  within : ∀ p ∈ paths, p ∈ treePaths ct
  closed : ∀ p b, p ++ [b] ∈ paths → p ∈ paths

namespace NodePaths

variable {ct : List (Nat × Bits)} {paths : List Bits} (hp : NodePaths ct paths)
include hp

theorem root_mem : [] ∈ paths := List.mem_of_mem_head? hp.root

theorem indexOf_root : indexOf paths [] = 0 := by
  obtain ⟨rest, rfl⟩ := List.head?_eq_some_iff.mp hp.root
  simp [indexOf]

theorem mem_of_prefix {p q : Bits} (hq : q ∈ paths) (hpq : p <+: q) : p ∈ paths := by
  obtain ⟨r, rfl⟩ := hpq
  induction r using List.reverseRecOn with
  | nil => simpa using hq
  | append_singleton r b ih => exact ih (hp.closed _ b (by simpa using hq))

theorem concat {p : Bits} {b : Bool} (hmem : p ∈ paths) (hq : p ++ [b] ∈ treePaths ct) (hnew : p ++ [b] ∉ paths) :
    NodePaths ct (paths ++ [p ++ [b]]) where
  nodup := by simpa [List.nodup_append] using ⟨hp.nodup, fun r hr he => hnew (he ▸ hr)⟩
  root := by rw [List.head?_append, hp.root]; rfl
  within r hr := by
    rcases List.mem_append.mp hr with hr | hr
    · exact hp.within r hr
    · exact List.mem_singleton.mp hr ▸ hq
  closed r c hr := by
    refine List.mem_append_left _ ?_
    rcases List.mem_append.mp hr with hr | hr
    · exact hp.closed r c hr
    · exact (List.append_inj' (List.mem_singleton.mp hr) rfl).1 ▸ hmem

/-- The tree of a table of at most 256 rows fits into the arena (R124). -/
theorem length_le (h : FullCode ct) (hsize : ct.length ≤ nsym) : paths.length ≤ nnode := by
  have hcard := Finset.card_le_card (s := paths.toFinset) fun p hm => hp.within p (List.mem_toFinset.mp hm)
  rw [List.toFinset_card_of_nodup hp.nodup, h.treePaths_card] at hcard
  simp only [nsym] at hsize
  simp only [nnode]
  omega

end NodePaths

/-! ### The arena of a list of paths -/

/-- The arena holds the nodes of the paths, in their order, and the next free index is the first one after them. -/
structure Trie (ct : List (Nat × Bits)) (paths : List Bits) (t : Building) : Prop extends NodePaths ct paths where
  next   : t.next = BitVec.ofNat 9 paths.length
  node   : ∀ p ∈ paths, nodeIn t.arena (indexOf paths p) = some (nodeFor ct paths p)
  free   : ∀ i : NodeIdx, paths.length ≤ i.toNat → nodeIn t.arena i = none

/-- A new node hung on an edge of an INNER node: what every index then names. -/
theorem nodeIn_attach {t : Building} {i l r : NodeIdx} (hi : nodeIn t.arena i = some (.inner l r)) (hnext : t.next ≠ nilIdx)
    (hne : i ≠ t.next) (b : Bool) (n : Node) (j : NodeIdx) :
    nodeIn (t.attach i b n).arena j =
      if j = i then some (if b then .inner l t.next else .inner t.next r)
      else if j = t.next then some n else nodeIn t.arena j := by
  have hinil : i ≠ nilIdx := fun he => by simp [he] at hi
  rw [Building.attach, setChild, nodeIn_writeNode_other _ hne, hi]
  by_cases hji : j = i
  · rw [if_pos hji, hji]
    exact nodeIn_writeNode_same _ hinil _
  · rw [if_neg hji]
    refine (nodeIn_writeNode_other _ hji _).trans ?_
    by_cases hjn : j = t.next
    · rw [if_pos hjn, hjn]
      exact nodeIn_writeNode_same _ hnext _
    · rw [if_neg hjn]
      exact nodeIn_writeNode_other _ hjn _

namespace Trie

variable {ct : List (Nat × Bits)} {paths : List Bits} {t : Building} (h : FullCode ct) (hsize : ct.length ≤ nsym)
  (ht : Trie ct paths t)
include ht

theorem next_toNat (hroom : paths.length < nnode) : t.next.toNat = paths.length := by
  rw [nnode] at hroom
  rw [ht.next, BitVec.toNat_ofNat]
  omega

theorem indexOf_ne_next (hroom : paths.length < nnode) {p : Bits} (hp : p ∈ paths) : indexOf paths p ≠ t.next := by
  intro he
  have hlt := toNat_indexOf_lt (Nat.le_of_lt hroom) hp
  rw [he, ht.next_toNat hroom] at hlt
  omega

theorem childOf_eq {p : Bits} (hp : p ∈ paths) (hc : p ∉ codeSet ct) (b : Bool) :
    childOf t.arena (indexOf paths p) b = indexOf paths (p ++ [b]) := by
  rw [childOf, ht.node p hp, nodeFor_inner paths hc]
  cases b <;> rfl

include h hsize

/-- A new node on a free edge: its path is appended to the list. -/
theorem attach {p : Bits} {b : Bool} {n : Node} (hp : p ∈ paths) (hq : p ++ [b] ∈ treePaths ct) (hnew : p ++ [b] ∉ paths)
    (hn : nodeFor ct (paths ++ [p ++ [b]]) (p ++ [b]) = n) :
    Trie ct (paths ++ [p ++ [b]]) (t.attach (indexOf paths p) b n) := by
  have hpaths := ht.toNodePaths.concat hp hq hnew
  have hroom : paths.length < nnode := by simpa using hpaths.length_le h hsize
  have hle : paths.length ≤ nnode := Nat.le_of_lt hroom
  have hnext := ht.next_toNat hroom
  have hnil : t.next ≠ nilIdx := fun he => by
    rw [he, nilIdx_toNat] at hnext
    omega
  have hold : ∀ r ∈ paths, indexOf paths r ≠ t.next := fun _ => ht.indexOf_ne_next hroom
  have hidx : ∀ r, indexOf (paths ++ [p ++ [b]]) r = if r = p ++ [b] then t.next else indexOf paths r := by
    rw [ht.next]
    exact indexOf_concat hnew
  have hinner := h.not_code_of_child (by simp) hq
  have hread := nodeIn_attach ((ht.node p hp).trans (congrArg some (nodeFor_inner paths hinner))) hnil (hold p hp) b n
  refine ⟨hpaths, ?_, fun r hr => ?_, fun i hi => ?_⟩
  · rw [List.length_append, List.length_singleton, BitVec.ofNat_add, ← ht.next]
    rfl
  · rw [hread, hidx]
    by_cases hrq : r = p ++ [b]
    · rw [if_pos hrq, if_neg (hold p hp).symm, if_pos rfl, hrq, hn]
    · have hr : r ∈ paths := by simpa [hrq] using hr
      rw [if_neg hrq, if_neg (hold r hr)]
      by_cases hrp : r = p
      · rw [if_pos (by rw [hrp]), hrp, nodeFor_inner _ hinner, hidx, hidx]
        cases b <;> simp
      · have hchild : ∀ c, r ++ [c] ≠ p ++ [b] := fun c he => hrp (List.append_inj' he rfl).1
        rw [if_neg fun he => hrp (indexOf_inj hle hr hp he), ht.node r hr]
        exact congrArg some (nodeFor_congr fun c => by rw [hidx, if_neg (hchild c)])
  · rw [List.length_append, List.length_singleton] at hi
    have hpi := toNat_indexOf_lt hle hp
    rw [hread, if_neg fun he => by rw [he] at hi; omega, if_neg fun he => by rw [he] at hi; omega]
    exact ht.free i (by omega)

/-- A new INNER node has no child yet. -/
theorem attach_inner {p : Bits} {b : Bool} (hp : p ∈ paths) (hq : p ++ [b] ∈ treePaths ct) (hnew : p ++ [b] ∉ paths)
    (hc : p ++ [b] ∉ codeSet ct) :
    Trie ct (paths ++ [p ++ [b]]) (t.attach (indexOf paths p) b (.inner nilIdx nilIdx)) := by
  have hleaf : ∀ c, p ++ [b] ++ [c] ∉ paths ++ [p ++ [b]] := fun c hm => by
    rcases List.mem_append.mp hm with hm | hm
    · exact hnew (ht.closed _ c hm)
    · simp at hm
  refine ht.attach h hsize hp hq hnew ?_
  rw [nodeFor_inner _ hc, indexOf, indexOf, if_neg (hleaf false), if_neg (hleaf true)]

/-- The inner loop of `Build` on the rest of a code: the prefixes of the code get their nodes. -/
theorem exists_of_insertCode {e : Nat × Bits} (he : e ∈ ct) {q rest : Bits} (hcode : q ++ rest = e.2) (hrest : rest ≠ [])
    (hq : q ∈ paths) (hnew : e.2 ∉ paths) :
    ∃ paths', Trie ct paths' (insertCode (rowSym e) rest (indexOf paths q) t) ∧
      ∀ r, r ∈ paths' ↔ r ∈ paths ∨ r <+: e.2 := by
  induction rest generalizing q paths t with
  | nil => contradiction
  | cons b rest ih =>
    have hpre : q ++ [b] <+: e.2 := ⟨rest, by simpa using hcode⟩
    have htree : q ++ [b] ∈ treePaths ct := mem_treePaths.mpr ⟨e, he, hpre⟩
    cases rest with
    | nil =>
      rw [← hcode] at hnew
      refine ⟨_, ht.attach h hsize hq htree hnew (by rw [hcode, nodeFor_code h _ he]), fun r => ?_⟩
      have hq' : r <+: q → r ∈ paths := ht.mem_of_prefix hq
      rw [List.mem_append, List.mem_singleton, ← hcode, List.prefix_concat_iff]
      tauto
    | cons b' rest =>
      have hcode' : q ++ [b] ++ b' :: rest = e.2 := by simpa using hcode
      have hinner : q ++ [b] ∉ codeSet ct :=
        h.not_code_of_child (r := b' :: rest) (by simp) (mem_treePaths.mpr ⟨e, he, hcode' ▸ List.prefix_rfl⟩)
      simp only [insertCode, ht.childOf_eq hq (h.not_code_of_child (by simp) htree)]
      by_cases hchild : q ++ [b] ∈ paths
      · rw [if_neg ((indexOf_eq_nilIdx_iff (ht.length_le h hsize)).not_left.mpr hchild)]
        exact ih ht hcode' (by simp) hchild hnew
      · rw [if_pos ((indexOf_eq_nilIdx_iff (ht.length_le h hsize)).mpr hchild)]
        have hidx : t.next = indexOf (paths ++ [q ++ [b]]) (q ++ [b]) := by
          rw [indexOf_concat hchild, if_pos rfl, ht.next]
        have hne : e.2 ≠ q ++ [b] := fun hc => hinner (mem_codeSet.mpr ⟨e, he, hc⟩)
        rw [hidx]
        obtain ⟨paths', htrie, hmem⟩ := ih (ht.attach_inner h hsize hq htree hchild hinner) hcode' (by simp) (by simp)
          (by simp [hnew, hne])
        refine ⟨paths', htrie, fun r => (hmem r).trans ?_⟩
        rw [List.mem_append, List.mem_singleton]
        exact ⟨by rintro ((hr | rfl) | hr) <;> tauto, by tauto⟩

/-- The outer loop of `Build`: the prefixes of every code get their nodes. -/
theorem exists_of_insertAll {rows : List (Nat × Bits)} (hrows : ∀ e ∈ rows, e ∈ ct) (hnodup : rows.Nodup)
    (hne : ∀ e ∈ rows, e.2 ≠ []) (hnew : ∀ e ∈ rows, e.2 ∉ paths) :
    ∃ paths', Trie ct paths' (insertAll rows t) ∧ ∀ r, r ∈ paths' ↔ r ∈ paths ∨ ∃ e ∈ rows, r <+: e.2 := by
  induction rows generalizing paths t with
  | nil => exact ⟨paths, ht, by simp⟩
  | cons e rows ih =>
    rw [List.forall_mem_cons] at hrows hne hnew
    obtain ⟨he, hrows⟩ := hrows
    rw [List.nodup_cons] at hnodup
    obtain ⟨paths₁, ht₁, hmem₁⟩ := ht.exists_of_insertCode h hsize he (q := []) (List.nil_append _) hne.1 ht.root_mem hnew.1
    have hnew₁ : ∀ x ∈ rows, x.2 ∉ paths₁ := fun x hx hm => by
      rcases (hmem₁ _).mp hm with hm | hm
      · exact hnew.2 x hx hm
      · exact hnodup.1 (h.prefixFree x (hrows x hx) e he hm ▸ hx)
    obtain ⟨paths₂, ht₂, hmem₂⟩ := ih ht₁ hrows hnodup.2 hne.2 hnew₁
    rw [ht.indexOf_root] at ht₂
    exact ⟨paths₂, ht₂, fun r => by simp [hmem₂, hmem₁, or_assoc]⟩

end Trie

/-! ### What the arena of a list of paths holds -/

namespace Trie

variable {ct : List (Nat × Bits)} {paths : List Bits} {t : Building} (h : FullCode ct) (hsize : ct.length ≤ nsym)
  (ht : Trie ct paths t)
include ht

/-- Every node is that of a path. -/
theorem exists_path (hlen : paths.length ≤ nnode) {i : NodeIdx} {n : Node} (hn : nodeIn t.arena i = some n) :
    ∃ p ∈ paths, indexOf paths p = i ∧ nodeFor ct paths p = n := by
  have hi : i.toNat < paths.length := by
    by_contra hge
    rw [ht.free i (Nat.le_of_not_lt hge)] at hn
    cases hn
  obtain ⟨p, hp, rfl⟩ := exists_indexOf hlen ht.nodup hi
  exact ⟨p, hp, rfl, Option.some.inj ((ht.node p hp).symm.trans hn)⟩

include h

/-- A walk along a path that has a node ends at its place: no code ends before it, so it meets INNER nodes only. -/
theorem walkTo_eq {q r : Bits} (hm : q ++ r ∈ paths) :
    walkTo t.arena (indexOf paths q) r = some (indexOf paths (q ++ r)) := by
  induction r generalizing q with
  | nil => simp [walkTo]
  | cons b r ih =>
    have hinner : q ∉ codeSet ct := h.not_code_of_child (by simp) (ht.within _ hm)
    have hnode := ht.node q (ht.mem_of_prefix hm (List.prefix_append q _))
    rw [nodeFor_inner paths hinner] at hnode
    have hnext := ih (q := q ++ [b]) (by simpa using hm)
    rw [List.append_assoc, List.singleton_append] at hnext
    rw [walkTo, hnode, ← hnext]
    cases b <;> rfl

/-- A walk from the root along a path that has a node reaches that node. -/
theorem reached_eq {p : Bits} (hp : p ∈ paths) : reached t.arena 0 p = some (nodeFor ct paths p) := by
  have hwalk := ht.walkTo_eq h (q := []) hp
  rw [ht.indexOf_root, List.nil_append] at hwalk
  rw [reached, hwalk]
  exact ht.node p hp

end Trie

/-- The arena with the root alone. -/
theorem trie_root {ct : List (Nat × Bits)} (h : FullCode ct) :
    Trie ct [[]] ⟨[(0, nodeFor ct [[]] [])], 1⟩ where
  nodup := List.nodup_singleton _
  root := rfl
  within := by simpa using h.nil_mem
  closed p b hp := by simp at hp
  next := rfl
  node p hp := by
    rw [List.mem_singleton.mp hp]
    rfl
  free i hi := by
    have hne : (0 : Nat) ≠ i.toNat := by simp at hi; omega
    simp [nodeIn, Memory.read, hne]

end Sys2Proof.Machine
end

section
/-! SUPPORT. `TR_BUILD` (42_tree.md R122 to R124): the tree built from a valid table is the full tree of its codes; a
table of one row has the root as its leaf. -/

namespace Sys2Proof.Machine

/-! ### The codes of a valid table -/

/-- The path of each symbol's leaf: its code, or the root where the table has one row (R123). -/
def treeCodes (ct : List (Nat × Bits)) : List (Nat × Bits) :=
  match ct with
  | [e] => [(e.1, [])]
  | ct => ct

theorem treeCodes_of_two {ct : List (Nat × Bits)} (h : 2 ≤ ct.length) : treeCodes ct = ct := by
  match ct with
  | [] => rfl
  | [_] => simp at h
  | _ :: _ :: _ => rfl

@[simp] theorem map_rowSym_treeCodes (ct : List (Nat × Bits)) : (treeCodes ct).map rowSym = ct.map rowSym := by
  match ct with
  | [] => rfl
  | [_] => rfl
  | _ :: _ :: _ => rfl

@[simp] theorem length_treeCodes (ct : List (Nat × Bits)) : (treeCodes ct).length = ct.length := by
  rw [← List.length_map (f := rowSym), map_rowSym_treeCodes, List.length_map]

/-- What `ValidTable` accepts (R121): the one code `0`, or two rows or more, no code beginning another, with
the full Kraft sum. -/
theorem validTable_cases {ct : List (Nat × Bits)} (hv : validTable ct = none) :
    (∃ a, ct = [(a, [false])]) ∨ (2 ≤ ct.length ∧ ambiguous ct = false ∧ kraftSum ct = 2 ^ maxLen) := by
  match ct with
  | [] => simp [validTable] at hv
  | [(a, c)] =>
    have hc : c = [false] := by simpa [validTable] using hv
    exact .inl ⟨a, by rw [hc]⟩
  | x :: y :: rest =>
    refine .inr ⟨by simp, ?_⟩
    rw [validTable] at hv
    · split_ifs at hv with ha hk
      exact ⟨by simpa using ha, not_not.mp hk⟩
    · simp
    · simp

/-- The Kraft sum of R121 is scaled by 2^255. -/
theorem kraftSum_eq_mul {ct : List (Nat × Bits)} (hlen : ∀ e ∈ ct, e.2.length ≤ maxLen) :
    (kraftSum ct : ℝ) = 2 ^ maxLen * (ct.map fun e => (1 / 2 : ℝ) ^ e.2.length).sum := by
  rw [kraftSum, Nat.cast_list_sum, List.map_map, ← List.sum_map_mul_left]
  refine congrArg List.sum (List.map_congr_left fun e he => ?_)
  simp [pow_sub₀ (2 : ℝ) two_ne_zero (hlen e he)]

theorem fullCode_root (a : Nat) : FullCode [(a, [])] where
  rows := List.nodup_singleton _
  nonempty := by simp
  prefixFree := by simp
  sibling := by simp

/-- Two rows or more, no code beginning another and with the full Kraft sum, are the leaves of a full binary tree. -/
theorem fullCode_of_kraftSum {s : State} (h : codeTableWf s) (hlen : 2 ≤ s.ct.length) (ha : ambiguous s.ct = false)
    (hk : kraftSum s.ct = 2 ^ maxLen) : FullCode s.ct := by
  have hfree : ∀ x ∈ s.ct, ∀ y ∈ s.ct, x.2 <+: y.2 → x = y := fun x hx y hy hxy => by
    refine row_eq_of_fst_eq h hx hy ?_
    by_contra hne
    have hamb : ambiguous s.ct = true := by
      simp only [ambiguous, List.any_eq_true, Bool.and_eq_true, bne_iff_ne, List.isPrefixOf_iff_prefix]
      exact ⟨x, hx, y, hy, hne, hxy⟩
    simp [hamb] at ha
  have hrows : s.ct.Nodup := h.1.1.imp fun hlt he => by simp [he] at hlt
  have hcodes : (s.ct.map Prod.snd).Nodup :=
    hrows.map_on fun x hx y hy he => hfree x hx y hy (he ▸ List.prefix_rfl)
  have hset : PrefixFree (codeSet s.ct) := fun c hc d hd hcd => by
    obtain ⟨x, hx, rfl⟩ := mem_codeSet.mp hc
    obtain ⟨y, hy, rfl⟩ := mem_codeSet.mp hd
    rw [hfree x hx y hy hcd]
  have hsum : kraft (codeSet s.ct) = 1 := by
    have hreal := kraftSum_eq_mul fun e he => (h.2 e he).2
    rw [hk, Nat.cast_pow, Nat.cast_ofNat, eq_comm, mul_eq_left₀ (by positivity)] at hreal
    rw [kraft, codeSet, List.sum_toFinset _ hcodes, List.map_map]
    exact hreal
  refine ⟨hrows, fun he => by simp [he] at hlen, hfree, fun p b hp b' => ?_⟩
  obtain ⟨e, he, hpe⟩ := mem_treePaths.mp hp
  obtain ⟨d, hd, hpd⟩ := hset.exists_sibling hsum (mem_codeSet.mpr ⟨e, he, rfl⟩) hpe b'
  obtain ⟨x, hx, rfl⟩ := mem_codeSet.mp hd
  exact mem_treePaths.mpr ⟨x, hx, hpd⟩

theorem fullCode_treeCodes {s : State} (h : codeTableWf s) (hv : validTable s.ct = none) : FullCode (treeCodes s.ct) := by
  obtain ⟨a, hct⟩ | ⟨hlen, ha, hk⟩ := validTable_cases hv
  · rw [hct]
    exact fullCode_root a
  · rw [treeCodes_of_two hlen]
    exact fullCode_of_kraftSum h hlen ha hk

theorem length_treeCodes_le {s : State} (h : codeTableWf s) : (treeCodes s.ct).length ≤ nsym := by
  have hsub : (s.ct.map Prod.fst) ⊆ List.range nsym := fun k hk => by
    obtain ⟨e, he, rfl⟩ := List.mem_map.mp hk
    exact List.mem_range.mpr (h.1.2 e he)
  have hnodup : (s.ct.map Prod.fst).Nodup := List.pairwise_map.mpr (h.1.1.imp Nat.ne_of_lt)
  simpa using (hnodup.subperm hsub).length_le

/-! ### The arena built -/

/-- The arena holds the whole tree of a table. -/
def HoldsTree (ct : List (Nat × Bits)) (arena : List (Nat × Node)) : Prop :=
  ∃ paths t, t.arena = arena ∧ Trie ct paths t ∧ ∀ p, p ∈ paths ↔ p ∈ treePaths ct

theorem holdsTree_root (a : Nat) (c : Bits) : HoldsTree [(a, [])] (buildArena [(a, c)]) := by
  have hnode : nodeFor [(a, [])] [[]] [] = .leaf (rowSym (a, c)) :=
    nodeFor_code (fullCode_root a) [[]] (List.mem_singleton_self (a, []))
  refine ⟨[[]], _, ?_, trie_root (fullCode_root a), by simp⟩
  simp only [hnode]
  rfl

theorem holdsTree_insertAll {ct : List (Nat × Bits)} (hlen : 2 ≤ ct.length) (hfull : FullCode ct)
    (hsize : ct.length ≤ nsym) (hne : ∀ e ∈ ct, e.2 ≠ []) : HoldsTree ct (buildArena ct) := by
  have hnil : [] ∉ codeSet ct := fun hc => by
    obtain ⟨e, he, hc⟩ := mem_codeSet.mp hc
    exact hne e he hc
  obtain ⟨paths, ht, hmem⟩ := (trie_root hfull).exists_of_insertAll hfull hsize (fun _ he => he) hfull.rows hne
    fun e he hm => hne e he (List.mem_singleton.mp hm)
  refine ⟨paths, _, ?_, ht, fun p => ?_⟩
  · rw [nodeFor_inner _ hnil]
    match ct with
    | [_] => simp at hlen
    | _ :: _ :: _ => rfl
  · rw [hmem, mem_treePaths, List.mem_singleton, or_iff_right_iff_imp]
    rintro rfl
    exact mem_treePaths.mp hfull.nil_mem

/-- `Build` on a valid table makes the full tree of its codes (R123, R124). -/
theorem holdsTree_buildArena {s : State} (h : codeTableWf s) (hv : validTable s.ct = none) :
    HoldsTree (treeCodes s.ct) (buildArena s.ct) := by
  have hfull := fullCode_treeCodes h hv
  obtain ⟨a, hct⟩ | ⟨hlen, -, -⟩ := validTable_cases hv
  · rw [hct]
    exact holdsTree_root a _
  · have hsize := length_treeCodes_le h
    rw [treeCodes_of_two hlen] at hfull hsize ⊢
    exact holdsTree_insertAll hlen hfull hsize fun e he hc => by simpa [hc] using (h.2 e he).1

/-! ### What the whole tree holds (R124) -/

/-- In canonical form an index names what the arena lists at it. -/
theorem nodeIn_eq_some_iff {arena : List (Nat × Node)} (hw : Memory.wf nnode arena) {i : NodeIdx} {n : Node} :
    nodeIn arena i = some n ↔ (i.toNat, n) ∈ arena := by
  constructor
  · intro hn
    rw [nodeIn] at hn
    split at hn
    · cases hn
    · exact Memory.mem_of_read hn
  · intro hm
    have hne : i ≠ nilIdx := fun he => absurd (hw.2 _ hm) (by simp [he, nilIdx_toNat])
    rw [nodeIn, if_neg hne, Memory.read_of_mem hw hm]

namespace HoldsTree

variable {ct : List (Nat × Bits)} {arena : List (Nat × Node)} (h : FullCode ct) (ht : HoldsTree ct arena)
include ht

theorem root_ne_none : nodeIn arena 0 ≠ none := by
  obtain ⟨paths, t, rfl, ht, -⟩ := ht
  have hroot := ht.node [] ht.root_mem
  rw [ht.indexOf_root] at hroot
  rw [hroot]
  exact Option.some_ne_none _

include h

theorem reached_code {e : Nat × Bits} (he : e ∈ ct) : reached arena 0 e.2 = some (.leaf (rowSym e)) := by
  obtain ⟨paths, t, rfl, ht, hfull⟩ := ht
  rw [ht.reached_eq h ((hfull _).mpr (mem_treePaths.mpr ⟨e, he, List.prefix_rfl⟩)), nodeFor_code h _ he]

/-- No walk along a part of a code, from the root, reaches a LEAF. -/
theorem reached_above {e : Nat × Bits} (he : e ∈ ct) {p : Bits} (hp : p <+: e.2) (hne : p ≠ e.2) (a : Byte) :
    reached arena 0 p ≠ some (.leaf a) := by
  obtain ⟨paths, t, rfl, ht, hfull⟩ := ht
  have hc : p ∉ codeSet ct := fun hc => by
    obtain ⟨x, hx, rfl⟩ := mem_codeSet.mp hc
    exact hne (congrArg Prod.snd (h.prefixFree x hx e he hp))
  rw [ht.reached_eq h ((hfull _).mpr (mem_treePaths.mpr ⟨e, he, hp⟩)), nodeFor_inner _ hc]
  simp

variable (hsize : ct.length ≤ nsym)
include hsize

/-- The nodes stand at the indices below `2m - 1`. -/
theorem nodeIn_ne_none_iff {i : NodeIdx} : nodeIn arena i ≠ none ↔ i.toNat < 2 * ct.length - 1 := by
  obtain ⟨paths, t, rfl, ht, hfull⟩ := ht
  have hle := ht.length_le h hsize
  have hcard : paths.length = 2 * ct.length - 1 := by
    have hset : paths.toFinset = treePaths ct := Finset.ext fun p => List.mem_toFinset.trans (hfull p)
    rw [← List.toFinset_card_of_nodup ht.nodup, hset, h.treePaths_card]
  rw [← hcard]
  constructor
  · intro hn
    obtain ⟨n, hn⟩ := Option.ne_none_iff_exists'.mp hn
    obtain ⟨p, hp, rfl, -⟩ := ht.exists_path hle hn
    exact toNat_indexOf_lt hle hp
  · intro hi
    obtain ⟨p, hp, rfl⟩ := exists_indexOf hle ht.nodup hi
    simp [ht.node p hp]

/-- The children of an INNER node are nodes. -/
theorem children_ne_none {i l r : NodeIdx} (hn : nodeIn arena i = some (.inner l r)) :
    nodeIn arena l ≠ none ∧ nodeIn arena r ≠ none := by
  obtain ⟨paths, t, rfl, ht, hfull⟩ := ht
  obtain ⟨p, hp, -, hnode⟩ := ht.exists_path (ht.length_le h hsize) hn
  have hc : p ∉ codeSet ct := fun hc => by
    obtain ⟨e, he, rfl⟩ := mem_codeSet.mp hc
    rw [nodeFor_code h _ he] at hnode
    cases hnode
  have hchild : ∀ b, nodeIn t.arena (indexOf paths (p ++ [b])) ≠ none := fun b => by
    simp [ht.node _ ((hfull _).mpr (h.child_mem ((hfull p).mp hp) hc b))]
  rw [nodeFor_inner _ hc] at hnode
  cases hnode
  exact ⟨hchild false, hchild true⟩

/-- The leaves and the rows are one for one: the leaf of a row is at the place of its code. -/
theorem exists_leafIndex : ∃ idx : Nat × Bits → NodeIdx, (∀ x ∈ ct, ∀ y ∈ ct, idx x = idx y → x = y) ∧
    ∀ i a, nodeIn arena i = some (.leaf a) ↔ ∃ e ∈ ct, idx e = i ∧ rowSym e = a := by
  obtain ⟨paths, t, rfl, ht, hfull⟩ := ht
  have hle := ht.length_le h hsize
  have hmem : ∀ e ∈ ct, e.2 ∈ paths := fun e he => (hfull _).mpr (mem_treePaths.mpr ⟨e, he, List.prefix_rfl⟩)
  refine ⟨fun e => indexOf paths e.2, fun x hx y hy he => ?_, fun i a => ⟨fun hn => ?_, ?_⟩⟩
  · exact h.prefixFree x hx y hy (indexOf_inj hle (hmem x hx) (hmem y hy) he ▸ List.prefix_rfl)
  · obtain ⟨p, hp, rfl, hnode⟩ := ht.exists_path hle hn
    by_cases hc : p ∈ codeSet ct
    · obtain ⟨e, he, rfl⟩ := mem_codeSet.mp hc
      rw [nodeFor_code h _ he] at hnode
      exact ⟨e, he, rfl, Node.leaf.inj hnode⟩
    · rw [nodeFor_inner _ hc] at hnode
      cases hnode
  · rintro ⟨e, he, rfl, rfl⟩
    rw [ht.node _ (hmem e he), nodeFor_code h _ he]

theorem leafIn_iff {a : Byte} : (∃ i, nodeIn arena i = some (.leaf a)) ↔ a ∈ ct.map rowSym := by
  obtain ⟨idx, -, hleaf⟩ := ht.exists_leafIndex h hsize
  simp [hleaf, List.mem_map]

/-- There are as many leaves as rows. -/
theorem length_leaves (hw : Memory.wf nnode arena) {isLeaf : Nat × Node → Bool}
    (hl : ∀ e, isLeaf e = true ↔ ∃ a, e.2 = .leaf a) : (arena.filter isLeaf).length = ct.length := by
  obtain ⟨idx, hinj, hleaf⟩ := ht.exists_leafIndex h hsize
  have hnodup : arena.Nodup := hw.1.imp fun hlt he => by simp [he] at hlt
  have hrows : (ct.map fun e => ((idx e).toNat, Node.leaf (rowSym e))).Nodup :=
    h.rows.map_on fun x hx y hy he => hinj x hx y hy (BitVec.eq_of_toNat_eq (congrArg Prod.fst he))
  have hmem : ∀ e, e ∈ arena.filter isLeaf ↔ e ∈ ct.map fun e => ((idx e).toNat, Node.leaf (rowSym e)) := by
    rintro ⟨k, n⟩
    rw [List.mem_filter, hl, List.mem_map]
    constructor
    · rintro ⟨hk, a, rfl⟩
      have hlt : k < 511 := hw.2 _ hk
      have hkn : (BitVec.ofNat 9 k).toNat = k := by
        rw [BitVec.toNat_ofNat]
        omega
      obtain ⟨e, he, hi, rfl⟩ := (hleaf (BitVec.ofNat 9 k) a).mp ((nodeIn_eq_some_iff hw).mpr (by rwa [hkn]))
      exact ⟨e, he, by rw [hi, hkn]⟩
    · rintro ⟨e, he, heq⟩
      cases heq
      exact ⟨(nodeIn_eq_some_iff hw).mp ((hleaf _ _).mpr ⟨e, he, rfl, rfl⟩), _, rfl⟩
  rw [((List.perm_ext_iff_of_nodup (hnodup.filter _) hrows).mpr hmem).length_eq, List.length_map]

end HoldsTree

/-! ### The command -/

/-- The state after a successful `TR_BUILD` (R122). -/
def installTree (s : State) : State := { clearArena s with arena := buildArena s.ct, treeValid := true }

theorem exec_trBuild_malformed {s : State} {r : Malformed} (hm : s.mode = .idle) (hv : validTable s.ct = some r) :
    exec .trBuild s = .next (raiseMalformed r (clearArena s)) := by
  refine (gated_of_legal (by simp [hm, legalModes]) _).trans ?_
  rw [hv]

theorem exec_trBuild_valid {s : State} (hm : s.mode = .idle) (hv : validTable s.ct = none) :
    exec .trBuild s = .next (installTree s) := by
  refine (gated_of_legal (by simp [hm, legalModes]) _).trans ?_
  rw [hv]
  rfl

/-- Settles O18: the model's check gives R121's verdict; a refused table leaves the cleared arena, a valid one the root of
its tree. -/
theorem trBuildFollowsTableVerdict : Obligations.TrBuildFollowsTableVerdict := by
  refine ⟨rfl, sequenceOutside_legalModes .trBuild, fun s hm h => ?_⟩
  rw [tableVerdict_eq h]
  cases hv : validTable s.ct with
  | none =>
    exact ⟨_, exec_trBuild_valid hm hv, rfl, rfl,
      (holdsTree_buildArena h hv).root_ne_none, by simp [frame_iff, installTree]⟩
  | some r =>
    exact ⟨_, exec_trBuild_malformed hm hv, raise_errorEntered _ _ _, nodeAt_of_arena_nil rfl, rfl, rfl,
      by simp [frame_iff, errorFields]⟩

/-- The built tree decodes the code of each row to the row's symbol; the one row's leaf is the root (R124). -/
theorem decodesTo_buildArena {s : State} (h : codeTableWf s) (hv : validTable s.ct = none) {e : Nat × Bits}
    (he : e ∈ s.ct) : decodesTo (buildArena s.ct) 0 e.2 (rowSym e) := by
  have htree := holdsTree_buildArena h hv
  have hfull := fullCode_treeCodes h hv
  obtain ⟨a, hct⟩ | ⟨hlen, -, -⟩ := validTable_cases hv
  · rw [hct] at htree hfull he ⊢
    rw [List.mem_singleton.mp he]
    exact .inl ⟨rfl, htree.reached_code hfull (List.mem_singleton_self (a, []))⟩
  · rw [treeCodes_of_two hlen] at htree hfull
    exact .inr ⟨List.length_pos_iff.mp (h.2 e he).1, htree.reached_code hfull he⟩

/-- Settles O19: the walk of a row's code ends at the row's leaf and meets no leaf before; the one row's leaf is the root. -/
theorem builtTreeDecodesEveryCode : Obligations.BuiltTreeDecodesEveryCode := by
  intro s hm h hv
  rw [tableVerdict_eq h] at hv
  have htree := holdsTree_buildArena h hv
  have hfull := fullCode_treeCodes h hv
  rw [entries_eq h, List.length_map]
  simp only [List.forall_mem_map]
  refine ⟨_, exec_trBuild_valid hm hv, fun e he => ?_, fun hlen e he => ?_⟩
  · rw [codeOf_rowSym h he]
    exact decodesTo_buildArena h hv he
  · rw [treeCodes_of_two hlen] at htree hfull
    rw [codeOf_rowSym h he]
    exact ⟨htree.reached_code hfull he, fun p => htree.reached_above hfull he⟩

/-- Settles O20: the nodes are the prefixes of the codes, `2m - 1` of them, and the leaves are the rows. -/
theorem builtTreeIsFull : Obligations.BuiltTreeIsFull := by
  intro s hm h hv
  rw [tableVerdict_eq h] at hv
  have htree := holdsTree_buildArena h hv
  have hfull := fullCode_treeCodes h hv
  have hsize := length_treeCodes_le h
  have hlen : (entries s).length = (treeCodes s.ct).length := by rw [entries_eq h, List.length_map, length_treeCodes]
  rw [hlen]
  refine ⟨_, exec_trBuild_valid hm hv, fun i => htree.nodeIn_ne_none_iff hfull hsize, fun a => ?_,
    htree.length_leaves hfull hsize (buildArena_wf _) fun e => ?_, fun i l r => htree.children_ne_none hfull hsize⟩
  · rw [entries_eq h, ← map_rowSym_treeCodes]
    exact (htree.leafIn_iff hfull hsize).symm
  · cases e.2 <;> simp

end Sys2Proof.Machine
end

section
/-! SUPPORT. The bit buffer as a bit-string (10_state.md R32; 43_pack.md R142, R143): a byte filled from its top bit, and
bits appended as bits emitted and held. -/

namespace Sys2Proof.Machine

/-! ### The top bits of a byte -/

/-- The first `n` bits of a byte, most significant first. -/
def topBits (n : Nat) (v : Byte) : Bits := (List.range n).map fun i => v.getLsbD (7 - i)

theorem byteBits_eq (v : Byte) : byteBits v = topBits 8 v := rfl

theorem heldBits_eq {s : State} : heldBits s = topBits s.accN.toNat s.acc := by
  have hlt := s.accN.isLt
  rw [heldBits, byteBits, ← List.map_take, List.take_range, Nat.min_eq_left (by omega), topBits]

@[simp] theorem topBits_length (n : Nat) (v : Byte) : (topBits n v).length = n := by simp [topBits]

@[simp] theorem heldBits_length (s : State) : (heldBits s).length = s.accN.toNat := by rw [heldBits_eq, topBits_length]

theorem getLsbD_setBit (v : Byte) {i : Nat} (hi : i < 8) (b : Bool) (j : Nat) :
    (setBit v i b).getLsbD j = if j = i then b else v.getLsbD j := by
  have hone : (1#8 <<< i).getLsbD j = decide (j = i) := by
    change (BitVec.twoPow 8 i).getLsbD j = _
    simp [hi, eq_comm (a := i)]
  cases b
  · simp only [setBit, Bool.false_eq_true, if_false, BitVec.getLsbD_and, BitVec.getLsbD_not, hone]
    by_cases hj : j < 8
    · by_cases hij : j = i <;> simp [hj, hij]
    · simp [BitVec.getLsbD_of_ge v j (Nat.le_of_not_lt hj)]
  · simp only [setBit, if_true, BitVec.getLsbD_or, hone]
    by_cases hij : j = i <;> simp [hij]

/-- The next bit of a byte filled from the top. -/
theorem topBits_setBit {n : Nat} (hn : n < 8) (v : Byte) (b : Bool) :
    topBits (n + 1) (setBit v (7 - n) b) = topBits n v ++ [b] := by
  have hplace : 7 - n < 8 := by omega
  have habove : topBits n (setBit v (7 - n) b) = topBits n v := List.map_congr_left fun i hi => by
    have hin := List.mem_range.mp hi
    rw [getLsbD_setBit v hplace, if_neg (by omega)]
  have hbit : (setBit v (7 - n) b).getLsbD (7 - n) = b := by rw [getLsbD_setBit v hplace, if_pos rfl]
  rw [topBits, List.range_succ, List.map_append, List.map_singleton, hbit]
  exact congrArg (· ++ [b]) habove

/-- A byte with zeros below its first `n` bits. -/
theorem byteBits_of_zeros {n : Nat} {v : Byte} (hn : n ≤ 8) (h : v.toNat % 2 ^ (8 - n) = 0) :
    byteBits v = topBits n v ++ List.replicate (8 - n) false := by
  rw [mod_two_pow_eq_zero_iff] at h
  refine List.ext_getElem (by simp; omega) fun i hi _ => ?_
  rw [byteBits_length] at hi
  by_cases hin : i < n
  · rw [List.getElem_append_left (by simpa using hin)]
    simp [byteBits, topBits]
  · rw [List.getElem_append_right (by simpa using hin)]
    simpa [byteBits, BitVec.testBit_toNat] using h (7 - i) (by omega)

/-! ### One bit -/

theorem toNat_ne_seven {n : BitVec 3} (h : n ≠ 7) : n.toNat ≠ 7 := fun he => h (BitVec.eq_of_toNat_eq he)

theorem accN_add_one {n : BitVec 3} (h : n ≠ 7) : (n + 1).toNat = n.toNat + 1 := by
  have hne := toNat_ne_seven h
  have hlt := n.isLt
  exact BitVec.toNat_add_of_lt (show n.toNat + 1 < 2 ^ 3 by omega)

/-- Settles O25: the bit set is the next from the top, in the byte emitted or in the byte kept. -/
theorem appendBitFillsByteFromTop : Obligations.AppendBitFillsByteFromTop := by
  refine fun b s => ⟨fun hfull => ?_, fun hroom => ?_⟩
  · rw [appendBit_of_full b hfull]
    refine ⟨setBit s.acc 0 b, rfl, ?_, fun k hk _ => ?_, rfl, rfl, by simp [frame_iff]⟩
    · rw [getLsbD_setBit _ (by decide), if_pos rfl]
    · rw [getLsbD_setBit _ (by decide), if_neg (by omega)]
  · rw [appendBit_of_room b hroom]
    exact ⟨accN_add_one hroom, fun k _ => getLsbD_setBit _ (by omega) b k, by simp [frame_iff]⟩

/-! ### Bits appended -/

@[simp] theorem bytesBits_nil : bytesBits [] = [] := rfl

@[simp] theorem bytesBits_append (xs ys : List Byte) : bytesBits (xs ++ ys) = bytesBits xs ++ bytesBits ys :=
  List.flatMap_append

@[simp] theorem bytesBits_singleton (v : Byte) : bytesBits [v] = byteBits v := List.flatMap_singleton ..

@[simp] theorem bytesBits_length (bytes : List Byte) : (bytesBits bytes).length = 8 * bytes.length := by
  simp [bytesBits, List.length_flatMap, Nat.mul_comm]

/-- From `s` to `t` the bits `c` follow those held, and the full bytes of them are emitted. -/
def AppendsBits (c : Bits) (s t : State) : Prop :=
  ∃ bytes, t.outq = s.outq ++ bytes ∧ bytesBits bytes ++ heldBits t = heldBits s ++ c

theorem AppendsBits.refl (s : State) : AppendsBits [] s s := ⟨[], by simp⟩

theorem AppendsBits.trans {c d : Bits} {s u t : State} (hsu : AppendsBits c s u) (hut : AppendsBits d u t) :
    AppendsBits (c ++ d) s t := by
  obtain ⟨xs, hu, hxs⟩ := hsu
  obtain ⟨ys, ht, hys⟩ := hut
  refine ⟨xs ++ ys, by rw [ht, hu, List.append_assoc], ?_⟩
  rw [bytesBits_append, List.append_assoc, hys, ← List.append_assoc, hxs, List.append_assoc]

theorem appendBit_appendsBits (b : Bool) (s : State) : AppendsBits [b] s (appendBit b s) := by
  by_cases hn : s.accN = 7
  · refine ⟨[setBit s.acc 0 b], by rw [appendBit_of_full b hn], ?_⟩
    have hheld : heldBits (appendBit b s) = [] := by simp [appendBit_of_full b hn, heldBits]
    have hseven : s.accN.toNat = 7 := congrArg BitVec.toNat hn
    rw [hheld, List.append_nil, bytesBits_singleton, byteBits_eq, heldBits_eq, hseven]
    exact topBits_setBit (by decide) s.acc b
  · refine ⟨[], by simp [appendBit_of_room b hn], ?_⟩
    have hne := toNat_ne_seven hn
    have hlt := s.accN.isLt
    rw [bytesBits_nil, List.nil_append, heldBits_eq, heldBits_eq, appendBit_of_room b hn, accN_add_one hn]
    exact topBits_setBit (by omega) s.acc b

theorem appendBits_appendsBits (c : Bits) (s : State) : AppendsBits c s (appendBits c s) := by
  induction c generalizing s with
  | nil => exact .refl s
  | cons b rest ih => exact (appendBit_appendsBits b s).trans (ih _)

end Sys2Proof.Machine
end

section
/-! SUPPORT. The pack commands (43_pack.md R141 to R147): what `PK_START`, `PK_SYM` and `PK_FLUSH` leave of the state. -/

namespace Sys2Proof.Machine

/-! ### `PK_START` -/

/-- The state a pack session opens in (R141). -/
def openPack (s : State) : State :=
  { s with acc := 0, accN := 0, pkBitCnt := 0, symCnt := 0, cpl := false, mode := .pack }

theorem exec_pkStart_idle {s : State} (hm : s.mode = .idle) : exec .pkStart s = .next (openPack s) :=
  gated_of_legal (by simp [hm, legalModes]) _

theorem openPack_frame (s : State) : frame [.mode, .acc, .accN, .pkBitCnt, .symCnt, .cpl] s (openPack s) := by
  simp [frame_iff, openPack]

/-- Settles O24: in IDLE the session opens on an empty buffer; elsewhere the legality check raises. -/
theorem pkStartOpensPackSession : Obligations.PkStartOpensPackSession :=
  ⟨rfl, sequenceOutside_legalModes .pkStart,
    fun s hm => ⟨openPack s, exec_pkStart_idle hm, rfl, rfl, rfl, rfl, rfl, rfl, openPack_frame s⟩⟩

/-! ### `PK_SYM` -/

theorem encode_pkSym (a : Byte) : encode (.pkSym a) = 0x90000000#32 ||| (a.setWidth 32 <<< 16) := by
  simp [encode, wordG, place]

/-- The state after a symbol with a code is packed (R143). -/
def packSymbol (a : Byte) (s : State) : State := countSymbol (ctLen s a) (appendBits (codeOf s a) s)

section Pack
variable {s : State} (hm : s.mode = .pack)
include hm

theorem exec_pkSym_unknown {a : Byte} (hcode : ctLen s a = 0) :
    exec (.pkSym a) s = .next (raise .unknownSymbol (a.setWidth 32) s) :=
  (gated_of_legal (by simp [hm, legalModes]) _).trans (if_pos hcode)

theorem exec_pkSym_overflow {a : Byte} (hcode : ctLen s a ≠ 0) (hcnt : cntMax < s.pkBitCnt.toNat + ctLen s a) :
    exec (.pkSym a) s = .next (raise .overflow (encode (.pkSym a)) s) :=
  (gated_of_legal (by simp [hm, legalModes]) _).trans ((if_neg hcode).trans (if_pos hcnt))

theorem exec_pkSym_pack {a : Byte} (hcode : ctLen s a ≠ 0) (hcnt : s.pkBitCnt.toNat + ctLen s a ≤ cntMax) :
    exec (.pkSym a) s = .next (packSymbol a s) :=
  (gated_of_legal (by simp [hm, legalModes]) _).trans ((if_neg hcode).trans (if_neg (Nat.not_lt_of_le hcnt)))

end Pack

/-- From `s` to `t` the bits `c` of `n` symbols are packed: appended to the buffer and counted, and nothing else is
changed. -/
structure Packed (c : Bits) (n : Nat) (s t : State) : Prop where
  appended : AppendsBits c s t
  bitCount : t.pkBitCnt = s.pkBitCnt + BitVec.ofNat 32 c.length
  symCount : t.symCnt = s.symCnt + BitVec.ofNat 32 n
  accZeros : AccZeros s → AccZeros t
  unchanged : frame [.outq, .acc, .accN, .pkBitCnt, .symCnt] s t

theorem Packed.refl (s : State) : Packed [] 0 s s :=
  ⟨.refl s, (BitVec.add_zero _).symm, (BitVec.add_zero _).symm, id, frame_refl _ _⟩

theorem Packed.trans {c d : Bits} {m n : Nat} {s u t : State} (hsu : Packed c m s u) (hut : Packed d n u t) :
    Packed (c ++ d) (m + n) s t where
  appended := hsu.appended.trans hut.appended
  bitCount := by rw [hut.bitCount, hsu.bitCount, List.length_append, BitVec.ofNat_add, BitVec.add_assoc]
  symCount := by rw [hut.symCount, hsu.symCount, BitVec.ofNat_add, BitVec.add_assoc]
  accZeros := hut.accZeros ∘ hsu.accZeros
  unchanged := frame_trans hsu.unchanged hut.unchanged

theorem packSymbol_packed (a : Byte) (s : State) : Packed (codeOf s a) 1 s (packSymbol a s) := by
  have hframe := appendBits_frame (codeOf s a) s
  exact {
    appended := appendBits_appendsBits (codeOf s a) s
    bitCount := congrArg (· + BitVec.ofNat 32 (ctLen s a)) (hframe .pkBitCnt (by decide))
    symCount := congrArg (· + 1) (hframe .symCnt (by decide))
    accZeros := appendBits_accZeros (codeOf s a)
    unchanged := frame_trans (frame_mono (by simp) hframe) (by simp [frame_iff, packSymbol]) }

/-- A counter within its bound does not wrap (R144). -/
theorem toNat_add_ofNat {v : Word} {n : Nat} (h : v.toNat + n ≤ cntMax) :
    (v + BitVec.ofNat 32 n).toNat = v.toNat + n := by
  rw [show cntMax = 4294967295 from rfl] at h
  rw [BitVec.toNat_add, BitVec.toNat_ofNat]
  omega

theorem Packed.bitCount_toNat {c : Bits} {n : Nat} {s t : State} (h : Packed c n s t)
    (hcnt : s.pkBitCnt.toNat + c.length ≤ cntMax) : t.pkBitCnt.toNat = s.pkBitCnt.toNat + c.length := by
  rw [h.bitCount, toNat_add_ofNat hcnt]

theorem Packed.symCount_toNat {c : Bits} {n : Nat} {s t : State} (h : Packed c n s t)
    (hcnt : s.symCnt.toNat + n ≤ cntMax) : t.symCnt.toNat = s.symCnt.toNat + n := by
  rw [h.symCount, toNat_add_ofNat hcnt]

/-- Settles O26: without a code or past the bound the error is raised in place of the append; else the code's bits are
appended, and the bytes emitted and the bits held are counted by the lengths of the bit-strings. -/
theorem pkSymAppendsCode : Obligations.PkSymAppendsCode := by
  refine ⟨encode_pkSym, fun a => sequenceOutside_legalModes (.pkSym a), fun a s hm =>
    ⟨fun hcode => ?_, fun hcode hcnt => ?_, fun hcode hcnt => ?_⟩⟩
  · exact ⟨_, exec_pkSym_unknown hm hcode, raise_errorEntered _ _ _, raise_frame (List.Subset.refl _) _ _ _⟩
  · exact ⟨_, exec_pkSym_overflow hm hcode hcnt, raise_errorEntered _ _ _, raise_frame (List.Subset.refl _) _ _ _⟩
  · have hpacked := packSymbol_packed a s
    obtain ⟨bytes, hq, hbits⟩ := hpacked.appended
    have hlen : 8 * bytes.length + (packSymbol a s).accN.toNat = s.accN.toNat + ctLen s a := by
      simpa [ctLen] using congrArg List.length hbits
    have hlt := (packSymbol a s).accN.isLt
    exact ⟨packSymbol a s, bytes, exec_pkSym_pack hm hcode hcnt, hq, by omega, by omega, hbits,
      hpacked.bitCount_toNat hcnt, hpacked.symCount, hpacked.unchanged⟩

/-! ### `PK_FLUSH` -/

/-- The partial byte, if any (R145). -/
def flushTail (s : State) : List Byte := if s.accN = 0 then [] else [s.acc]

/-- The state a pack session that packed bits is closed in (R145). -/
def flushPack (s : State) : State := complete { s with outq := s.outq ++ flushTail s, acc := 0, accN := 0 }

theorem exec_pkFlush_empty {s : State} (hm : s.mode = .pack) (hbits : s.pkBitCnt = 0) :
    exec .pkFlush s = .next (raise .emptyInput 0 s) :=
  (gated_of_legal (by simp [hm, legalModes]) _).trans (if_pos hbits)

theorem exec_pkFlush_pack {s : State} (hm : s.mode = .pack) (hbits : s.pkBitCnt ≠ 0) :
    exec .pkFlush s = .next (flushPack s) := by
  refine (gated_of_legal (by simp [hm, legalModes]) _).trans ((if_neg hbits).trans ?_)
  by_cases hn : s.accN = 0
  · rw [flushPack, flushTail, if_pos hn, if_pos hn, List.append_nil]
  · rw [flushPack, flushTail, if_neg hn, if_neg hn]
    rfl

theorem flushPack_frame (s : State) : frame [.outq, .acc, .accN, .mode, .cpl] s (flushPack s) := by
  simp [frame_iff, flushPack]

/-- Settles O27: by whether bits were packed, `EMPTY_INPUT` or the session closed; elsewhere the legality check
raises. -/
theorem pkFlushPadsAndCloses : Obligations.PkFlushPadsAndCloses := by
  refine ⟨rfl, sequenceOutside_legalModes .pkFlush, fun s hm => ⟨fun hbits => ?_, fun hbits => ?_⟩⟩
  · exact ⟨_, exec_pkFlush_empty hm hbits, raise_errorEntered _ _ _, raise_frame (List.Subset.refl _) _ _ _⟩
  · exact ⟨flushPack s, exec_pkFlush_pack hm hbits, rfl, rfl, rfl, rfl, rfl, flushPack_frame s⟩

end Sys2Proof.Machine
end

section
/-! SUPPORT. A pack session (43_pack.md R140 to R147): its symbols packed one after another or stopped by an error, and
the bytes it has emitted when it is flushed. -/

namespace Sys2Proof.Machine

/-! ### Bytes as a padded bit-string -/

/-- The bytes are the bits `c` and fewer than 8 zeros after them. -/
def Padded (c : Bits) (bytes : List Byte) : Prop := ∃ k < 8, bytesBits bytes = c ++ List.replicate k false

theorem Padded.length_eq {c : Bits} {bytes : List Byte} (h : Padded c bytes) : bytes.length = (c.length + 7) / 8 := by
  obtain ⟨k, hk, hbits⟩ := h
  have hlen : 8 * bytes.length = c.length + k := by simpa using congrArg List.length hbits
  omega

/-- A bit of a byte, by its place in the bits of all the bytes (20_memory.md R65). -/
theorem getLsbD_getD {bytes : List Byte} {j i : Nat} (hj : j < bytes.length) (hi : i < 8) :
    (bytes.getD j 0).getLsbD (7 - i) = (bytesBits bytes).getD (8 * j + i) false := by
  induction bytes generalizing j with
  | nil => exact absurd hj (Nat.not_lt_zero j)
  | cons b rest ih =>
    have hcons : bytesBits (b :: rest) = byteBits b ++ bytesBits rest := List.flatMap_cons
    rw [hcons]
    cases j with
    | zero =>
      rw [List.getD_append _ _ _ _ (by simpa using hi)]
      simp [byteBits, hi]
    | succ j =>
      rw [List.getD_append_right _ _ _ _ (by rw [byteBits_length]; omega), byteBits_length,
        show 8 * (j + 1) + i - 8 = 8 * j + i by omega]
      exact ih (Nat.lt_of_succ_lt_succ hj)

theorem Padded.getLsbD_eq {c : Bits} {bytes : List Byte} (h : Padded c bytes) {j i : Nat} (hj : j < bytes.length)
    (hi : i < 8) : (bytes.getD j 0).getLsbD (7 - i) = c.getD (8 * j + i) false := by
  obtain ⟨k, -, hbits⟩ := h
  rw [getLsbD_getD hj hi, hbits]
  by_cases hin : 8 * j + i < c.length
  · rw [List.getD_append _ _ _ _ hin]
  · have hge := Nat.le_of_not_lt hin
    rw [List.getD_append_right _ _ _ _ hge, List.getD_eq_default _ _ hge, List.getD_eq_getElem?_getD,
      List.getElem?_getD_replicate_default_eq]

/-- The partial byte is the bits held and zeros after them (R145; 10_state.md R32). -/
theorem padded_flushTail {s : State} (hz : AccZeros s) : Padded (heldBits s) (flushTail s) := by
  by_cases hn : s.accN = 0
  · exact ⟨0, by decide, by simp [flushTail, heldBits, hn]⟩
  · have hne : s.accN.toNat ≠ 0 := fun he => hn (BitVec.eq_of_toNat_eq he)
    have hlt := s.accN.isLt
    refine ⟨8 - s.accN.toNat, by omega, ?_⟩
    rw [flushTail, if_neg hn, bytesBits_singleton, heldBits_eq]
    exact byteBits_of_zeros (by omega) hz

/-- From an empty buffer the bits appended are those emitted and those held. -/
theorem AppendsBits.of_empty {c : Bits} {s t : State} (h : AppendsBits c s t) (hn : s.accN = 0) :
    ∃ bytes, t.outq = s.outq ++ bytes ∧ bytesBits bytes ++ heldBits t = c := by
  simpa [AppendsBits, heldBits, hn] using h

/-- A session flushed has emitted the bits packed in it, padded to bytes (R146). -/
theorem Packed.padded_flushPack {c : Bits} {n : Nat} {s u : State} (h : Packed c n (openPack s) u) :
    ∃ bytes, (flushPack u).outq = s.outq ++ bytes ∧ Padded c bytes := by
  obtain ⟨bytes, hq, hbits⟩ := h.appended.of_empty rfl
  obtain ⟨k, hk, htail⟩ := padded_flushTail (h.accZeros (by simp [AccZeros, openPack]))
  refine ⟨bytes ++ flushTail u, ?_, k, hk, ?_⟩
  · rw [← List.append_assoc]
    exact congrArg (· ++ flushTail u) hq
  · rw [bytesBits_append, htail, ← List.append_assoc, hbits]

/-! ### The symbols of a session -/

theorem message_cons (s : State) (a : Byte) (syms : List Byte) : message s (a :: syms) = codeOf s a ++ message s syms :=
  List.flatMap_cons

theorem codeOf_of_ct_eq {s t : State} (h : t.ct = s.ct) : codeOf t = codeOf s := by
  funext a
  rw [codeOf, codeOf, h]

theorem message_of_ct_eq {s t : State} (h : t.ct = s.ct) (syms : List Byte) : message t syms = message s syms := by
  rw [message, message, codeOf_of_ct_eq h]

theorem length_le_message {s : State} {syms : List Byte} (h : ∀ a ∈ syms, ctLen s a ≠ 0) :
    syms.length ≤ (message s syms).length := by
  induction syms with
  | nil => exact Nat.zero_le _
  | cons a rest ih =>
    rw [List.forall_mem_cons] at h
    obtain ⟨ha, hrest⟩ := h
    have hlen : (codeOf s a).length ≠ 0 := ha
    have hle := ih hrest
    rw [message_cons, List.length_append, List.length_cons]
    omega

/-- Every symbol has a code, and the codes fit the counter of packed bits (R143, R144). -/
def Packable (s : State) (syms : List Byte) : Prop :=
  (∀ a ∈ syms, ctLen s a ≠ 0) ∧ s.pkBitCnt.toNat + (message s syms).length ≤ cntMax

theorem packSymbol_ct (a : Byte) (s : State) : (packSymbol a s).ct = s.ct :=
  (packSymbol_packed a s).unchanged .codeTable (by decide)

theorem packable_cons {s : State} {a : Byte} {syms : List Byte} (hcnt : s.pkBitCnt.toNat + ctLen s a ≤ cntMax) :
    Packable s (a :: syms) ↔ ctLen s a ≠ 0 ∧ Packable (packSymbol a s) syms := by
  have hcount : (packSymbol a s).pkBitCnt.toNat = s.pkBitCnt.toNat + (codeOf s a).length :=
    (packSymbol_packed a s).bitCount_toNat hcnt
  have hlen : ctLen (packSymbol a s) = ctLen s := by
    funext b
    rw [ctLen, ctLen, codeOf_of_ct_eq (packSymbol_ct a s)]
  rw [Packable, Packable, List.forall_mem_cons, hlen, hcount, message_of_ct_eq (packSymbol_ct a s), message_cons,
    List.length_append, Nat.add_assoc, and_assoc]

theorem execAll_of_error {is : List Instr} {s : State} (hm : s.mode = .error)
    (hdrop : ∀ i ∈ is, i ≠ .nop ∧ i ≠ .abort) : execAll is s = .next s := by
  induction is with
  | nil => rfl
  | cons i rest ih =>
    rw [List.forall_mem_cons] at hdrop
    obtain ⟨⟨hn, ha⟩, hrest⟩ := hdrop
    rw [execAll, exec_of_error hm hn ha]
    exact ih hrest

/-- A symbol's error stops the session: the symbols after it are dropped. -/
theorem execAll_pkSyms_of_raise {s : State} {a : Byte} {syms : List Byte} {e : ErrCode} {info : Word}
    (h : exec (.pkSym a) s = .next (raise e info s)) :
    execAll ((a :: syms).map .pkSym) s = .next (raise e info s) := by
  rw [List.map_cons, execAll, h]
  exact execAll_of_error rfl (by simp)

/-- The symbols of an open session are all packed, or one of them raises an error. -/
theorem execAll_pkSyms {s : State} (syms : List Byte) (hm : s.mode = .pack) :
    ∃ t, execAll (syms.map .pkSym) s = .next t ∧
      (Packable s syms ∧ Packed (message s syms) syms.length s t ∨
        ¬ Packable s syms ∧ t.mode = .error ∧ t.cpl = false) := by
  induction syms generalizing s with
  | nil => exact ⟨s, rfl, .inl ⟨⟨by simp, Nat.le_of_lt_succ s.pkBitCnt.isLt⟩, .refl s⟩⟩
  | cons a rest ih =>
    by_cases hcode : ctLen s a = 0
    · exact ⟨_, execAll_pkSyms_of_raise (exec_pkSym_unknown hm hcode),
        .inr ⟨fun ⟨hcodes, _⟩ => hcodes a List.mem_cons_self hcode, rfl, rfl⟩⟩
    · by_cases hcnt : s.pkBitCnt.toNat + ctLen s a ≤ cntMax
      · have hfirst := packSymbol_packed a s
        obtain ⟨t, ht, hcases⟩ := ih (s := packSymbol a s) ((hfirst.unchanged .mode (by decide)).trans hm)
        refine ⟨t, by rw [List.map_cons, execAll, exec_pkSym_pack hm hcode hcnt]; exact ht, ?_⟩
        rw [packable_cons hcnt, message_cons, List.length_cons, Nat.add_comm rest.length]
        rw [message_of_ct_eq (packSymbol_ct a s)] at hcases
        exact hcases.imp (fun ⟨hok, hrest⟩ => ⟨⟨hcode, hok⟩, hfirst.trans hrest⟩)
          (fun ⟨hbad, herr⟩ => ⟨fun ⟨_, hok⟩ => hbad hok, herr⟩)
      · refine ⟨_, execAll_pkSyms_of_raise (exec_pkSym_overflow hm hcode (Nat.lt_of_not_le hcnt)),
          .inr ⟨fun ⟨_, hle⟩ => hcnt ?_, rfl, rfl⟩⟩
        rw [message_cons, List.length_append, ← Nat.add_assoc] at hle
        exact Nat.le_of_add_right_le hle

/-! ### The session -/

theorem packable_openPack {s : State} {syms : List Byte} :
    Packable (openPack s) syms ↔ (∀ a ∈ syms, ctLen s a ≠ 0) ∧ (message s syms).length ≤ 2 ^ 32 - 1 := by
  have hzero : (openPack s).pkBitCnt.toNat = 0 := rfl
  rw [Packable, hzero, Nat.zero_add]
  rfl

/-- A pack session ends flushed, with its symbols packed, or it ends with no completion: it has no symbol, or one of them
raised an error. -/
theorem execAll_packProgram {s : State} (syms : List Byte) (hm : s.mode = .idle) :
    ∃ t, execAll (packProgram syms) s = .next t ∧
      (syms ≠ [] ∧ Packable (openPack s) syms ∧
          (∃ u, Packed (message s syms) syms.length (openPack s) u ∧ t = flushPack u) ∨
        ¬ (syms ≠ [] ∧ Packable (openPack s) syms) ∧ t.cpl = false) := by
  obtain ⟨u, hu, hcases⟩ := execAll_pkSyms (s := openPack s) syms rfl
  have hflush : execAll (packProgram syms) s = execAll [.pkFlush] u :=
    execAll_append (by rw [execAll, exec_pkStart_idle hm]; exact hu)
  rw [hflush]
  obtain ⟨hok, hpacked⟩ | ⟨hbad, herr, hcpl⟩ := hcases
  · have hmode : u.mode = .pack := hpacked.unchanged .mode (by decide)
    have hcount : u.pkBitCnt.toNat = 0 + (message s syms).length := hpacked.bitCount_toNat hok.2
    by_cases hnil : syms = []
    · have hzero : u.pkBitCnt = 0 := BitVec.eq_of_toNat_eq (by rw [hcount, hnil]; rfl)
      exact ⟨_, by rw [execAll, exec_pkFlush_empty hmode hzero]; rfl, .inr ⟨fun ⟨hne, _⟩ => hne hnil, rfl⟩⟩
    · have hbits : u.pkBitCnt ≠ 0 := fun hzero => by
        have hle : syms.length ≤ (message s syms).length := length_le_message hok.1
        have hpos := List.length_pos_iff.mpr hnil
        rw [hzero] at hcount
        simp at hcount
        omega
      exact ⟨_, by rw [execAll, exec_pkFlush_pack hmode hbits]; rfl, .inl ⟨hnil, hok, u, hpacked, rfl⟩⟩
  · exact ⟨u, execAll_of_error herr (by simp), .inr ⟨fun ⟨_, hok⟩ => hbad hok, hcpl⟩⟩

/-- Settles O28: the session is flushed exactly when it has a symbol and its symbols are packed; the bytes are then the
joined codes padded, and neither counter wraps, since no code is empty. -/
theorem packSessionEmitsMessage : Obligations.PackSessionEmitsMessage := by
  intro s syms hm
  obtain ⟨t, ht, hcases⟩ := execAll_packProgram syms hm
  rw [packable_openPack] at hcases
  refine ⟨t, ht, ?_⟩
  obtain ⟨hne, ⟨hcodes, hlen⟩, u, hpacked, rfl⟩ | ⟨hbad, hcpl⟩ := hcases
  · obtain ⟨bytes, hq, hpadded⟩ := hpacked.padded_flushPack
    have hbitCnt : u.pkBitCnt.toNat = (message s syms).length := by
      rw [hpacked.bitCount_toNat (by simpa [openPack, cntMax] using hlen)]
      simp [openPack]
    have hsymCnt : u.symCnt.toNat = syms.length := by
      rw [hpacked.symCount_toNat (by simpa [openPack, cntMax] using (length_le_message hcodes).trans hlen)]
      simp [openPack]
    have hframe : frame [.mode, .cpl, .outq, .acc, .accN, .pkBitCnt, .symCnt] s (flushPack u) :=
      frame_trans (frame_mono (by simp) (openPack_frame s)) <|
        frame_trans (frame_mono (by simp) hpacked.unchanged) (frame_mono (by simp) (flushPack_frame u))
    exact ⟨⟨fun _ => ⟨hne, hcodes, hlen⟩, fun _ => rfl⟩, fun _ => ⟨rfl, bytes, hq, hpadded.length_eq,
      fun _ _ => hpadded.getLsbD_eq, hbitCnt, hsymCnt, hframe⟩⟩
  · exact ⟨⟨fun h => absurd h (by simp [hcpl]), fun h => absurd h hbad⟩, fun h => absurd h (by simp [hcpl])⟩

end Sys2Proof.Machine
end

section
/-! SUPPORT. The unpack commands that walk no bit (44_unpack.md R160, R161, R164, R170): the words of `UP_LENLO` and
`UP_LENHI`, a session opened, and the end of the stream. -/

namespace Sys2Proof

/-! ### The words (R81, R83) -/

theorem encode_upLenLo (h : Half) : encode (.upLenLo h) = 0xB0000000#32 ||| h.setWidth 32 := by
  simp [encode, wordG, place]

theorem encode_upLenHi (h : Half) : encode (.upLenHi h) = 0xB1000000#32 ||| h.setWidth 32 := by
  simp [encode, wordG, place]

theorem encode_upByte (b : Byte) : encode (.upByte b) = 0xD0000000#32 ||| (b.setWidth 32 <<< 16) := by
  simp [encode, wordG, place]

/-- `OP` is the upper four of the bits [31:25]. -/
theorem opBits_of_upperSeven {w : Word} {v : BitVec 7} (h : w.extractLsb' 25 7 = v) :
    w.extractLsb' 28 4 = v.extractLsb' 3 4 := by
  subst h
  refine BitVec.eq_of_getLsbD_eq fun k hk => ?_
  have hlt : 3 + k < 7 := by omega
  simp [hk, hlt, ← Nat.add_assoc]

end Sys2Proof

namespace Sys2Proof.Machine

/-- A word that R89 lists raises `ILLEGAL_CMD`: the clause of form H. -/
theorem raisesIllegal_of_formH {w : Word} (hop : w.extractLsb' 28 4 = 0xB#4)
    (hbad : 1 < (w.extractLsb' 24 4).toNat ∨ w.extractLsb' 16 8 ≠ 0#8) : raisesIllegal w := by
  obtain ⟨hiff, hraise⟩ := illegalWordsAreExactlyThose w
  exact hraise (hiff.mpr (.inr (.inr (.inr (.inr (.inr (.inr ⟨hop, hbad⟩)))))))

/-! ### `UP_LENLO` and `UP_LENHI` -/

/-- Settles O29: the words by their fields, the illegal ones by R89, and in IDLE `UP_BITLEN` made of one half written and
one kept; elsewhere the legality check raises. -/
theorem upLenWritesOneHalf : Obligations.UpLenWritesOneHalf := by
  refine ⟨fun h => ⟨encode_upLenLo h, encode_upLenHi h, sequenceOutside_legalModes (.upLenLo h),
    sequenceOutside_legalModes (.upLenHi h)⟩,
    fun w hop hbad => raisesIllegal_of_formH (opBits_of_upperSeven hop) (.inr hbad), fun h s hm => ⟨?_, ?_⟩⟩
  · obtain ⟨hkept, hwritten⟩ := extract_halves h (s.upBitLen.extractLsb' 16 16)
    exact ⟨_, exec_upLenLo_idle hm h, hwritten, hkept, by simp [frame_iff]⟩
  · obtain ⟨hwritten, hkept⟩ := extract_halves (s.upBitLen.extractLsb' 0 16) h
    exact ⟨_, exec_upLenHi_idle hm h, hwritten, hkept, by simp [frame_iff]⟩

/-! ### `UP_START` -/

section Start
variable {s : State} (hm : s.mode = .idle)
include hm

theorem exec_upStart_noTree (hv : s.treeValid = false) :
    exec .upStart s = .next (raiseMalformed .noTree s) :=
  (gated_of_legal (by simp [hm, legalModes]) _).trans (if_pos hv)

theorem exec_upStart_badRoot (hv : s.treeValid = true) (hroot : nodeAt s s.root = none) :
    exec .upStart s = .next (raiseMalformed .badRoot s) :=
  (gated_of_legal (by simp [hm, legalModes]) _).trans ((if_neg (by simp [hv])).trans (if_pos hroot))

theorem exec_upStart_empty (hv : s.treeValid = true) (hroot : nodeAt s s.root ≠ none) (hlen : s.upBitLen = 0) :
    exec .upStart s = .next (complete (openUnpack s)) :=
  (gated_of_legal (by simp [hm, legalModes]) _).trans
    ((if_neg (by simp [hv])).trans ((if_neg hroot).trans (if_pos hlen)))

theorem exec_upStart_open (hv : s.treeValid = true) (hroot : nodeAt s s.root ≠ none) (hlen : s.upBitLen ≠ 0) :
    exec .upStart s = .next (openUnpack s) :=
  (gated_of_legal (by simp [hm, legalModes]) _).trans
    ((if_neg (by simp [hv])).trans ((if_neg hroot).trans (if_neg hlen)))

end Start

theorem openUnpack_frame (s : State) : frame [.mode, .cpl, .upRemain, .cur, .midcode, .symCnt] s (openUnpack s) := by
  simp [frame_iff]

/-- Settles O30: by whether a tree is installed, its root a node, and the length 0; outside IDLE the legality check
raises. -/
theorem upStartOpensUnpackSession : Obligations.UpStartOpensUnpackSession := by
  refine ⟨rfl, sequenceOutside_legalModes .upStart, fun s hm => ⟨fun hv => ?_, fun hv hroot => ?_, fun hv hroot => ?_⟩⟩
  · exact ⟨_, exec_upStart_noTree hm hv, raise_errorEntered _ _ _, raise_frame (List.Subset.refl _) _ _ _⟩
  · exact ⟨_, exec_upStart_badRoot hm hv hroot, raise_errorEntered _ _ _, raise_frame (List.Subset.refl _) _ _ _⟩
  · by_cases hlen : s.upBitLen = 0
    · refine ⟨_, exec_upStart_empty hm hv hroot hlen, rfl, rfl, rfl, rfl, ?_, ?_⟩
      · rw [if_pos hlen]
        exact ⟨rfl, rfl⟩
      · exact frame_trans (openUnpack_frame s) (frame_mono (by simp) (complete_frame _))
    · refine ⟨_, exec_upStart_open hm hv hroot hlen, rfl, rfl, rfl, rfl, ?_, openUnpack_frame s⟩
      rw [if_neg hlen]
      exact ⟨rfl, rfl⟩

/-! ### `UP_END` -/

theorem exec_upEnd_idle {s : State} (hm : s.mode = .idle) : exec .upEnd s = .next s :=
  (gated_of_legal (by simp [hm, legalModes]) _).trans (if_pos hm)

theorem exec_upEnd_unpack {s : State} (hm : s.mode = .unpack) :
    exec .upEnd s = .next (raise .truncated (consumed s) s) :=
  (gated_of_legal (by simp [hm, legalModes]) _).trans (if_neg (by simp [hm]))

/-- Settles O35: in IDLE nothing is left to end, in UNPACK the stream is short; in PACK the legality check raises. -/
theorem upEndEndsStream : Obligations.UpEndEndsStream :=
  ⟨rfl, sequenceOutside_legalModes .upEnd, fun _ => exec_upEnd_idle,
    fun _ hm => ⟨_, exec_upEnd_unpack hm, raise_errorEntered _ _ _, raise_frame (List.Subset.refl _) _ _ _⟩⟩

end Sys2Proof.Machine
end

section
/-! SUPPORT. One walked bit (44_unpack.md R165 to R167): the state it leaves, by the node the walk stands at and the node
its edge leads to, and the end-of-stream check after it. -/

namespace Sys2Proof.Machine

/-! ### The end-of-stream check -/

@[simp] theorem endCheck_upRemain (s : State) : (endCheck s).upRemain = s.upRemain :=
  endCheck_frame (List.Subset.refl _) s .upRemain (by decide)

@[simp] theorem endCheck_symCnt (s : State) : (endCheck s).symCnt = s.symCnt :=
  endCheck_frame (List.Subset.refl _) s .symCnt (by decide)

@[simp] theorem endCheck_cur (s : State) : (endCheck s).cur = s.cur :=
  endCheck_frame (List.Subset.refl _) s .cur (by decide)

@[simp] theorem endCheck_midcode (s : State) : (endCheck s).midcode = s.midcode :=
  endCheck_frame (List.Subset.refl _) s .midcode (by decide)

/-- The parts of the state a walked bit writes when it raises no error (R167). -/
def walkFields : List Field := [.upRemain, .outq, .symCnt, .cur, .midcode]

/-- How a bit that emitted or moved leaves a session that was in `s` (R166). -/
def EndsBit (s t : State) : Prop :=
  if t.upRemain ≠ 0 then frame walkFields s t
  else if t.midcode then errorEntered .truncated s.upBitLen s t
  else t.mode = .idle ∧ t.cpl = true ∧ frame (.mode :: .cpl :: walkFields) s t

theorem endsBit_endCheck {s u : State} (hu : frame walkFields s u) : EndsBit s (endCheck u) := by
  have hmode : u.mode = s.mode := hu .mode (by decide)
  have hlen : u.upBitLen = s.upBitLen := hu .upBitLen (by decide)
  rw [EndsBit, endCheck_upRemain, endCheck_midcode]
  obtain ⟨hrem, h⟩ | ⟨hrem, hmid, h⟩ | ⟨hrem, hmid, h⟩ := endCheck_cases u <;> rw [h]
  · rwa [if_pos hrem]
  · rw [if_neg (by simp [hrem]), if_pos hmid, hlen]
    exact ⟨rfl, rfl, hmode, rfl, rfl⟩
  · rw [if_neg (by simp [hrem]), if_neg (by simp [hmid])]
    exact ⟨rfl, rfl, frame_trans (frame_mono (by simp) hu) (frame_mono (by simp) (complete_frame u))⟩

/-! ### The bit -/

section Bit
variable {s : State}

theorem walkBit_leaf_one {a : Byte} (h : nodeAt s s.cur = some (.leaf a)) :
    walkBit true s = .next (raise .invalidCode (consumed (consumeBit s)) (consumeBit s)) := by
  simp [walkBit, h]

theorem walkBit_leaf_zero {a : Byte} (h : nodeAt s s.cur = some (.leaf a)) :
    walkBit false s = .next (endCheck (emitSymbol a (consumeBit s))) := by
  simp [walkBit, h]

variable {b : Bool} {l r : NodeIdx} (h : nodeAt s s.cur = some (.inner l r))
include h

theorem walkBit_dangling (hc : nodeAt s (childIdx b l r) = none) :
    walkBit b s = .next (raiseMalformed .dangling (consumeBit s)) := by
  simp [walkBit, h, hc]

theorem walkBit_to_leaf {a : Byte} (hc : nodeAt s (childIdx b l r) = some (.leaf a)) :
    walkBit b s = .next (endCheck { emitSymbol a (consumeBit s) with cur := s.root, midcode := false }) := by
  simp [walkBit, h, hc]

theorem walkBit_to_inner {l' r' : NodeIdx} (hc : nodeAt s (childIdx b l r) = some (.inner l' r')) :
    walkBit b s = .next (endCheck { consumeBit s with cur := childIdx b l r, midcode := true }) := by
  simp [walkBit, h, hc]

end Bit

/-- A walked bit is consumed, whatever it leads to (R167). -/
theorem walkBit_upRemain {b : Bool} {s t : State} (h : walkBit b s = .next t) : t.upRemain = s.upRemain - 1 := by
  obtain ⟨a, -, -, rfl⟩ | ⟨a, -, -, rfl⟩ | ⟨l, r, -, -, rfl⟩ | ⟨l, r, a, -, -, rfl⟩ | ⟨l, r, l', r', -, -, rfl⟩ :=
    walkBit_cases h <;> simp

/-- Settles O31: by the node the walk stands at, the bit, and the node its edge leads to. -/
theorem walkBitFollowsTree : Obligations.WalkBitFollowsTree := by
  intro b s n hn
  obtain ⟨t, ht⟩ := walkBit_next b (s := s) (by simp [hn])
  refine ⟨t, ht, walkBit_upRemain ht, frame_mono (by decide) (walkBit_frame ht), ?_⟩
  intro stays ends
  cases n with
  | leaf a =>
    cases b with
    | true =>
      cases (walkBit_leaf_one hn).symm.trans ht
      exact ⟨raise_errorEntered _ _ _, rfl, rfl, rfl, rfl⟩
    | false =>
      cases (walkBit_leaf_zero hn).symm.trans ht
      exact ⟨by simp, by simp, by simp, by simp, endsBit_endCheck (by simp [frame_iff, walkFields])⟩
  | inner l r =>
    dsimp only
    cases hc : nodeAt s (if b then r else l) with
    | none =>
      cases (walkBit_dangling hn hc).symm.trans ht
      exact ⟨raise_errorEntered _ _ _, rfl, rfl, rfl, rfl⟩
    | some c =>
      cases c with
      | leaf a =>
        cases (walkBit_to_leaf hn hc).symm.trans ht
        exact ⟨by simp, by simp, by simp, by simp, endsBit_endCheck (by simp [frame_iff, walkFields])⟩
      | inner l' r' =>
        cases (walkBit_to_inner hn hc).symm.trans ht
        exact ⟨by simp, by simp, endCheck_cur _, by simp, endsBit_endCheck (by simp [frame_iff, walkFields])⟩

end Sys2Proof.Machine
end

section
/-! SUPPORT. The bits of `UP_BYTE` walked (44_unpack.md R163, R167, R168): the walk's outcome whatever the tree, the pad
bits, and a walk that meets no error as the symbols `decodeRun` gives. -/

namespace Sys2Proof.Machine

theorem exec_upByte_unpack {s : State} (hm : s.mode = .unpack) (b : Byte) :
    exec (.upByte b) s = walkBits (byteBits b) s :=
  gated_of_legal (by simp [hm, legalModes]) _

theorem walkBits_cons_of_open {b : Bool} {rest : Bits} {s u : State} (h : walkBit b s = .next u)
    (hopen : u.mode = .unpack) : walkBits (b :: rest) s = walkBits rest u := by
  simp [walkBits, h, hopen]

theorem walkBits_cons_of_closed {b : Bool} {rest : Bits} {s u : State} (h : walkBit b s = .next u)
    (hclosed : u.mode ≠ .unpack) : walkBits (b :: rest) s = .next u := by
  simp [walkBits, h, hclosed]

/-! ### The outcome of a walk -/

/-- The session is over: completed at a code boundary, or ended by an error of the walk (R166, R167). -/
def WalkEnded (t : State) : Prop :=
  t.mode = .idle ∧ t.cpl = true ∧ t.upRemain = 0 ∧ t.midcode = false ∨
  t.mode = .error ∧ t.errMode = .unpack ∧ t.err ∈ [ErrCode.invalidCode, .malformedTable, .truncated]

/-- What `k` bits presented to a session in `s` lead to: at most `k` symbols, emitted and counted; the session over, or
still open with `k` bits consumed and the walk at a node. -/
structure WalkOutcome (k : Nat) (s t : State) : Prop where
  emitted   : ∃ syms, t.outq = s.outq ++ syms ∧ syms.length ≤ k ∧ t.symCnt = s.symCnt + BitVec.ofNat 32 syms.length
  ends      : t.mode = .unpack ∧ t.upRemain = s.upRemain - BitVec.ofNat 32 k ∧ nodeAt t t.cur ≠ none ∨ WalkEnded t
  unchanged : t.mode ≠ .error → frame (.mode :: .cpl :: walkFields) s t

theorem WalkEnded.mode_ne {t : State} (h : WalkEnded t) : t.mode ≠ .unpack := by
  obtain ⟨hm, -⟩ | ⟨hm, -⟩ := h <;> simp [hm]

namespace WalkOutcome

theorem refl {s : State} (hm : s.mode = .unpack) (hnode : nodeAt s s.cur ≠ none) : WalkOutcome 0 s s :=
  ⟨⟨[], by simp⟩, .inl ⟨hm, by simp, hnode⟩, fun _ => frame_refl _ _⟩

/-- Bits after the session is over are not walked (R168). -/
theorem of_ended {j k : Nat} {s t : State} (h : WalkOutcome k s t) (he : WalkEnded t) : WalkOutcome (j + k) s t := by
  obtain ⟨⟨syms, hq, hlen, hcnt⟩, -, hframe⟩ := h
  exact ⟨⟨syms, hq, by omega, hcnt⟩, .inr he, hframe⟩

theorem trans {j k : Nat} {s u t : State} (hsu : WalkOutcome j s u) (hm : u.mode = .unpack) (hut : WalkOutcome k u t) :
    WalkOutcome (k + j) s t := by
  obtain ⟨⟨xs, hxq, hxlen, hxcnt⟩, ⟨-, hrem, -⟩ | he, hxframe⟩ := hsu
  · obtain ⟨⟨ys, hyq, hylen, hycnt⟩, hends, hyframe⟩ := hut
    refine ⟨⟨xs ++ ys, by rw [hyq, hxq, List.append_assoc], by rw [List.length_append]; omega, ?_⟩, ?_,
      fun ht => frame_trans (hxframe (by simp [hm])) (hyframe ht)⟩
    · rw [hycnt, hxcnt, List.length_append, BitVec.ofNat_add, BitVec.add_assoc]
    · refine hends.imp_left fun ⟨hopen, hrem', hnode⟩ => ⟨hopen, ?_, hnode⟩
      rw [hrem', hrem, Nat.add_comm, BitVec.ofNat_add, BitVec.sub_sub]
  · exact absurd hm he.mode_ne

end WalkOutcome

/-- The error of a bit: the symbols of the bits before it stay emitted, and no more are (R167). -/
theorem walkOutcome_raise {s : State} (hm : s.mode = .unpack) {e : ErrCode} (info : Word)
    (he : e ∈ [ErrCode.invalidCode, .malformedTable, .truncated]) : WalkOutcome 1 s (raise e info (consumeBit s)) :=
  ⟨⟨[], by simp⟩, .inr (.inr ⟨rfl, hm, he⟩), fun h => absurd rfl h⟩

/-- A bit that emitted or moved to a node, and the end-of-stream check after it (R166). -/
theorem walkOutcome_endCheck {s u : State} (hm : s.mode = .unpack) (hu : frame walkFields s u)
    (hrem : u.upRemain = s.upRemain - 1) (hnode : nodeAt s u.cur ≠ none)
    (hemit : ∃ syms, u.outq = s.outq ++ syms ∧ syms.length ≤ 1 ∧ u.symCnt = s.symCnt + BitVec.ofNat 32 syms.length) :
    WalkOutcome 1 s (endCheck u) := by
  have hmode : u.mode = .unpack := (hu .mode (by decide)).trans hm
  have harena : u.arena = s.arena := hu .arena (by decide)
  have hnode' : nodeAt u u.cur ≠ none := by rwa [nodeAt, harena]
  have hframe : frame (.mode :: .cpl :: walkFields) s u := frame_mono (by simp) hu
  refine ⟨by simpa using hemit, ?_, fun hne => ?_⟩ <;>
    obtain ⟨-, h⟩ | ⟨-, -, h⟩ | ⟨hzero, hmid, h⟩ := endCheck_cases u
  · rw [h]
    exact .inl ⟨hmode, hrem, hnode'⟩
  · rw [h]
    exact .inr (.inr ⟨rfl, hmode, by simp⟩)
  · rw [h]
    exact .inr (.inl ⟨rfl, rfl, hzero, hmid⟩)
  · rwa [h]
  · exact absurd (by rw [h]; rfl) hne
  · rw [h]
    exact frame_trans hframe (frame_mono (by simp) (complete_frame u))

theorem walkBit_outcome {b : Bool} {s t : State} (hm : s.mode = .unpack) (hroot : nodeAt s s.root ≠ none)
    (h : walkBit b s = .next t) : WalkOutcome 1 s t := by
  obtain ⟨a, -, -, rfl⟩ | ⟨a, hn, -, rfl⟩ | ⟨l, r, -, -, rfl⟩ | ⟨l, r, a, -, -, rfl⟩ | ⟨l, r, l', r', -, hc, rfl⟩ :=
    walkBit_cases h
  · exact walkOutcome_raise hm _ (by simp)
  · exact walkOutcome_endCheck hm (by simp [frame_iff, walkFields]) rfl (by simp [hn]) ⟨[a], rfl, by simp, rfl⟩
  · exact walkOutcome_raise hm _ (by simp)
  · exact walkOutcome_endCheck hm (by simp [frame_iff, walkFields]) rfl hroot ⟨[a], rfl, by simp, rfl⟩
  · exact walkOutcome_endCheck hm (by simp [frame_iff, walkFields]) rfl (by simp [hc]) ⟨[], by simp⟩

/-- A walk that begins at a node stays at nodes, so it answers (R167). -/
theorem walkBits_outcome (bits : Bits) {s : State} (hm : s.mode = .unpack) (hroot : nodeAt s s.root ≠ none)
    (hcur : nodeAt s s.cur ≠ none) : ∃ t, walkBits bits s = .next t ∧ WalkOutcome bits.length s t := by
  induction bits generalizing s with
  | nil => exact ⟨s, rfl, .refl hm hcur⟩
  | cons b rest ih =>
    obtain ⟨u, hu⟩ := walkBit_next b hcur
    have hbit := walkBit_outcome hm hroot hu
    obtain ⟨hopen, -, hnode⟩ | hended := hbit.ends
    · have hroot' : nodeAt u u.root ≠ none := by
        have hframe := walkBit_frame hu
        rwa [nodeAt, show u.arena = s.arena from hframe .arena (by decide),
          show u.root = s.root from hframe .root (by decide)]
      obtain ⟨t, ht, hrest⟩ := ih hopen hroot' hnode
      exact ⟨t, (walkBits_cons_of_open hu hopen).trans ht, hbit.trans hopen hrest⟩
    · exact ⟨u, walkBits_cons_of_closed hu hended.mode_ne, hbit.of_ended hended⟩

/-- Settles O32: by what the eight bits lead to; outside UNPACK the legality check raises. -/
theorem upByteWalksFromBitSeven : Obligations.UpByteWalksFromBitSeven := by
  refine ⟨encode_upByte, fun b => sequenceOutside_legalModes (.upByte b), fun b s hm hroot hcur => ?_⟩
  have hexec := exec_upByte_unpack hm b
  obtain ⟨t, ht, hwalk⟩ := walkBits_outcome (byteBits b) hm hroot hcur
  rw [byteBits_length] at hwalk
  obtain ⟨syms, hq, hlen, hcnt⟩ := hwalk.emitted
  refine ⟨hexec, t, syms, hexec.trans ht, hq, hlen, hcnt, ?_, fun hne => ?_, ?_⟩
  · exact hwalk.ends.imp_left fun ⟨hopen, hrem, _⟩ => ⟨hopen, hrem⟩
  · exact frame_mono (by decide) (hwalk.unchanged hne)
  · exact frame_mono (by decide) (walkBits_frame ht)

/-! ### The pad bits -/

/-- The bit that consumes the last of `UP_BITLEN` ends the session (R166). -/
theorem walkBit_last {b : Bool} {s t : State} (hrem : s.upRemain.toNat = 1) (h : walkBit b s = .next t) :
    t.mode ≠ .unpack := by
  have hzero : s.upRemain - 1 = 0 := by rw [BitVec.eq_of_toNat_eq (x := s.upRemain) (y := 1) hrem]; rfl
  have hend : ∀ u : State, u.upRemain = s.upRemain - 1 → (endCheck u).mode ≠ .unpack := fun u hu => by
    obtain ⟨hne, -⟩ | ⟨-, -, h⟩ | ⟨-, -, h⟩ := endCheck_cases u
    · exact absurd (hu.trans hzero) hne
    · simp [h]
    · simp [h]
  obtain ⟨a, -, -, rfl⟩ | ⟨a, -, -, rfl⟩ | ⟨l, r, -, -, rfl⟩ | ⟨l, r, a, -, -, rfl⟩ | ⟨l, r, l', r', -, -, rfl⟩ :=
    walkBit_cases h
  · simp
  · exact hend _ rfl
  · simp
  · exact hend _ rfl
  · exact hend _ rfl

/-- Bits past those still to consume are not walked (R163). -/
theorem walkBits_take (bits : Bits) {s : State} (hpos : 0 < s.upRemain.toNat) :
    walkBits (bits.take s.upRemain.toNat) s = walkBits bits s := by
  induction bits generalizing s with
  | nil => rw [List.take_nil]
  | cons b rest ih =>
    obtain ⟨n, hn⟩ : ∃ n, s.upRemain.toNat = n + 1 := ⟨_, (Nat.succ_pred_eq_of_pos hpos).symm⟩
    rw [hn, List.take_succ_cons]
    cases hb : walkBit b s with
    | next u =>
      by_cases hopen : u.mode = .unpack
      · have hrem : u.upRemain.toNat = n := by
          rw [walkBit_upRemain hb, BitVec.toNat_sub_of_le (show 1 ≤ s.upRemain.toNat from hpos), hn]
          rfl
        have hn0 : n ≠ 0 := fun h0 => walkBit_last (by rw [hn, h0]) hb hopen
        rw [walkBits_cons_of_open hb hopen, walkBits_cons_of_open hb hopen, ← hrem]
        exact ih (by omega)
      · rw [walkBits_cons_of_closed hb hopen, walkBits_cons_of_closed hb hopen]
    | fault f => simp [walkBits, hb]
    | refused r => simp [walkBits, hb]

/-- Settles O34: the bits walked are the first `UP_REMAIN` bits of the byte. -/
theorem padBitsAreIgnored : Obligations.PadBitsAreIgnored := by
  intro b c s hm hpos hle hagree
  have htake : (byteBits b).take s.upRemain.toNat = (byteBits c).take s.upRemain.toNat := by
    refine List.ext_getElem (by simp) fun k hk _ => ?_
    rw [List.length_take, byteBits_length] at hk
    simpa [byteBits] using hagree k (by omega)
  rw [exec_upByte_unpack hm, exec_upByte_unpack hm, ← walkBits_take _ hpos, htake, walkBits_take _ hpos]

end Sys2Proof.Machine
end

section
/-! SUPPORT. A walk that meets no error (44_unpack.md R165 to R168): where it stands and what it emitted, as `decodeRun`
says, over one bit, the bits of a byte, and the bytes of a session. -/

namespace Sys2Proof.Machine

/-- The result of `decodeRun`: the symbols, the index the walk ends at, and whether that is inside a code. -/
abbrev Run := List Byte × NodeIdx × Bool

/-! ### Runs joined -/

theorem decodeRun_append (arena : List (Nat × Node)) (root cur : NodeIdx) (mid : Bool) (xs ys : Bits) :
    decodeRun arena root cur mid (xs ++ ys) = (decodeRun arena root cur mid xs).bind fun p =>
      (decodeRun arena root p.2.1 p.2.2 ys).map fun q => (p.1 ++ q.1, q.2) := by
  induction xs generalizing cur mid with
  | nil => simp [decodeRun]
  | cons b rest ih =>
    simp only [List.cons_append, decodeRun, ih]
    split
    · rfl
    · split
      · rfl
      · simp [Option.bind_map, Option.map_bind, Function.comp_def]
    · split
      · rfl
      · simp [Option.bind_map, Option.map_bind, Function.comp_def]
      · rfl

/-- A run over bits joined is a run over the first, then one over the rest from where it ends. -/
theorem decodeRun_append_eq_some {arena : List (Nat × Node)} {root cur : NodeIdx} {mid : Bool} {xs ys : Bits} {r : Run} :
    decodeRun arena root cur mid (xs ++ ys) = some r ↔
      ∃ p q, decodeRun arena root cur mid xs = some p ∧ decodeRun arena root p.2.1 p.2.2 ys = some q ∧
        (p.1 ++ q.1, q.2) = r := by
  simp [decodeRun_append, Option.bind_eq_some_iff, Option.map_eq_some_iff]

/-! ### The walk of a run -/

/-- The state after `n` walked bits whose run is `r`, before the end-of-stream check (R167). -/
def walkedTo (r : Run) (n : Nat) (s : State) : State :=
  { s with
    outq := s.outq ++ r.1, symCnt := s.symCnt + BitVec.ofNat 32 r.1.length, cur := r.2.1, midcode := r.2.2,
    upRemain := s.upRemain - BitVec.ofNat 32 n }

theorem walkedTo_zero (s : State) : walkedTo ([], s.cur, s.midcode) 0 s = s := by
  simp [walkedTo]

theorem walkedTo_walkedTo (p q : Run) (m n : Nat) (s : State) :
    walkedTo q n (walkedTo p m s) = walkedTo (p.1 ++ q.1, q.2) (m + n) s := by
  simp [walkedTo, BitVec.ofNat_add, BitVec.add_assoc, BitVec.sub_sub]

theorem walkedTo_upRemain_toNat {r : Run} {n : Nat} {s : State} (h : n ≤ s.upRemain.toNat) :
    (walkedTo r n s).upRemain.toNat = s.upRemain.toNat - n := by
  have hlt := s.upRemain.isLt
  have hn : (BitVec.ofNat 32 n).toNat = n := by
    rw [BitVec.toNat_ofNat]
    omega
  rw [show (walkedTo r n s).upRemain = s.upRemain - BitVec.ofNat 32 n from rfl,
    BitVec.toNat_sub_of_le (by rw [BitVec.le_def, hn]; exact h), hn]

theorem endCheck_walkedTo_of_lt {r : Run} {n : Nat} {s : State} (h : n < s.upRemain.toNat) :
    endCheck (walkedTo r n s) = walkedTo r n s := by
  refine if_neg fun hzero => ?_
  have hrem := walkedTo_upRemain_toNat (r := r) (Nat.le_of_lt h)
  rw [hzero] at hrem
  simp at hrem
  omega

theorem walkedTo_upRemain_eq_zero {r : Run} {s : State} : (walkedTo r s.upRemain.toNat s).upRemain = 0 := by
  simp [walkedTo]

/-- One bit with a run. -/
theorem walkBit_of_decodeRun {b : Bool} {s : State} {r : Run}
    (h : decodeRun s.arena s.root s.cur s.midcode [b] = some r) : walkBit b s = .next (endCheck (walkedTo r 1 s)) := by
  simp only [decodeRun] at h
  split at h
  · cases h
  · rename_i a hn
    cases b with
    | true => cases h
    | false =>
      cases h
      exact walkBit_leaf_zero hn
  · rename_i l r hn
    split at h
    · cases h
    · rename_i a hc
      cases h
      exact walkBit_to_leaf hn hc
    · rename_i l' r' hc
      cases h
      refine (walkBit_to_inner hn hc).trans ?_
      simp [walkedTo, consumeBit, childIdx]

/-- Bits still to consume that have a run are all walked; the end-of-stream check is the last one's. -/
theorem walkBits_of_decodeRun {bits : Bits} {s : State} {r : Run} (hm : s.mode = .unpack) (hpos : 0 < s.upRemain.toNat)
    (hlen : bits.length ≤ s.upRemain.toNat) (h : decodeRun s.arena s.root s.cur s.midcode bits = some r) :
    walkBits bits s = .next (endCheck (walkedTo r bits.length s)) := by
  induction bits generalizing s r with
  | nil =>
    cases h
    rw [List.length_nil, endCheck_walkedTo_of_lt hpos, walkedTo_zero]
    rfl
  | cons b rest ih =>
    rw [List.length_cons] at hlen
    obtain ⟨p, q, hp, hq, rfl⟩ := (decodeRun_append_eq_some (xs := [b])).mp h
    have hbit := walkBit_of_decodeRun hp
    by_cases hlast : s.upRemain.toNat = 1
    · obtain rfl : rest = [] := List.length_eq_zero_iff.mp (by omega)
      cases hq
      rw [walkBits_cons_of_closed hbit (walkBit_last hlast hbit), List.append_nil]
      rfl
    · have hone : 1 < s.upRemain.toNat := by omega
      have hrem := walkedTo_upRemain_toNat (r := p) hone.le
      rw [endCheck_walkedTo_of_lt hone] at hbit
      rw [walkBits_cons_of_open hbit hm, ih (s := walkedTo p 1 s) hm (by omega) (by omega) hq, walkedTo_walkedTo,
        Nat.add_comm, List.length_cons]

/-- `UP_BYTE` where the bits of its byte still to consume have a run (R163, R168). -/
theorem exec_upByte_of_decodeRun {b : Byte} {s : State} {r : Run} (hm : s.mode = .unpack) (hpos : 0 < s.upRemain.toNat)
    (h : decodeRun s.arena s.root s.cur s.midcode ((byteBits b).take s.upRemain.toNat) = some r) :
    exec (.upByte b) s = .next (endCheck (walkedTo r (min s.upRemain.toNat 8) s)) := by
  rw [exec_upByte_unpack hm, ← walkBits_take _ hpos, walkBits_of_decodeRun hm hpos (by simp) h, List.length_take,
    byteBits_length]

theorem walkedTo_frame (r : Run) (n : Nat) (s : State) :
    frame [.outq, .symCnt, .cur, .midcode, .upRemain] s (walkedTo r n s) := by
  simp [frame_iff, walkedTo]

theorem endCheck_of_boundary {s : State} (hrem : s.upRemain = 0) (hmid : s.midcode = false) :
    endCheck s = complete s := by
  simp [endCheck, hrem, hmid]

theorem endCheck_of_midcode {s : State} (hrem : s.upRemain = 0) (hmid : s.midcode = true) :
    endCheck s = raise .truncated s.upBitLen s := by
  simp [endCheck, hrem, hmid]

/-- Settles O33: the walk of the run, and the end-of-stream check where it consumes the last bit. -/
theorem upByteEmitsDecodedSymbols : Obligations.UpByteEmitsDecodedSymbols := by
  intro b s syms c mid hm hpos hrun
  refine ⟨_, exec_upByte_of_decodeRun hm hpos hrun, endCheck_outq _, endCheck_symCnt _, endCheck_cur _,
    endCheck_midcode _, fun hmore => ?_, fun hlast hmid => ?_, fun hlast hmid => ?_⟩
  · rw [Nat.min_eq_right hmore.le, endCheck_walkedTo_of_lt hmore]
    exact ⟨rfl, walkedTo_frame _ _ s⟩
  · have hrem := walkedTo_upRemain_eq_zero (r := (syms, c, mid)) (s := s)
    rw [Nat.min_eq_left hlast, endCheck_of_boundary hrem hmid]
    exact ⟨hrem, rfl, rfl, frame_trans (frame_mono (by simp) (walkedTo_frame _ _ s))
      (frame_mono (by simp) (complete_frame _))⟩
  · have hrem := walkedTo_upRemain_eq_zero (r := (syms, c, mid)) (s := s)
    rw [Nat.min_eq_left hlast, endCheck_of_midcode hrem hmid]
    exact ⟨hrem, raise_errorEntered _ _ _, frame_trans (frame_mono (by simp) (walkedTo_frame _ _ s))
      (raise_frame (List.subset_append_right _ _) _ _ _)⟩

/-! ### The bytes of a session -/

theorem bytesBits_cons (b : Byte) (bytes : List Byte) : bytesBits (b :: bytes) = byteBits b ++ bytesBits bytes :=
  List.flatMap_cons

/-- The bytes a session needs, or the first of them, where the bits to consume have a run: their bits are walked one
byte after another, up to the last bit to consume (R163). -/
theorem execAll_upBytes {bytes : List Byte} {s : State} {r : Run} (hm : s.mode = .unpack)
    (hpos : 0 < s.upRemain.toNat) (hlen : 8 * bytes.length < s.upRemain.toNat + 8)
    (h : decodeRun s.arena s.root s.cur s.midcode ((bytesBits bytes).take s.upRemain.toNat) = some r) :
    execAll (bytes.map .upByte) s = .next (endCheck (walkedTo r (min s.upRemain.toNat (8 * bytes.length)) s)) := by
  induction bytes generalizing s r with
  | nil =>
    rw [bytesBits_nil, List.take_nil] at h
    cases h
    rw [List.length_nil, Nat.mul_zero, Nat.min_zero, endCheck_walkedTo_of_lt hpos, walkedTo_zero]
    rfl
  | cons b rest ih =>
    rw [List.length_cons] at hlen
    rw [bytesBits_cons] at h
    by_cases hlast : s.upRemain.toNat ≤ 8
    · obtain rfl : rest = [] := List.length_eq_zero_iff.mp (by omega)
      rw [bytesBits_nil, List.append_nil] at h
      rw [List.map_cons, execAll, exec_upByte_of_decodeRun hm hpos h]
      rfl
    · have hmore : 8 < s.upRemain.toNat := Nat.lt_of_not_le hlast
      rw [List.take_append, byteBits_length] at h
      obtain ⟨p, q, hp, hq, rfl⟩ := decodeRun_append_eq_some.mp h
      have hrem := walkedTo_upRemain_toNat (r := p) hmore.le
      have hbyte := exec_upByte_of_decodeRun hm hpos hp
      rw [Nat.min_eq_right hmore.le, endCheck_walkedTo_of_lt hmore] at hbyte
      rw [List.map_cons, execAll, hbyte]
      refine (ih (s := walkedTo p 8 s) hm (by omega) (by omega) (by rw [hrem]; exact hq)).trans ?_
      rw [walkedTo_walkedTo, hrem, List.length_cons]
      congr 3
      omega

end Sys2Proof.Machine
end

section
/-! SUPPORT. The round trip (44_unpack.md R171): the message of symbols whose codes the tree decodes has a run that gives
them back, and the bytes a pack session emitted carry that message to an unpack session. -/

namespace Sys2Proof.Machine

/-! ### The run of a message -/

theorem reached_cons_eq_some {arena : List (Nat × Node)} {i : NodeIdx} {b : Bool} {rest : Bits} {n : Node} :
    reached arena i (b :: rest) = some n ↔
      ∃ l r, nodeIn arena i = some (.inner l r) ∧ reached arena (childIdx b l r) rest = some n := by
  simp only [reached, walkTo]
  cases nodeIn arena i with
  | none => simp
  | some c => cases c <;> simp

/-- A code whose walk reaches a LEAF is a run of that one symbol (R167). -/
theorem decodeRun_of_reached {arena : List (Nat × Node)} (root : NodeIdx) {i : NodeIdx} (mid : Bool) {code : Bits}
    {a : Byte} (hne : code ≠ []) (h : reached arena i code = some (.leaf a)) :
    decodeRun arena root i mid code = some ([a], root, false) := by
  induction code generalizing i mid with
  | nil => contradiction
  | cons b rest ih =>
    obtain ⟨l, r, hn, hrest⟩ := reached_cons_eq_some.mp h
    cases rest with
    | nil =>
      have hc : nodeIn arena (if b then r else l) = some (.leaf a) := hrest
      simp [decodeRun, hn, hc]
    | cons b' rest' =>
      obtain ⟨l', r', hc, -⟩ := reached_cons_eq_some.mp hrest
      have hc' : nodeIn arena (if b then r else l) = some (.inner l' r') := hc
      rw [decodeRun, hn]
      dsimp only
      rw [hc']
      exact ih true (by simp) hrest

/-- A code the tree decodes is a run of its symbol, from the root back to the root (42_tree.md R124; R165). -/
theorem decodeRun_of_decodesTo {arena : List (Nat × Node)} {root : NodeIdx} {code : Bits} {a : Byte}
    (h : decodesTo arena root code a) : decodeRun arena root root false code = some ([a], root, false) := by
  obtain ⟨rfl, hroot⟩ | ⟨hne, hreach⟩ := h
  · simp [decodeRun, hroot]
  · exact decodeRun_of_reached root false hne hreach

theorem ne_nil_of_decodesTo {arena : List (Nat × Node)} {root : NodeIdx} {code : Bits} {a : Byte}
    (h : decodesTo arena root code a) : code ≠ [] := by
  obtain ⟨rfl, -⟩ | ⟨hne, -⟩ := h
  · simp
  · exact hne

/-- Every symbol has a code, and the tree in the arena decodes it to the symbol. -/
def TreeDecodes (arena : List (Nat × Node)) (root : NodeIdx) (s : State) (syms : List Byte) : Prop :=
  ∀ a ∈ syms, decodesTo arena root (codeOf s a) a

namespace TreeDecodes
variable {arena : List (Nat × Node)} {root : NodeIdx} {s : State} {syms : List Byte} (h : TreeDecodes arena root s syms)
include h

theorem ctLen_ne_zero : ∀ a ∈ syms, ctLen s a ≠ 0 := fun a ha h0 =>
  ne_nil_of_decodesTo (h a ha) (List.length_eq_zero_iff.mp h0)

/-- The joined codes are walked back into their symbols (R171). -/
theorem decodeRun_message : decodeRun arena root root false (message s syms) = some (syms, root, false) := by
  induction syms with
  | nil => rfl
  | cons a rest ih =>
    obtain ⟨ha, hrest⟩ := List.forall_mem_cons.mp h
    rw [message_cons]
    exact decodeRun_append_eq_some.mpr ⟨_, _, decodeRun_of_decodesTo ha, ih hrest, rfl⟩

theorem message_ne_nil (hne : syms ≠ []) : message s syms ≠ [] := by
  have hle := length_le_message h.ctLen_ne_zero
  have hpos := List.length_pos_iff.mpr hne
  exact List.length_pos_iff.mp (by omega)

end TreeDecodes

/-! ### The bytes of a pack session -/

/-- Bytes of which the bits from bit 7 down begin with `c` (R66 of 20_memory.md). -/
theorem take_bytesBits {c : Bits} {bytes : List Byte} (hlen : bytes.length = (c.length + 7) / 8)
    (hbits : ∀ j i, j < bytes.length → i < 8 → (bytes.getD j 0).getLsbD (7 - i) = c.getD (8 * j + i) false) :
    (bytesBits bytes).take c.length = c := by
  refine List.ext_getElem (by simp; omega) fun k _ hk => ?_
  have hbit := hbits (k / 8) (k % 8) (by omega) (by omega)
  rw [getLsbD_getD (by omega) (by omega), Nat.div_add_mod, List.getD_eq_getElem _ _ (by simp; omega),
    List.getD_eq_getElem _ _ hk] at hbit
  rwa [List.getElem_take]

/-- What a completed pack session of the message `m` hands over: its bytes and the count of its bits (43_pack.md R146). -/
structure Emitted (m : Bits) (bytes : List Byte) (n : Word) : Prop where
  bits      : (bytesBits bytes).take m.length = m
  length_eq : bytes.length = (m.length + 7) / 8
  count     : n.toNat = m.length

/-- A completed pack session is back in IDLE, has handed over its message, and has changed neither table nor the
error record. -/
theorem emitted_of_completed {s t : State} {syms bytes : List Byte} (hm : s.mode = .idle)
    (ht : execAll (packProgram syms) s = .next t) (hcpl : t.cpl = true) (hq : t.outq = s.outq ++ bytes) :
    t.mode = .idle ∧ Emitted (message s syms) bytes t.pkBitCnt ∧
      frame [.mode, .cpl, .outq, .acc, .accN, .pkBitCnt, .symCnt] s t := by
  obtain ⟨t', ht', -, hdone⟩ := packSessionEmitsMessage s syms hm
  cases ht.symm.trans ht'
  obtain ⟨hmode, bytes', hq', hlen, hbits, hcount, -, hframe⟩ := hdone hcpl
  obtain rfl : bytes = bytes' := List.append_cancel_left (hq.symm.trans hq')
  exact ⟨hmode, ⟨take_bytesBits hlen hbits, hlen, hcount⟩, hframe⟩

/-! ### The unpack session -/

/-- The state an unpack session of `n` bits opens in (R160, R161, R164). -/
def openUnpackOf (n : Word) (s : State) : State := openUnpack { s with upBitLen := n }

theorem execAll_openUnpackOf {n : Word} {s : State} (hm : s.mode = .idle) (hv : s.treeValid = true)
    (hroot : nodeAt s s.root ≠ none) (hn : n ≠ 0) (is : List Instr) :
    execAll (upLen n ++ .upStart :: is) s = execAll is (openUnpackOf n s) := by
  have hlen : execAll (upLen n) s = .next { s with upBitLen := n } := by
    simp [upLen, execAll, exec_upLenLo_idle hm, exec_upLenHi_idle, hm, withHigh_withLow]
  rw [execAll_append hlen, execAll, exec_upStart_open (s := { s with upBitLen := n }) hm hv hroot hn]
  rfl

/-- A walk of at least one bit begins at a node. -/
theorem nodeIn_ne_none_of_decodeRun {arena : List (Nat × Node)} {root cur : NodeIdx} {mid : Bool} {bits : Bits} {r : Run}
    (hne : bits ≠ []) (h : decodeRun arena root cur mid bits = some r) : nodeIn arena cur ≠ none := by
  intro hnone
  cases bits with
  | nil => contradiction
  | cons b rest => simp [decodeRun, hnone] at h

section Session
variable {s : State} {m : Bits} {bytes : List Byte} {n : Word} {syms : List Byte} (he : Emitted m bytes n)
  (hm : s.mode = .idle) (hv : s.treeValid = true) (hne : m ≠ [])
  (hrun : decodeRun s.arena s.root s.root false m = some (syms, s.root, false))
include he

include hne in
theorem Emitted.bytes_ne_nil : bytes ≠ [] := by
  have hlen := he.length_eq
  have hpos := List.length_pos_iff.mpr hne
  exact List.length_pos_iff.mp (by omega)

include hm hv hne hrun

/-- The first bytes of a message with a run, up to all of them, are walked (R163). -/
theorem Emitted.execAll_unpack {first : List Byte} (hfirst : first <+: bytes) :
    ∃ r, decodeRun s.arena s.root s.root false ((bytesBits first).take m.length) = some r ∧
      execAll (upLen n ++ .upStart :: first.map .upByte) s =
        .next (endCheck (walkedTo r (min m.length (8 * first.length)) (openUnpackOf n s))) := by
  have hpos := List.length_pos_iff.mpr hne
  have hlen := he.length_eq
  have hle := hfirst.length_le
  have hprefix : (bytesBits first).take m.length <+: m := by
    have htake := (hfirst.flatMap byteBits).take m.length
    rwa [← bytesBits, ← bytesBits, he.bits] at htake
  obtain ⟨rest, hrest⟩ := hprefix
  rw [← hrest] at hrun
  obtain ⟨r, -, hr, -⟩ := decodeRun_append_eq_some.mp hrun
  have hn : n ≠ 0 := fun h0 => by
    have hcount := he.count
    rw [h0] at hcount
    simp at hcount
    omega
  refine ⟨r, hr, ?_⟩
  rw [execAll_openUnpackOf hm hv (nodeIn_ne_none_of_decodeRun (by simpa [hrest] using hne) hrun) hn, ← he.count]
  exact execAll_upBytes (s := openUnpackOf n s) rfl (by simp [openUnpackOf, he.count, hpos])
    (by simp [openUnpackOf, he.count]; omega) (by simpa [openUnpackOf, he.count] using hr)

/-- All the bytes emit the symbols of the message, and the last bit, at a code boundary, completes the session (R166). -/
theorem Emitted.execAll_unpack_all (hsyms : syms.length ≤ m.length) :
    ∃ u, execAll (upLen n ++ .upStart :: bytes.map .upByte) s = .next u ∧ exec .upEnd u = .next u ∧
      u.outq = s.outq ++ syms ∧ u.mode = .idle ∧ u.cpl = true ∧ u.symCnt.toNat = syms.length ∧ u.upRemain = 0 ∧
      u.err = s.err := by
  obtain ⟨r, hr, hexec⟩ := he.execAll_unpack hm hv hne hrun (List.prefix_refl bytes)
  rw [he.bits, hrun] at hr
  cases hr
  have hlen := he.length_eq
  have hcount := he.count
  have hlt := n.isLt
  have hcnt : (0#32).toNat + syms.length ≤ cntMax := by
    simp [cntMax]
    omega
  have hzero : (walkedTo (syms, s.root, false) n.toNat (openUnpackOf n s)).upRemain = 0 := walkedTo_upRemain_eq_zero
  rw [Nat.min_eq_left (by omega), ← hcount, endCheck_of_boundary hzero rfl] at hexec
  exact ⟨_, hexec, exec_upEnd_idle rfl, rfl, rfl, rfl, (toNat_add_ofNat hcnt).trans (Nat.zero_add _), hzero, rfl⟩

/-- Before the last byte bits are left, so the session is open. -/
theorem Emitted.execAll_unpack_dropLast :
    ∃ v, execAll (upLen n ++ .upStart :: bytes.dropLast.map .upByte) s = .next v ∧ v.mode = .unpack := by
  obtain ⟨r, -, hexec⟩ := he.execAll_unpack hm hv hne hrun (List.dropLast_prefix bytes)
  have hlen := he.length_eq
  have hcount := he.count
  have hmore : 8 * bytes.dropLast.length < m.length := by
    have hpos := List.length_pos_iff.mpr hne
    rw [List.length_dropLast]
    omega
  rw [Nat.min_eq_right hmore.le, endCheck_walkedTo_of_lt (by simpa [openUnpackOf, hcount] using hmore)] at hexec
  exact ⟨_, hexec, rfl⟩

end Session

/-! ### The round trip -/

/-- Settles O36: the pack session leaves the tree as it was, and the run of its message gives the symbols back. -/
theorem unpackOfPackWithAgreeingTree : Obligations.UnpackOfPackWithAgreeingTree := by
  intro s syms hm hv hne hdec hlen
  have hcodes : TreeDecodes s.arena s.root s syms := hdec
  obtain ⟨t, ht, hiff, hdone⟩ := packSessionEmitsMessage s syms hm
  have hcpl : t.cpl = true := hiff.mpr ⟨hne, hcodes.ctLen_ne_zero, hlen⟩
  obtain ⟨-, bytes, hq, -⟩ := hdone hcpl
  obtain ⟨hmode, he, hframe⟩ := emitted_of_completed hm ht hcpl hq
  have harena : t.arena = s.arena := hframe .arena (by decide)
  have hroot : t.root = s.root := hframe .root (by decide)
  have htree : t.treeValid = s.treeValid := hframe .treeValid (by decide)
  have herr : t.err = s.err := hframe .err (by decide)
  obtain ⟨u, hu, hresult⟩ := he.execAll_unpack_all hmode (htree.trans hv) (hcodes.message_ne_nil hne)
    (by rw [harena, hroot]; exact hcodes.decodeRun_message) (length_le_message hcodes.ctLen_ne_zero)
  rw [herr] at hresult
  exact ⟨t, bytes, ht, hcpl, hq, u, hu, hresult⟩

/-- The tree built from a valid table decodes the codes of its symbols (42_tree.md R124). -/
theorem treeDecodes_buildArena {s : State} (h : codeTableWf s) (hv : validTable s.ct = none) {syms : List Byte}
    (hcodes : ∀ a ∈ syms, ctLen s a ≠ 0) : TreeDecodes (buildArena s.ct) 0 s syms := fun a ha => by
  obtain ⟨e, he, rfl⟩ := (ctLen_ne_zero_iff h).mp (hcodes a ha)
  rw [codeOf_rowSym h he]
  exact decodesTo_buildArena h hv he

/-- Settles O37: the pack session leaves the table, so the tree built after it decodes the codes packed; its last byte
holds the last bit. -/
theorem unpackOfPackIsIdentity : Obligations.UnpackOfPackIsIdentity := by
  intro s t syms bytes hm hwf hverdict hne hcodes ht hcpl hq
  obtain ⟨hmode, he, hframe⟩ := emitted_of_completed hm ht hcpl hq
  have hct : t.ct = s.ct := hframe .codeTable (by decide)
  have herr : t.err = s.err := hframe .err (by decide)
  have hvalid : validTable s.ct = none := (tableVerdict_eq hwf).symm.trans hverdict
  have hdec := treeDecodes_buildArena hwf hvalid hcodes
  have harena : (installTree t).arena = buildArena s.ct := congrArg buildArena hct
  have hrun : decodeRun (installTree t).arena (installTree t).root (installTree t).root false (message s syms) =
      some (syms, (installTree t).root, false) := by
    rw [harena]
    exact hdec.decodeRun_message
  have hmsg := hdec.message_ne_nil hne
  have hbuild : ∀ is, execAll (.trBuild :: is) t = execAll is (installTree t) := fun is => by
    rw [execAll, exec_trBuild_valid hmode (hct.symm ▸ hvalid)]
  obtain ⟨u, hu, hresult⟩ := he.execAll_unpack_all (s := installTree t) hmode rfl hmsg hrun (length_le_message hcodes)
  obtain ⟨v, hv, hopen⟩ := he.execAll_unpack_dropLast (s := installTree t) hmode rfl hmsg hrun
  rw [show (installTree t).err = s.err from herr] at hresult
  exact ⟨he.bytes_ne_nil hmsg, ⟨v, (hbuild _).trans hv, hopen⟩, u, (hbuild _).trans hu, hresult⟩

end Sys2Proof.Machine
end

section
/-! SUPPORT. ERROR mode (60_exceptions.md R191 to R198): what is dropped in it and what leaves it, and what a word that
enters it records. -/

namespace Sys2Proof.Machine

/-! ### In ERROR mode -/

/-- In ERROR mode no word but that of `ABORT` has an effect: `NOP` has none, and the others are dropped. -/
theorem accept_keeps_of_error {w : Word} {s : State} (hm : s.mode = .error) (ha : w ≠ 0x10000000#32) :
    accept w s = .next s := by
  obtain ⟨hnop, -, hdrop, -⟩ := acceptedWordIsCheckedInOrder w s
  by_cases hn : w = 0x00000000#32
  · exact hnop hm hn
  · exact hdrop hm hn ha

/-- Settles O10: the step of a word that is not held accepts it, and only the word of `ABORT` has an effect. -/
theorem errorModeDropsEveryOtherWord : Obligations.ErrorModeDropsEveryOtherWord := by
  intro s w ws hm ht hc hh taken
  have hstep : step s = accept w taken := step_of_not_held ht hc hh
  refine ⟨?_, fun ha => hstep.trans (accept_keeps_of_error hm ha)⟩
  rintro rfl
  exact hstep.trans (accept_of_decode decode_abort taken)

/-- Settles O11: the word of `ABORT` leads to the state `abort` writes, any other to the same state. -/
theorem onlyAbortLeavesErrorMode : Obligations.OnlyAbortLeavesErrorMode := by
  intro s hm
  have habort : accept 0x10000000#32 s = .next (abort s) := (accept_of_decode decode_abort s).trans (execAbort_eq s)
  refine ⟨⟨abort s, habort, rfl, rfl, rfl, rfl, rfl, rfl, rfl, rfl, rfl, rfl, rfl, rfl, rfl⟩, fun w t ha h => ?_⟩
  cases (accept_keeps_of_error hm ha).symm.trans h
  exact ⟨hm, rfl, rfl, rfl⟩

/-! ### What is recorded -/

/-- The error of a walked bit, with the info of its code (R191): all bits consumed, the bits consumed, or reason 7. -/
def WalkError (t : State) : Prop :=
  t.err = .truncated ∧ t.errInfo = t.upBitLen ∧ t.upRemain = 0 ∨
  t.err = .invalidCode ∧ t.errInfo = t.upBitLen - t.upRemain ∨
  t.err = .malformedTable ∧ t.errInfo = 7#32

/-- The errors a command's own rule raises in a legal mode, each with the info of its code (R191, R192). -/
def OwnError : Instr → State → Prop
  | .ctAppend a bits, t => t.err = .overflow ∧ t.errInfo = encode (.ctAppend a bits)
  | .trBuild, t => t.err = .malformedTable ∧ t.errInfo ∈ [1#32, 2#32, 3#32, 4#32]
  | .pkSym a, t =>
    t.err = .unknownSymbol ∧ t.errInfo = a.setWidth 32 ∨ t.err = .overflow ∧ t.errInfo = encode (.pkSym a)
  | .pkFlush, t => t.err = .emptyInput ∧ t.errInfo = 0
  | .upStart, t => t.err = .malformedTable ∧ t.errInfo ∈ [5#32, 6#32]
  | .upByte _, t => WalkError t
  | .upEnd, t => t.err = .truncated ∧ t.errInfo = t.upBitLen - t.upRemain
  | _, _ => False

/-- If `t` is in ERROR mode, it records the mode of `s`, `CPL` is cleared, and its error is one of `P` (R195). -/
def Records (P : State → Prop) (s t : State) : Prop :=
  t.mode = .error → t.errMode = s.mode ∧ t.cpl = false ∧ P t

namespace Records

variable {P : State → Prop} {s u : State}

theorem of_mode (h : u.mode ≠ .error) : Records P s u := fun he => absurd he h

theorem of_raise {e : ErrCode} {info : Word} (hu : u.mode = s.mode) (hp : P (raise e info u)) :
    Records P s (raise e info u) := fun _ => ⟨hu, rfl, hp⟩

end Records

/-! ### The walk -/

theorem records_endCheck {s u : State} (hu : u.mode = s.mode) (hm : s.mode ≠ .error) :
    Records WalkError s (endCheck u) := by
  obtain ⟨-, h⟩ | ⟨hrem, -, h⟩ | ⟨-, -, h⟩ := endCheck_cases u <;> rw [h]
  · exact .of_mode (hu ▸ hm)
  · exact .of_raise hu (.inl ⟨rfl, rfl, hrem⟩)
  · exact .of_mode (by simp)

theorem records_walkBit {b : Bool} {s t : State} (hm : s.mode ≠ .error) (h : walkBit b s = .next t) :
    Records WalkError s t := by
  obtain ⟨a, -, -, rfl⟩ | ⟨a, -, -, rfl⟩ | ⟨l, r, -, -, rfl⟩ | ⟨l, r, a, -, -, rfl⟩ | ⟨l, r, l', r', -, -, rfl⟩ :=
    walkBit_cases h
  · exact .of_raise rfl (.inr (.inl ⟨rfl, rfl⟩))
  · exact records_endCheck rfl hm
  · exact .of_raise rfl (.inr (.inr ⟨rfl, rfl⟩))
  · exact records_endCheck rfl hm
  · exact records_endCheck rfl hm

/-- The bits before the one that raises leave the session open, so the mode recorded is UNPACK. -/
theorem records_walkBits {bits : Bits} {s t : State} (hm : s.mode = .unpack) (h : walkBits bits s = .next t) :
    Records WalkError s t := by
  have hne : s.mode ≠ .error := by simp [hm]
  induction bits generalizing s with
  | nil => cases h; exact .of_mode hne
  | cons b rest ih =>
    obtain ⟨u, hu, ⟨hopen, hrest⟩ | ⟨-, rfl⟩⟩ := walkBits_cons.mp h
    · rw [Records, hm, ← hopen]
      exact ih hopen hrest (by simp [hopen])
    · exact records_walkBit hne hu

/-! ### The commands -/

/-- The reasons of a table's check are 1 to 4 (R192). -/
theorem reason_of_validTable {ct : List (Nat × Bits)} {r : Malformed} (h : validTable ct = some r) :
    r.reason ∈ [1#32, 2#32, 3#32, 4#32] := by
  unfold validTable at h
  split at h
  · cases h
    decide
  · split_ifs at h
    cases h
    decide
  · split_ifs at h <;> cases h <;> decide

/-- In a legal mode a command's own rule runs. -/
theorem body_of_legal {i : Instr} {s t : State} {body : Result} (hl : s.mode ∈ legalModes i)
    (h : gated i s body = .next t) : body = .next t := (gated_of_legal hl body).symm.trans h

theorem records_exec {i : Instr} {s t : State} (hl : s.mode ∈ legalModes i) (hm : s.mode ≠ .error)
    (h : exec i s = .next t) : Records (OwnError i) s t := by
  cases i <;> have hb := body_of_legal hl h
  case ctAppend a bits =>
    split_ifs at hb <;> cases hb
    · exact .of_raise rfl ⟨rfl, rfl⟩
    · exact .of_mode hm
  case trBuild =>
    split at hb <;> cases hb
    case h_1 hv => exact .of_raise rfl ⟨rfl, reason_of_validTable hv⟩
    case h_2 => exact .of_mode hm
  case pkSym a =>
    split_ifs at hb <;> cases hb
    · exact .of_raise rfl (.inl ⟨rfl, rfl⟩)
    · exact .of_raise rfl (.inr ⟨rfl, rfl⟩)
    · have hmode : (appendBits (codeOf s a) s).mode = s.mode := appendBits_frame _ s .mode (by decide)
      exact .of_mode (by simpa [hmode] using hm)
  case pkFlush =>
    split_ifs at hb <;> cases hb
    · exact .of_raise rfl ⟨rfl, rfl⟩
    · exact .of_mode (by simp)
    · exact .of_mode (by simp)
  case upStart =>
    split_ifs at hb <;> cases hb
    · exact .of_raise rfl ⟨rfl, by simp [Malformed.reason]⟩
    · exact .of_raise rfl ⟨rfl, by simp [Malformed.reason]⟩
    · exact .of_mode (by simp)
    · exact .of_mode (by simp)
  case upByte b => exact records_walkBits (by simpa [legalModes] using hl) hb
  case upEnd =>
    split_ifs at hb <;> cases hb
    · exact .of_mode hm
    · exact .of_raise rfl ⟨rfl, rfl⟩
  case abort | pkStart =>
    cases hb
    exact .of_mode (by simp)
  all_goals
    cases hb
    exact .of_mode hm

/-- Settles O12: an illegal word raises with itself, a command outside its legal modes `SEQUENCE` with its word, and in a
legal mode the errors are those of the command's own rule. -/
theorem errorEntryRecordsCodeAndInfo : Obligations.ErrorEntryRecordsCodeAndInfo := by
  intro w s t hm h ht
  obtain ⟨i, hd, hexec⟩ | ⟨r, -, herr, -⟩ | ⟨r, hd, -, rfl⟩ := accept_cases h
  · have hw : encode i = w := encode_of_decode hd
    by_cases hl : s.mode ∈ legalModes i
    · obtain ⟨hmode, hcpl, hown⟩ := records_exec hl hm hexec ht
      refine ⟨hmode, hcpl, .inr ⟨i, hd, ?_⟩⟩
      cases i with
      | ctAppend a bits =>
        obtain ⟨he, hinfo⟩ := hown
        simp [he, hinfo, hw]
      | trBuild =>
        obtain ⟨he, hinfo⟩ := hown
        exact .inr (.inr (.inr (.inl ⟨he, .inl ⟨rfl, hinfo⟩⟩)))
      | pkSym a => obtain ⟨he, hinfo⟩ | ⟨he, hinfo⟩ := hown <;> simp [he, hinfo, hw]
      | pkFlush =>
        obtain ⟨he, hinfo⟩ := hown
        exact .inl ⟨he, rfl, hinfo⟩
      | upStart =>
        obtain ⟨he, hinfo⟩ := hown
        exact .inr (.inr (.inr (.inl ⟨he, .inr (.inl ⟨rfl, hinfo⟩)⟩)))
      | upByte b =>
        obtain ⟨he, hinfo, hrem⟩ | ⟨he, hinfo⟩ | ⟨he, hinfo⟩ := hown
        · simp [he, hinfo, hrem]
        · simp [he, hinfo]
        · simp [he, hinfo]
      | upEnd =>
        obtain ⟨he, hinfo⟩ := hown
        simp [he, hinfo]
      | _ => exact hown.elim
    · cases (exec_of_sequence hl hm).symm.trans hexec
      exact ⟨rfl, rfl, .inr ⟨i, hd, by simp [hl, hw]⟩⟩
  · exact absurd herr hm
  · exact ⟨rfl, rfl, .inl ⟨⟨r, hd⟩, rfl, rfl⟩⟩

end Sys2Proof.Machine
end

section
/-! SUPPORT. Reset (70_reset_and_hazards.md R220, R221), and what is kept outside IDLE (R226). -/

namespace Sys2Proof.Machine

/-! ### Reset -/

/-- No register shows the host's side of the ports: after reset they read as in `State.resetWith`. -/
theorem readReg_hostReset (s : State) (k : BitVec 4) : readReg (hostReset s) k = readReg (State.resetWith s.cfg) k :=
  rfl

/-- Settles O41: the step of a reset turn is `hostReset`, which leaves the reset state under the host's own record. -/
theorem resetGivesResetState : Obligations.ResetGivesResetState := by
  intro s ts hturns
  refine ⟨hostReset (takeTurn s), step_of_turn hturns, rfl, rfl, rfl, rfl, rfl, rfl, rfl, fun _ => rfl, fun i => ?_,
    rfl, rfl, rfl, rfl, rfl, rfl, rfl, rfl, rfl, fun k hk => ?_, rfl, rfl, rfl, ?_⟩
  · simp [nodeAt, nodeIn]
  · rw [readReg_hostReset, readReg_resetWith _ hk]
  · simp [hturns]

/-- Settles O47: the reset state is the one a reset turn leaves it in. -/
theorem resetStateIsConsistent : Obligations.ResetStateIsConsistent := fun cfg => hostReset_inv (State.resetWith cfg)

/-! ### The configuration outside IDLE -/

/-- What a host configures before a session: the code table, the tree and the length of the stream to unpack (R226). -/
def configuration : List Field := [.codeTable, .arena, .root, .treeValid, .upBitLen]

/-- A command that may write the configuration is legal in IDLE alone (30_encoding.md R86; 10_state.md R20). -/
theorem legalModes_eq_idle_or_not_mayWrite (i : Instr) :
    legalModes i = [.idle] ∨ ∀ f ∈ configuration, f ∉ mayWrite i := by
  cases i with
  | nop | abort | pkSym _ | pkFlush | upByte _ | upEnd => exact .inr (by simp [configuration, mayWrite, errorFields])
  | _ => exact .inl rfl

/-- Outside its legal modes a command is dropped or enters an error. -/
theorem exec_frame_of_illegal {i : Instr} {s t : State} (hl : s.mode ∉ legalModes i) (h : exec i s = .next t) :
    frame errorFields s t := by
  obtain ⟨body, hb⟩ := exec_gated i s
  obtain ⟨hlegal, -⟩ | ⟨-, -, rfl⟩ | ⟨-, -, rfl⟩ := gated_cases (hb.symm.trans h)
  · exact absurd hlegal hl
  · exact frame_refl _ _
  · exact raise_frame (List.Subset.refl _) _ _ _

/-- Settles O43: a command legal in IDLE alone is dropped or raises, and no other command may write the
configuration (O42). -/
theorem configurationChangesOnlyInIdle : Obligations.ConfigurationChangesOnlyInIdle := by
  intro i s t h hm
  have hkeep : ∀ f ∈ configuration, f.same s t := by
    intro f hf
    obtain hl | hw := legalModes_eq_idle_or_not_mayWrite i
    · have herr : f ∉ errorFields := by
        revert f
        decide
      exact exec_frame_of_illegal (by simpa [hl] using hm) h f herr
    · exact commandsWriteOnlyNamedState i s t h f (hw f hf)
  exact ⟨hkeep .codeTable (by decide), hkeep .arena (by decide), hkeep .root (by decide), hkeep .treeValid (by decide),
    hkeep .upBitLen (by decide)⟩

end Sys2Proof.Machine
end

section
/-! SUPPORT. The bytes of a run of accepted words, split by session (70_reset_and_hazards.md R229; 00_scope.md R14). -/

namespace Sys2Proof.Machine

/-! ### What an accepted word appends to the queue -/

theorem EmitsAtMost.outq_isPrefix {n : Nat} {s t : State} (h : EmitsAtMost n s t) : s.outq <+: t.outq := by
  obtain ⟨bytes, hq, -⟩ := h
  exact ⟨bytes, hq.symm⟩

/-- A symbol emits at most a byte for every bit of its code, whatever the code table holds. -/
theorem execPkSym_emits_ctLen {a : Byte} {s t : State} (h : execPkSym a s = .next t) : EmitsAtMost (ctLen s a) s t := by
  refine gated_emitsAtMost h fun hb => ?_
  split_ifs at hb <;> cases hb
  · exact emitsAtMost_of_outq_eq rfl
  · exact emitsAtMost_of_outq_eq rfl
  · exact appendBits_emits (codeOf s a) s

/-- A command only appends to the queue (20_memory.md R63), in every state. -/
theorem exec_outq_isPrefix {i : Instr} {s t : State} (h : exec i s = .next t) : s.outq <+: t.outq := by
  cases i with
  | pkSym a => exact (execPkSym_emits_ctLen h).outq_isPrefix
  | pkFlush => exact (execPkFlush_emits h).outq_isPrefix
  | upByte b => exact (execUpByte_emits h).outq_isPrefix
  | _ =>
    have hq := commandsWriteOnlyNamedState _ s t h .outq (by simp [mayWrite, errorFields])
    exact ⟨[], (List.append_nil _).trans hq.symm⟩

theorem accept_outq_isPrefix {w : Word} {s t : State} (h : accept w s = .next t) : s.outq <+: t.outq := by
  obtain ⟨i, -, he⟩ | ⟨r, -, -, rfl⟩ | ⟨r, -, -, rfl⟩ := accept_cases h
  · exact exec_outq_isPrefix he
  · exact List.prefix_refl _
  · exact List.prefix_refl _

/-- The bytes of the queue of `t` after as many as `s` has. -/
def appended (s t : State) : List Byte := t.outq.drop s.outq.length

theorem outq_append_appended {w : Word} {s t : State} (h : accept w s = .next t) : s.outq ++ appended s t = t.outq :=
  (List.prefix_iff_eq_append).mp (accept_outq_isPrefix h)

/-! ### The start of a session -/

/-- The words of the two commands that start a session, by what they decode to. -/
theorem startsSession_iff {w : Word} {s t : State} : startsSession w s t ↔
    (decode w = .ok .pkStart ∨ decode w = .ok .upStart) ∧ s.mode = .idle ∧ t.mode ≠ .error := by
  have hword : ∀ {i : Instr}, i.wf = true → (decode w = .ok i ↔ w = encode i) := fun hwf =>
    ⟨fun hd => (encode_of_decode hd).symm, fun hw => hw ▸ decodeOfEncodeIsInstruction _ hwf⟩
  rw [hword rfl, hword rfl]
  rfl

theorem opensSession_iff {w : Word} {s t : State} : opensSession w s t = true ↔ startsSession w s t := by
  rw [startsSession_iff, opensSession]
  split
  case h_1 hd => simp [hd]
  case h_2 hd => simp [hd]
  case h_3 hpk hup => simpa using fun h => h.elim (absurd · hpk) (absurd · hup)

/-- A session's start emits nothing. -/
theorem outq_eq_of_startsSession {w : Word} {s t : State} (hstart : startsSession w s t) (h : accept w s = .next t) :
    t.outq = s.outq := by
  obtain ⟨hd | hd, -⟩ := startsSession_iff.mp hstart
  · exact commandsWriteOnlyNamedState .pkStart s t (accept_of_decode hd s ▸ h) .outq (by decide)
  · exact commandsWriteOnlyNamedState .upStart s t (accept_of_decode hd s ▸ h) .outq (by decide)

/-! ### The lists of a run -/

section Lists

variable {w : Word} {ws : List Word} {s t : State}

theorem acceptAll_cons (h : accept w s = .next t) : acceptAll (w :: ws) s = acceptAll ws t := by
  simp only [acceptAll, h]

/-- The run of the words after the first. -/
theorem acceptAll_cons_cases (h : acceptAll (w :: ws) s = .next t) :
    ∃ u, accept w s = .next u ∧ acceptAll ws u = .next t := by
  cases hw : accept w s with
  | next u => exact ⟨u, rfl, acceptAll_cons hw ▸ h⟩
  | fault f => simp [acceptAll, hw] at h
  | refused r => simp [acceptAll, hw] at h

/-- A word that starts no session adds its bytes to the first list of the words after it. -/
theorem sessions_cons_of_not_starts (h : accept w s = .next t) (hstart : ¬ startsSession w s t) :
    sessions (w :: ws) s = (sessions ws t).modifyHead (appended s t ++ ·) := by
  have ho : opensSession w s t = false := Bool.eq_false_iff.mpr (mt opensSession_iff.mp hstart)
  simp only [sessions, h, ho]
  cases sessions ws t <;> rfl

/-- A session's start closes an empty list, and the words after it have their own. -/
theorem sessions_cons_of_starts (h : accept w s = .next t) (hstart : startsSession w s t) :
    sessions (w :: ws) s = [] :: sessions ws t := by
  have ho : opensSession w s t = true := opensSession_iff.mpr hstart
  have hnone : t.outq.drop s.outq.length = [] := by simp [outq_eq_of_startsSession hstart h]
  simp only [sessions, h, ho, hnone]
  cases hs : sessions ws t with
  | nil => exact absurd hs (sessions_ne_nil ws t)
  | cons now later => rfl

theorem flatten_modifyHead_append {lists : List (List Byte)} (hne : lists ≠ []) (bytes : List Byte) :
    (lists.modifyHead (bytes ++ ·)).flatten = bytes ++ lists.flatten := by
  cases lists with
  | nil => contradiction
  | cons now later => simp

/-- The first list of two runs joined is that of the first run. -/
theorem modifyHead_append_of_ne_nil {lists later : List (List Byte)} (hne : lists ≠ []) (f : List Byte → List Byte) :
    (lists ++ later).modifyHead f = lists.modifyHead f ++ later := by
  cases lists with
  | nil => contradiction
  | cons now rest => rfl

theorem outq_eq_append_flatten_sessions (h : acceptAll ws s = .next t) :
    t.outq = s.outq ++ (sessions ws s).flatten := by
  induction ws generalizing s with
  | nil =>
    cases h
    simp [sessions]
  | cons w rest ih =>
    obtain ⟨u, hu, hrest⟩ := acceptAll_cons_cases h
    rw [ih hrest]
    by_cases hstart : startsSession w s u
    · rw [sessions_cons_of_starts hu hstart, List.flatten_cons, outq_eq_of_startsSession hstart hu, List.nil_append]
    · rw [sessions_cons_of_not_starts hu hstart, flatten_modifyHead_append (sessions_ne_nil rest u),
        ← List.append_assoc, outq_append_appended hu]

/-- No word of the run starts a session where it is accepted. -/
def StartsNoSession (ws : List Word) (s : State) : Prop :=
  ∀ pre w post u v, ws = pre ++ w :: post → acceptAll pre s = .next u → accept w u = .next v → ¬ startsSession w u v

theorem StartsNoSession.head (h : StartsNoSession (w :: ws) s) (hw : accept w s = .next t) : ¬ startsSession w s t :=
  h [] w ws s t rfl rfl hw

theorem StartsNoSession.tail (h : StartsNoSession (w :: ws) s) (hw : accept w s = .next t) : StartsNoSession ws t :=
  fun pre x post u v hws hpre => h (w :: pre) x post u v (by rw [hws, List.cons_append])
    (by rw [acceptAll_cons hw, hpre])

theorem sessions_eq_singleton (h : acceptAll ws s = .next t) (hnone : StartsNoSession ws s) :
    ∃ bytes, sessions ws s = [bytes] := by
  induction ws generalizing s with
  | nil => exact ⟨[], rfl⟩
  | cons w rest ih =>
    obtain ⟨u, hu, hrest⟩ := acceptAll_cons_cases h
    obtain ⟨bytes, hbytes⟩ := ih hrest (hnone.tail hu)
    exact ⟨appended s u ++ bytes, by rw [sessions_cons_of_not_starts hu (hnone.head hu), hbytes]; rfl⟩

/-- Where a session starts, the lists are those of the words before it and those of the words after it. -/
theorem sessions_append_of_starts {pre : List Word} {u v : State} (hpre : acceptAll pre s = .next u)
    (hw : accept w u = .next v) (hstart : startsSession w u v) :
    sessions (pre ++ w :: ws) s = sessions pre s ++ sessions ws v := by
  induction pre generalizing s with
  | nil =>
    cases hpre
    exact sessions_cons_of_starts hw hstart
  | cons x rest ih =>
    obtain ⟨r, hr, hrest⟩ := acceptAll_cons_cases hpre
    rw [List.cons_append]
    by_cases hx : startsSession x s r
    · rw [sessions_cons_of_starts hr hx, sessions_cons_of_starts hr hx, ih hrest, List.cons_append]
    · rw [sessions_cons_of_not_starts hr hx, sessions_cons_of_not_starts hr hx, ih hrest,
        modifyHead_append_of_ne_nil (sessions_ne_nil rest r)]

end Lists

/-- Settles O50: by induction on the words, each of which adds its bytes to the first list or starts a session. -/
theorem sessionsAccountForEveryByte : Obligations.SessionsAccountForEveryByte := by
  refine ⟨fun _ _ _ => outq_eq_append_flatten_sessions, fun ws s t h hnone => ?_,
    fun pre post w s u v t hpre hw _ hstart =>
      ⟨outq_eq_of_startsSession hstart hw, sessions_append_of_starts hpre hw hstart⟩⟩
  obtain ⟨bytes, hbytes⟩ := sessions_eq_singleton h hnone
  exact ⟨bytes, by simpa [hbytes] using outq_eq_append_flatten_sessions h, hbytes⟩

/-! ### A pack session -/

/-- The words of well-formed commands are accepted as the commands execute. -/
theorem acceptAll_map_encode {is : List Instr} (hwf : ∀ i ∈ is, i.wf = true) (s : State) :
    acceptAll (is.map encode) s = execAll is s := by
  induction is generalizing s with
  | nil => rfl
  | cons i rest ih =>
    rw [List.forall_mem_cons] at hwf
    obtain ⟨hi, hrest⟩ := hwf
    rw [List.map_cons, acceptAll, execAll, accept_of_decode (decodeOfEncodeIsInstruction i hi)]
    cases exec i s with
    | next t => exact ih hrest t
    | fault f => rfl
    | refused r => rfl

/-- The commands of a pack session after its `PK_START` (30_encoding.md R93). -/
def packCommands (syms : List Byte) : List Instr := syms.map .pkSym ++ [.pkFlush]

theorem packProgram_eq (syms : List Byte) : packProgram syms = .pkStart :: packCommands syms := rfl

theorem packCommands_wf {syms : List Byte} {i : Instr} (h : i ∈ packCommands syms) :
    i.wf = true ∧ i ≠ .pkStart ∧ i ≠ .upStart := by
  obtain ⟨a, -, rfl⟩ | rfl : (∃ a ∈ syms, Instr.pkSym a = i) ∨ i = .pkFlush := by simpa [packCommands] using h
  · simp [Instr.wf]
  · simp [Instr.wf]

theorem startsNoSession_packCommands (syms : List Byte) (s : State) :
    StartsNoSession ((packCommands syms).map encode) s := by
  intro pre w post u v hws _ _ hstart
  obtain ⟨i, hi, rfl⟩ : ∃ i ∈ packCommands syms, encode i = w := List.mem_map.mp (by simp [hws])
  obtain ⟨hwf, hpk, hup⟩ := packCommands_wf hi
  simp [startsSession_iff, decodeOfEncodeIsInstruction i hwf, hpk, hup] at hstart

/-- Settles O56: the session starts with its first word and none of the words after it starts another (O50); the bytes
are those of the session's commands (O28). -/
theorem packSessionIsOneSession : Obligations.PackSessionIsOneSession := by
  intro s syms hm
  obtain ⟨t, ht, -, hcompleted⟩ := packSessionEmitsMessage s syms hm
  obtain ⟨-, hone, hsplit⟩ := sessionsAccountForEveryByte
  have hpk : decode (encode .pkStart) = .ok .pkStart := decodeOfEncodeIsInstruction .pkStart rfl
  have hopen : accept (encode .pkStart) s = .next (openPack s) := (accept_of_decode hpk s).trans (exec_pkStart_idle hm)
  have hstart : startsSession (encode .pkStart) s (openPack s) :=
    startsSession_iff.mpr ⟨.inl hpk, hm, by simp [openPack]⟩
  have hwf : ∀ i ∈ packProgram syms, i.wf = true := by
    rw [packProgram_eq, List.forall_mem_cons]
    exact ⟨rfl, fun i hi => (packCommands_wf hi).1⟩
  have hrun : acceptAll ((packProgram syms).map encode) s = .next t := (acceptAll_map_encode hwf s).trans ht
  have hrest : acceptAll ((packCommands syms).map encode) (openPack s) = .next t :=
    (acceptAll_cons hopen).symm.trans hrun
  obtain ⟨-, hsessions⟩ := hsplit [] _ _ s s (openPack s) t rfl hopen hrest hstart
  obtain ⟨bytes, hq, hbytes⟩ := hone _ _ t hrest (startsNoSession_packCommands syms _)
  refine ⟨t, bytes, hrun, hq, hsessions.trans (congrArg ([] :: ·) hbytes), fun hcpl => ?_⟩
  obtain ⟨-, emitted, hemitted, hlen, hbits, -⟩ := hcompleted hcpl
  obtain rfl : bytes = emitted := List.append_cancel_left (hq.symm.trans hemitted)
  exact ⟨hlen, hbits⟩

end Sys2Proof.Machine
end

section
/-! SUPPORT. Decoding as the inverse of encoding (30_encoding.md R85, R90), and the words of the spec's table of decode verdicts
(95_test_vectors.md L2.1). -/

namespace Sys2Proof

/-- The decoder answers a well-formed command on exactly that command's word (R85, R90). -/
theorem decode_eq_ok_iff {w : Word} {i : Instr} : decode w = .ok i ↔ i.wf = true ∧ encode i = w := by
  constructor
  · exact encodeOfDecodeIsWord w i
  · rintro ⟨hwf, rfl⟩
    exact decodeOfEncodeIsInstruction i hwf

/-- Settles O5: each of the table's words is the word of the well-formed command beside it. -/
theorem specWordsDecode : Obligations.SpecWordsDecode := by
  unfold Obligations.SpecWordsDecode
  simp only [decode_eq_ok_iff]
  decide

end Sys2Proof
end
